-- ==== Sys2Proof/Word.lean ====
section
/-! DEFINITION. The word types of the block (spec/00_scope.md R7, R8): bit 0 is the least significant bit. -/

namespace Sys2Proof

/-- One byte of guest memory (R60). -/
abbrev Byte := BitVec 8

/-- A guest address; `GA_BITS` = 32 (R6), so address arithmetic is mod 2^32 (R61). -/
abbrev Addr := BitVec 32

/-- An unsigned 32-bit register or response value (`u32`, R8). -/
abbrev U32 := BitVec 32

/-- A signed 16-bit sample (`s16`, R8); its integer value is `BitVec.toInt`. -/
abbrev S16 := BitVec 16

/-- A signed 32-bit accumulator slot (`s32`, R8); its integer value is `BitVec.toInt`. -/
abbrev S32 := BitVec 32

/-- A gain register: 17 bits, 16 of them fraction bits (R21). -/
abbrev Gain := BitVec 17

/-- The 64-bit command word `CMD` (R90). -/
abbrev Command := BitVec 64

/-- `VOL_UNITY` = `VOL_MAX` = 2^16, the gain that is unity and the largest legal one (R6). -/
def volMax : Nat := 65536

end Sys2Proof
end

