-- ==== Sys2Proof/Config.lean ====
section
/-! DEFINITION. The implementation parameters of spec/00_scope.md R6, which the model takes as an argument,
and the free values: what the spec leaves unspecified and the machine goes on with. -/

namespace Sys2Proof

/-- The two-valued `format` register (R21): 0 STEREO, 1 MONO (92_eei_decisions D8). -/
inductive Format where
  | stereo
  | mono
deriving DecidableEq, Repr, Inhabited

/-- The three latency profiles (R6, R31): 0 LOW, 1 MEDIUM, 2 HIGH. -/
inductive Profile where
  | low
  | medium
  | high
deriving DecidableEq, Repr, Inhabited

/-- The four values of one latency profile (R6, R211). -/
structure ProfileValues where
  /-- `HBS`, hardwareBlockSize, stereo frames per tick. -/
  hbs   : Nat
  /-- `HABS`, hostAttemptBlockSize, stereo frames. -/
  habs  : Nat
  /-- `QMAXF`, queueMaxFactor; no rule reads it (R32). -/
  qmaxf : Nat
  /-- `QMINF`, queueMinFactor, the divisor of R164. -/
  qminf : Nat
deriving DecidableEq, Repr

/-- The constraint R6 puts on the four values of a profile, for an output ring of `oqCap` elements. -/
def ProfileValues.wf (v : ProfileValues) (oqCap : Nat) : Bool :=
  1 ≤ v.hbs && 1 ≤ v.habs && 1 ≤ v.qmaxf && 1 ≤ v.qminf && 2 * v.hbs ≤ oqCap

/-- The parameters of R6. `TH`, `WAIT_AUDIO` and the event names are opaque there; here they are natural
numbers, compared and never computed with (DESIGN CHOICE, log 10, log 11). -/
structure Params where
  /-- `CH_MAX`: channels are `0..chMax`. -/
  chMax          : Nat
  /-- `CH_OUTPUT2`, the "output2" channel. -/
  chOutput2      : Nat
  /-- `CH_SRC`, the secondary-stream channel. -/
  chSrc          : Nat
  /-- `CQ_CAP`, elements of every channel queue. -/
  cqCap          : Nat
  /-- `OQ_CAP`, elements of OUTQ. -/
  oqCap          : Nat
  /-- `PROFILE[LOW]`. -/
  low            : ProfileValues
  /-- `PROFILE[MEDIUM]`. -/
  medium         : ProfileValues
  /-- `PROFILE[HIGH]`. -/
  high           : ProfileValues
  /-- `HW_RATE`, stereo frames per second. -/
  hwRate         : Nat
  /-- `ERR_BUSY`. -/
  errBusy        : U32
  /-- `ERR_CANNOT_WAIT`. -/
  errCannotWait  : U32
  /-- `ERR_NOT_RESERVED`. -/
  errNotReserved : U32
  /-- `WAIT_AUDIO`, the wait category of channel waits. -/
  waitAudio      : Nat
  /-- `EVNAME_AUDIO`. -/
  evnameAudio    : Nat
  /-- `EVNAME_HOST`. -/
  evnameHost     : Nat
  /-- `HOST_LE`; it enters no rule (R169). -/
  hostLe         : Bool
deriving DecidableEq, Repr

/-- `NCH = CH_MAX + 1` (R6). -/
def Params.nch (P : Params) : Nat := P.chMax + 1

/-- `PROFILE[p]` (R6, R211). -/
def Params.profile (P : Params) : Profile → ProfileValues
  | .low    => P.low
  | .medium => P.medium
  | .high   => P.high

/-- The constraint column of R6. -/
def Params.wf (P : Params) : Bool :=
  P.chMax ≤ 255 && P.chOutput2 ≤ P.chMax && P.chSrc ≤ P.chMax
    && P.cqCap % 2 == 0 && 2 ≤ P.cqCap && P.oqCap % 2 == 0
    && P.low.wf P.oqCap && P.medium.wf P.oqCap && P.high.wf P.oqCap && 1 ≤ P.hwRate
    && P.errBusy != P.errCannotWait && P.errBusy != P.errNotReserved && P.errCannotWait != P.errNotReserved
    && P.evnameAudio != P.evnameHost

/-- The parameter values of the state after reset. DESIGN CHOICE (log 1, unsafe for a claim about them): R6
leaves most of them OPEN; these are the test configuration TC of spec/95_test_vectors.md 2.1, and for what TC
does not give, PRESUMED values of spec/93_implementation_defined.md section 3. -/
def Config.resetParams : Params where
  chMax := 3
  chOutput2 := 3
  chSrc := 2
  cqCap := 512
  oqCap := 8192
  low := { hbs := 16, habs := 256, qmaxf := 1, qminf := 1 }
  medium := { hbs := 64, habs := 512, qmaxf := 2, qminf := 1 }
  high := { hbs := 64, habs := 512, qmaxf := 4, qminf := 2 }
  hwRate := 44100
  errBusy := 0x80260002#32
  errCannotWait := 0x800201A7#32
  errNotReserved := 0x80260008#32
  waitAudio := 1
  evnameAudio := 1
  evnameHost := 2
  hostLe := true

/-- The pieces of state a command may leave unspecified (R38, R210, R212, R219): the place a free value is for. -/
inductive Place where
  | reserved      (c : Nat)
  | format        (c : Nat)
  | sampleAddress (c : Nat)
  | sampleCount   (c : Nat)
  | leftVolume    (c : Nat)
  | rightVolume   (c : Nat)
  | queueStorage  (c i : Nat)
  | queueHead     (c : Nat)
  | queueTail     (c : Nat)
  | queueCount    (c : Nat)
  | outStorage    (i : Nat)
  | outHead
  | outTail
  | outCount
  | accSlot       (i : Nat)
  | profileSel
  | hbs
  | habs
  | qmaxf
  | qminf
  | cps
  | audioInterval
  | hostInterval
  | outfreq
  | evAudio
  | evHost
  | outOvf
deriving DecidableEq, Repr

/-- A FREE VALUE (log 4): what the spec calls unspecified, for the `k`-th time it happens, at a place. It has no
body, so nothing can be proved of it; a bit field takes its low bits. -/
opaque Config.freeNat (k : Nat) (p : Place) : Nat

/-- A FREE VALUE (log 4): the unspecified wait list of channel `c`, as pairs of thread and remaining frames. -/
opaque Config.freeWaiting (k c : Nat) : List (Nat × Int)

end Sys2Proof
end

