-- ==== Sys2Proof/Syntax.lean ====
section
/-! DEFINITION. The command set: one constructor per row of spec/opcode_table.json (spec/30_encoding.md R91),
with its operands as R94 takes them from the word. -/

namespace Sys2Proof

/-- The three command ports (R95): guest, timer, host. -/
inductive Port where
  | g
  | t
  | h
deriving DecidableEq, Repr, Inhabited

/-- One command (R91). -/
inductive Instr where
  /-- INIT profile (R210); the operand is the raw 2-bit field, 3 being illegal (R94). -/
  | init     (profile : BitVec 2)
  /-- SHUTDOWN (R212). -/
  | shutdown
  /-- CLKCHG (R213). -/
  | clkchg
  /-- SETFREQ freq (R214). -/
  | setfreq  (freq : U32)
  /-- SAVE (R216). -/
  | save
  /-- LOAD (R218). -/
  | load
  /-- RDSTAT (R224). -/
  | rdstat
  /-- SETRSV ch, v (R141). -/
  | setrsv   (ch : BitVec 8) (v : Bool)
  /-- SETFMT ch, fmt (R142). -/
  | setfmt   (ch : BitVec 8) (fmt : Format)
  /-- SETADDR ch, addr (R143). -/
  | setaddr  (ch : BitVec 8) (addr : Addr)
  /-- SETCNT ch, n (R144). -/
  | setcnt   (ch : BitVec 8) (n : U32)
  /-- SETVOLL ch, g (R145); values above 65536 are illegal (R94). -/
  | setvoll  (ch : BitVec 8) (gain : Gain)
  /-- SETVOLR ch, g (R146); values above 65536 are illegal (R94). -/
  | setvolr  (ch : BitVec 8) (gain : Gain)
  /-- ENQ ch and ENQ ch, B (R161). -/
  | enq      (ch : BitVec 8) (blocking : Bool)
  /-- CHCLR ch (R147). -/
  | chclr    (ch : BitVec 8)
  /-- TICK (R182). -/
  | tick
  /-- HOSTPOLL (R189). -/
  | hostpoll
  /-- PULL numFrames (R200). -/
  | pull     (numFrames : U32)
deriving DecidableEq, Repr

end Sys2Proof
end

