-- ==== Sys2Proof/WellFormed.lean ====
section
/-! DEFINITION. The operand values that are legal for every block, spec/30_encoding.md R94 and R97 (e).
The check `CH <= CH_MAX` of R97 (d) depends on the block's parameters and stands in Machine/Ops.lean. -/

namespace Sys2Proof

/-- R97 (e): INIT's profile is 0, 1 or 2, and a gain is at most 65536. -/
def Instr.wellFormed : Instr → Bool
  | .init p      => p != 3#2
  | .shutdown    => true
  | .clkchg      => true
  | .setfreq _   => true
  | .save        => true
  | .load        => true
  | .rdstat      => true
  | .setrsv _ _  => true
  | .setfmt _ _  => true
  | .setaddr _ _ => true
  | .setcnt _ _  => true
  | .setvoll _ g => g.toNat ≤ volMax
  | .setvolr _ g => g.toNat ≤ volMax
  | .enq _ _     => true
  | .chclr _     => true
  | .tick        => true
  | .hostpoll    => true
  | .pull _      => true

end Sys2Proof
end

