-- ==== Sys2Proof/Decode.lean ====
section
/-! DEFINITION. Decoding a command word, spec/30_encoding.md R90, R91, R94, R101, total on 64-bit words and
rejecting by name, and the encoder written from the same tables. A command is presented on a port, not fetched
from a memory (10_state R23), so the decoder takes the word itself. -/

namespace Sys2Proof

/-- Why a word decodes to no command (R97 (a), (c)). -/
inductive DecodeError where
  /-- `OP` is not in the table of R91. -/
  | unassignedOp
  /-- `FLAGS[7:1]` is not zero. -/
  | reservedFlags
  /-- `RSV` is not zero. -/
  | reservedRsv
  /-- `B` is set on a command other than ENQ. -/
  | blockingBit
  /-- `CH` is not zero on a command without a channel. -/
  | channelField
  /-- A must-be-zero bit of `IMM` is set. -/
  | operandBits
deriving DecidableEq, Repr

/-- The fields of a command word (R90). -/
structure Fields where
  op    : BitVec 8
  ch    : BitVec 8
  flags : BitVec 7
  b     : BitVec 1
  rsv   : BitVec 8
  imm   : BitVec 32
deriving DecidableEq, Repr

/-- Take a word apart (R90). -/
def fieldsOf (w : Command) : Fields where
  op    := w.extractLsb' 56 8
  ch    := w.extractLsb' 48 8
  flags := w.extractLsb' 41 7
  b     := w.extractLsb' 40 1
  rsv   := w.extractLsb' 32 8
  imm   := w.extractLsb' 0 32

/-- Put a word together (R90). -/
def wordOf (f : Fields) : Command :=
  f.op ++ f.ch ++ f.flags ++ f.b ++ f.rsv ++ f.imm

/-- The code of `format`: 0 STEREO, 1 MONO (R94). -/
def formatBit : Format → BitVec 32
  | .stereo => 0#32
  | .mono   => 1#32

/-- The must-be-zero fields of an operation without a channel (R90, R97 (c)). -/
def plain (f : Fields) (i : Instr) : Except DecodeError Instr :=
  if f.b ≠ 0#1 then .error .blockingBit
  else if f.ch ≠ 0#8 then .error .channelField
  else .ok i

/-- An operation without a channel and without an operand: `IMM` is zero (R94). -/
def plainNoOperand (f : Fields) (i : Instr) : Except DecodeError Instr :=
  if f.imm ≠ 0#32 then .error .operandBits else plain f i

/-- The must-be-zero fields of an operation with a channel, ENQ apart. -/
def channelOp (f : Fields) (i : Instr) : Except DecodeError Instr :=
  if f.b ≠ 0#1 then .error .blockingBit else .ok i

/-- A one-bit operand: `IMM[31:1]` is zero (R94). -/
def bitOperand (f : Fields) (i : Instr) : Except DecodeError Instr :=
  if f.imm.extractLsb' 1 31 ≠ 0#31 then .error .operandBits else channelOp f i

/-- A gain operand: `IMM[31:17]` is zero (R94). -/
def gainOperand (f : Fields) (i : Instr) : Except DecodeError Instr :=
  if f.imm.extractLsb' 17 15 ≠ 0#15 then .error .operandBits else channelOp f i

/-- The table of R91 with the operands of R94, for a word whose reserved fields are zero. -/
def decodeFields (f : Fields) : Except DecodeError Instr :=
  if f.op = 0x01#8 then
    if f.imm.extractLsb' 2 30 ≠ 0#30 then .error .operandBits
    else plain f (.init (f.imm.extractLsb' 0 2))
  else if f.op = 0x02#8 then plainNoOperand f .shutdown
  else if f.op = 0x03#8 then plainNoOperand f .clkchg
  else if f.op = 0x04#8 then plain f (.setfreq f.imm)
  else if f.op = 0x05#8 then plainNoOperand f .save
  else if f.op = 0x06#8 then plainNoOperand f .load
  else if f.op = 0x07#8 then plainNoOperand f .rdstat
  else if f.op = 0x10#8 then bitOperand f (.setrsv f.ch (f.imm == 1#32))
  else if f.op = 0x11#8 then bitOperand f (.setfmt f.ch (if f.imm = 1#32 then .mono else .stereo))
  else if f.op = 0x12#8 then channelOp f (.setaddr f.ch f.imm)
  else if f.op = 0x13#8 then channelOp f (.setcnt f.ch f.imm)
  else if f.op = 0x14#8 then gainOperand f (.setvoll f.ch (f.imm.extractLsb' 0 17))
  else if f.op = 0x15#8 then gainOperand f (.setvolr f.ch (f.imm.extractLsb' 0 17))
  else if f.op = 0x18#8 then
    if f.imm ≠ 0#32 then .error .operandBits else .ok (.enq f.ch (f.b == 1#1))
  else if f.op = 0x19#8 then
    if f.imm ≠ 0#32 then .error .operandBits else channelOp f (.chclr f.ch)
  else if f.op = 0x20#8 then plainNoOperand f .tick
  else if f.op = 0x21#8 then plainNoOperand f .hostpoll
  else if f.op = 0x30#8 then plain f (.pull f.imm)
  else .error .unassignedOp

/-- Decode a command word (R101): the operation and its reserved fields, no value check. -/
def decode (w : Command) : Except DecodeError Instr :=
  let f := fieldsOf w
  if f.flags ≠ 0#7 then .error .reservedFlags
  else if f.rsv ≠ 0#8 then .error .reservedRsv
  else decodeFields f

/-- `OP` of each operation (R91). -/
def opcode : Instr → BitVec 8
  | .init _      => 0x01#8
  | .shutdown    => 0x02#8
  | .clkchg      => 0x03#8
  | .setfreq _   => 0x04#8
  | .save        => 0x05#8
  | .load        => 0x06#8
  | .rdstat      => 0x07#8
  | .setrsv _ _  => 0x10#8
  | .setfmt _ _  => 0x11#8
  | .setaddr _ _ => 0x12#8
  | .setcnt _ _  => 0x13#8
  | .setvoll _ _ => 0x14#8
  | .setvolr _ _ => 0x15#8
  | .enq _ _     => 0x18#8
  | .chclr _     => 0x19#8
  | .tick        => 0x20#8
  | .hostpoll    => 0x21#8
  | .pull _      => 0x30#8

/-- The channel operand of an operation that has one (R92). -/
def channelOf : Instr → Option (BitVec 8)
  | .setrsv ch _  => some ch
  | .setfmt ch _  => some ch
  | .setaddr ch _ => some ch
  | .setcnt ch _  => some ch
  | .setvoll ch _ => some ch
  | .setvolr ch _ => some ch
  | .enq ch _     => some ch
  | .chclr ch     => some ch
  | .init _       => none
  | .shutdown     => none
  | .clkchg       => none
  | .setfreq _    => none
  | .save         => none
  | .load         => none
  | .rdstat       => none
  | .tick         => none
  | .hostpoll     => none
  | .pull _       => none

/-- The operand as it stands in `IMM`, zero-extended (R94). -/
def operandOf : Instr → BitVec 32
  | .init p       => p.setWidth 32
  | .setfreq freq => freq
  | .setrsv _ v   => if v then 1#32 else 0#32
  | .setfmt _ fmt => formatBit fmt
  | .setaddr _ a  => a
  | .setcnt _ n   => n
  | .setvoll _ g  => g.setWidth 32
  | .setvolr _ g  => g.setWidth 32
  | .pull n       => n
  | .shutdown     => 0#32
  | .clkchg       => 0#32
  | .save         => 0#32
  | .load         => 0#32
  | .rdstat       => 0#32
  | .enq _ _      => 0#32
  | .chclr _      => 0#32
  | .tick         => 0#32
  | .hostpoll     => 0#32

/-- The `B` bit (R93): set by a blocking ENQ only. -/
def blockingBitOf : Instr → BitVec 1
  | .enq _ blocking => if blocking then 1#1 else 0#1
  | .init _          => 0#1
  | .shutdown        => 0#1
  | .clkchg          => 0#1
  | .setfreq _       => 0#1
  | .save            => 0#1
  | .load            => 0#1
  | .rdstat          => 0#1
  | .setrsv _ _      => 0#1
  | .setfmt _ _      => 0#1
  | .setaddr _ _     => 0#1
  | .setcnt _ _      => 0#1
  | .setvoll _ _     => 0#1
  | .setvolr _ _     => 0#1
  | .chclr _         => 0#1
  | .tick            => 0#1
  | .hostpoll        => 0#1
  | .pull _          => 0#1

/-- The fields of an instruction's word (R90). -/
def encodeFields (i : Instr) : Fields where
  op    := opcode i
  ch    := (channelOf i).getD 0#8
  flags := 0#7
  b     := blockingBitOf i
  rsv   := 0#8
  imm   := operandOf i

/-- The word of an instruction (R90, R91, R94). -/
def encode (i : Instr) : Command := wordOf (encodeFields i)

/-- The port that R91 assigns to each operation (R95). -/
def portOf : Instr → Port
  | .init _      => .g
  | .shutdown    => .g
  | .clkchg      => .t
  | .setfreq _   => .g
  | .save        => .g
  | .load        => .g
  | .rdstat      => .g
  | .setrsv _ _  => .g
  | .setfmt _ _  => .g
  | .setaddr _ _ => .g
  | .setcnt _ _  => .g
  | .setvoll _ _ => .g
  | .setvolr _ _ => .g
  | .enq _ _     => .g
  | .chclr _     => .g
  | .tick        => .t
  | .hostpoll    => .t
  | .pull _      => .h

/-- The word that a number of `nbits` bits stands for; a command is 64 bits long (R90), the bits above `nbits`
being zero. -/
def tableCommand (nbits w : Nat) : Option Command :=
  let v := w % 2 ^ nbits
  if v < 2 ^ 64 then some (BitVec.ofNat 64 v) else none

/-- The instruction this decoder reads from a word of the opcode table. -/
def decodeTableWord (nbits w : Nat) : Option Instr :=
  match tableCommand nbits w with
  | none   => none
  | some c => (decode c).toOption

end Sys2Proof
end

