-- ==== Sys2Proof/Machine/State.lean ====
section
/-! DEFINITION. The state of the block (spec/10_state.md), of the collaborators it drives (R36), and of its ports
(spec/30_encoding.md R95, R104); the faults of spec/60_exceptions.md R245; the state right after power-on. -/

namespace Sys2Proof.Machine

open Sys2Proof

/-- A Sample Ring Buffer (R120). Its capacity never changes and is a parameter, not a field. -/
structure Ring where
  storage : List S16
  /-- Index of the oldest element. -/
  head    : Nat
  /-- Index of the next element to be written. -/
  tail    : Nat
  /-- Number of elements held. -/
  count   : Nat
deriving DecidableEq, Repr, Inhabited

/-- A wait entry (R25). -/
structure WaitEntry where
  /-- The thread's handle. -/
  thread    : Nat
  /-- Stereo frames still to be drained; may be zero or negative. -/
  remaining : Int
deriving DecidableEq, Repr, Inhabited

/-- A channel record (R21, R24, R25). -/
structure Channel where
  reserved      : Bool
  format        : Format
  sampleAddress : Addr
  sampleCount   : U32
  leftVolume    : Gain
  rightVolume   : Gain
  /-- The document's `sampleQueue`. -/
  queue         : Ring
  /-- The document's `waitingThreads`. -/
  waiting       : List WaitEntry
deriving DecidableEq, Repr, Inhabited

/-- The control registers (R31 to R35). -/
structure Control where
  /-- `PROFILE_SEL` (R31). -/
  profileSel    : Profile
  /-- `HBS` (R32). -/
  hbs           : Nat
  /-- `HABS` (R32). -/
  habs          : Nat
  /-- `QMAXF` (R32); held and read by no rule. -/
  qmaxf         : Nat
  /-- `QMINF` (R32). -/
  qminf         : Nat
  /-- `CPS` (R33). -/
  cps           : Nat
  /-- `AUDIO_INTERVAL` (R33). -/
  audioInterval : Nat
  /-- `HOST_INTERVAL` (R33). -/
  hostInterval  : Nat
  /-- `OUTFREQ` (R34); held and read by no rule. -/
  outfreq       : U32
  /-- `EV_AUDIO` (R35). -/
  evAudio       : Nat
  /-- `EV_HOST` (R35). -/
  evHost        : Nat
deriving DecidableEq, Repr, Inhabited

/-- A save-state (R215). -/
structure Snapshot where
  nch      : Nat
  cqCap    : Nat
  oqCap    : Nat
  channels : List Channel
  outq     : Ring
deriving DecidableEq, Repr, Inhabited

/-- `RESP.status` (R96). -/
inductive Status where
  | ok
  | illegal
  | down
  | incompat
deriving DecidableEq, Repr, Inhabited

/-- `RESP` (R96). -/
structure Response where
  status : Status
  parked : Bool
  value  : U32
deriving DecidableEq, Repr, Inhabited

/-- What the event scheduler calls back (R259): the presentation of TICK, or of HOSTPOLL, on port T. -/
inductive Callback where
  | tick
  | hostpoll
deriving DecidableEq, Repr, Inhabited

/-- A call the block makes on a collaborator (R297): the thread scheduler (R252, R254, R255), the event scheduler
(R259), the host backend (R189), the host's buffer (R67). Queries that change nothing are not recorded, nor are the
free-text arguments `debugLabel` and `reason` (log 13). -/
inductive Call where
  /-- `Sched.parkCurrentThread`, with the thread that was current. -/
  | park          (thread category key : Nat) (payload : U32) (hasTimeout : Bool)
  /-- `Sched.resumeThread`. -/
  | resume        (thread : Nat) (value : U32)
  /-- `Sched.requestReschedule`. -/
  | reschedule
  /-- `Ev.registerEvent`, with the id it returned. -/
  | registerEvent (name : Nat) (callback : Callback) (id : Nat)
  /-- `Ev.registerClockChangeCallback(CLKCHG)`. -/
  | registerClockChange
  /-- `Ev.schedule`. -/
  | schedule      (delay : Int) (id : Nat) (userdata : Nat)
  /-- `Host.pollDeviceOnce`. -/
  | pollDevice
  /-- `HostWrite(i, vs[i])` for `i` from 0 upward. -/
  | hostWrite     (vs : List S16)
deriving DecidableEq, Repr

/-- A thread's wait record in the scheduler (R250). -/
structure WaitRecord where
  category : Nat
  key      : Nat
  payload  : U32
deriving DecidableEq, Repr, Inhabited

/-- The thread scheduler (R250): `W`, and what each resumed thread receives when it next runs (R254). Both are
lists of cells keyed by thread handle, keys strictly rising. -/
structure Scheduler where
  waits     : List (Nat × WaitRecord)
  delivered : List (Nat × U32)
deriving DecidableEq, Repr, Inhabited

/-- A pending occurrence of a periodic event (R36 (c), R259). -/
structure Occurrence where
  delay    : Int
  id       : Nat
  userdata : Nat
deriving DecidableEq, Repr, Inhabited

/-- The event scheduler (R259): the id each name is registered under, what each id it gave out calls back (both keys
strictly rising), whether the clock-change callback is registered, and the occurrences scheduled and not yet fired,
oldest first. -/
structure Events where
  registered    : List (Nat × Nat)
  callbacks     : List (Nat × Callback)
  clockCallback : Bool
  pending       : List Occurrence
deriving DecidableEq, Repr, Inhabited

/-- The commands that read or rewrite OUTQ whole from the emulated-time domain (R76). -/
inductive Lifecycle where
  | init
  | shutdown
  | save
  | load
deriving DecidableEq, Repr, Inhabited

/-- One presentation of a command: the port, the word `CMD`, the side inputs of R104, and the answers the
collaborators will give during it (R251, R259). -/
structure Signals where
  port            : Port
  /-- `CMD` (R90). -/
  word            : Command
  /-- `CPS_IN`. -/
  cpsIn           : Nat
  /-- `LATE_IN`. -/
  lateIn          : Nat
  /-- `SNAP_IN`. -/
  snapIn          : Snapshot
  /-- `HOSTBUF`, the host's array; PULL writes it in place (R67). -/
  hostBuf         : List S16
  /-- The answer of `Sched.isDispatchEnabled()`. -/
  dispatchEnabled : Bool
  /-- The answer of `Sched.currentThreadHandle()`. -/
  currentThread   : Nat
  /-- The id `Ev.registerEvent(EVNAME_AUDIO, ..)` would return. -/
  evIdAudio       : Nat
  /-- The id `Ev.registerEvent(EVNAME_HOST, ..)` would return. -/
  evIdHost        : Nat
  /-- The lifecycle command of the other domain that runs at the same time, if any (R76). -/
  during          : Option Lifecycle
deriving DecidableEq, Repr, Inhabited

/-- What the environment does next: present a command (R95), or one of the moves collaborators make on their own
between two commands (R256, R69, R280). -/
inductive Stimulus where
  | command       (p : Signals)
  /-- The event scheduler fires the `n`-th pending occurrence (R259): it is consumed, and the command its id calls
  back is presented on port T with the side signals of `p`. -/
  | fire          (n : Nat) (p : Signals)
  /-- The emulated clock changes (R260): the registered callback presents CLKCHG on port T with the side signals of
  `p`. -/
  | clockChange   (p : Signals)
  /-- A thread leaves its wait: it was woken or killed by others (R256). -/
  | threadLeft    (thread : Nat)
  /-- A thread's wait record is replaced by a later park of another kind (R256). -/
  | threadReparked (thread : Nat) (record : WaitRecord)
  /-- The guest stores a byte; the address is admitted from then on (R69). -/
  | guestStore    (a : Addr) (b : Byte)
  /-- The memory collaborator no longer admits an address (R66). -/
  | guestUnmap    (a : Addr)
  /-- Power-on reset of the block (R280). -/
  | powerOn
deriving DecidableEq, Repr

/-- Guest memory (R60): cells (address, byte), addresses strictly rising and below 2^32. An address without a cell
is one the collaborator does not admit (R66); so no cell ever equals what an unlisted address reads as. -/
abbrev Memory := List Host.Cell

/-- A `raise Fault(reason)` of R244: the command has no response and the block no defined state afterwards. The
reasons are the closed list of R245. Every constructor carries the collaborator calls the command had already
made (R247). All are safe: the machine stops where the document gives no outcome. -/
inductive Fault where
  /-- Raised by ENQ when `2 * sampleCount` exceeds the queue's room (R166). Safe. -/
  | cqOverflow    (made : List Call)
  /-- Raised by `RB.pushN` for more elements than there is room (R122); no command reaches it. Safe. -/
  | ringOverflow  (made : List Call)
  /-- Raised by `RB.popN` for more elements than there are (R123); no command reaches it. Safe. -/
  | ringUnderflow (made : List Call)
  /-- Raised by ENQ at the first guest address that is not admitted (R66), named by `a`. Safe. -/
  | mem           (a : Addr) (made : List Call)
  /-- Raised by PULL while INIT, SHUTDOWN, SAVE or LOAD runs (R76). Safe. -/
  | race          (made : List Call)
  /-- Raised by LOAD of a record with this block's constants that no SAVE could produce (R218). Safe. -/
  | badSnapshot   (made : List Call)
  /-- Raised by a command that reads a channel or OUTQ while they hold no value (R219). Safe. -/
  | stateUnspec   (made : List Call)
deriving DecidableEq, Repr

/-- A refusal. No meaning of this model refuses anything: a command word that is no legal command is answered with
`ST_ILLEGAL` (R97). -/
inductive Refusal where
  /-- For an arm of `exec` without a meaning; raised by none. Safe. -/
  | notModelled (mnemonic : String)
deriving DecidableEq, Repr

/-- The whole state. The block's own state is `up` to `freeCtr` (R20), the collaborators' `mem`, `sched`, `ev`
(R36), the ports' `queue` to `calls` (R104, R297). -/
structure State where
  /-- The parameters of R6; no step changes them. The model's own field (log 1). -/
  par      : Params
  /-- The lifecycle flag (R30). -/
  up       : Bool
  /-- The channel records `ch[0..CH_MAX]` (R20). -/
  chs      : List Channel
  /-- `OUTQ` (R27). -/
  outq     : Ring
  /-- `ACC` (R28), absent while it does not exist. -/
  acc      : Option (List S32)
  /-- The control registers (R31 to R35). -/
  ctl      : Control
  /-- `STATUS.OUT_OVF` (R29). -/
  outOvf   : Bool
  /-- Whether the channels and OUTQ hold values: false where R38 and R219 say "unspecified" (log 3). -/
  held     : Bool
  /-- How many times a command has left state unspecified: the argument of the free values. The model's own field
  (log 4). -/
  freeCtr  : Nat
  /-- Guest memory (R60). -/
  mem      : Memory
  /-- The thread scheduler (R250). -/
  sched    : Scheduler
  /-- The event scheduler (R259). -/
  ev       : Events
  /-- What the environment does next, first to last. -/
  queue    : List Stimulus
  /-- The signals of the command being run. -/
  sig      : Signals
  /-- `RESP` of that command (R96). -/
  resp     : Option Response
  /-- `SNAP_OUT` of that command (R104). -/
  snapOut  : Option Snapshot
  /-- The collaborator calls of that command, in order (R297). -/
  calls    : List Call
deriving DecidableEq, Repr

/-- A ring as it stands after power-on. DESIGN CHOICE (log 2, unsafe): R38 gives no value. -/
def Ring.powerOn (cap : Nat) : Ring where
  storage := List.replicate cap 0#16
  head := 0
  tail := 0
  count := 0

/-- A channel as it stands after power-on. DESIGN CHOICE (log 2, unsafe): R38 gives no value. -/
def Channel.powerOn (cap : Nat) : Channel where
  reserved := false
  format := .stereo
  sampleAddress := 0#32
  sampleCount := 0#32
  leftVolume := 0#17
  rightVolume := 0#17
  queue := Ring.powerOn cap
  waiting := []

/-- The control registers after power-on. DESIGN CHOICE (log 2, unsafe): R38 gives no value. -/
def Control.powerOn : Control where
  profileSel := .low
  hbs := 0
  habs := 0
  qmaxf := 0
  qminf := 0
  cps := 0
  audioInterval := 0
  hostInterval := 0
  outfreq := 0#32
  evAudio := 0
  evHost := 0

/-- The signal lines before any command is presented. DESIGN CHOICE (log 6): `CPS_IN` and the oracle answers are
those of spec/95_test_vectors.md 2.1. -/
def Signals.idle : Signals where
  port := .g
  word := 0#64
  cpsIn := 222000000
  lateIn := 0
  snapIn := { nch := 0, cqCap := 0, oqCap := 0, channels := [], outq := Ring.powerOn 0 }
  hostBuf := []
  dispatchEnabled := true
  currentThread := 0
  evIdAudio := 1
  evIdHost := 2
  during := none

/-- The machine right after power-on reset, with the parameters `P` (R38, R280): down, ACC absent, channels and
OUTQ without values, nothing presented. What the collaborators hold at this point the spec leaves open (R36; R256 rules
out waits of category WAIT_AUDIO only). DESIGN CHOICE: no address admitted (log 9, safe); no thread waiting in any
category and none with a delivered value (log 10, unsafe for a claim about a run from reset); no event registered, no
id, no clock-change callback, nothing pending (log 11, unsafe for the same). -/
def State.powerOnWith (P : Params) : State where
  par := P
  up := false
  chs := List.replicate P.nch (Channel.powerOn P.cqCap)
  outq := Ring.powerOn P.oqCap
  acc := none
  ctl := Control.powerOn
  outOvf := false
  held := false
  freeCtr := 0
  mem := []
  sched := { waits := [], delivered := [] }
  ev := { registered := [], callbacks := [], clockCallback := false, pending := [] }
  queue := []
  sig := Signals.idle
  resp := none
  snapOut := none
  calls := []

/-- The machine right after power-on reset (R38, R280); the parameters are those of log 1. -/
def State.reset : State := State.powerOnWith Config.resetParams

/-- What a meaning and a step answer. -/
abbrev Out := Host.Outcome State Fault Refusal

end Sys2Proof.Machine
end

