-- ==== Sys2Proof/Machine/Flags.lean ====
section
/-! DEFINITION. The status register `STATUS` (spec/10_state.md R29) and the status codes of a response
(spec/30_encoding.md R96). -/

namespace Sys2Proof.Machine

open Sys2Proof

/-- `STATUS` as RDSTAT reads it (R29, R224): bit 0 is OUT_OVF, bits 31:1 are 0. -/
def statusWord (s : State) : U32 := if s.outOvf then 1#32 else 0#32

/-- TICK sets OUT_OVF when it discards its block (R186). -/
def setOutOvf (s : State) : State := { s with outOvf := true }

/-- INIT clears OUT_OVF (R210). -/
def clearOutOvf (s : State) : State := { s with outOvf := false }

/-- The 4-bit code of a status (R96). -/
def statusCode : Status → BitVec 4
  | .ok       => 0#4
  | .illegal  => 1#4
  | .down     => 2#4
  | .incompat => 3#4

end Sys2Proof.Machine
end

