-- ==== Sys2Proof/Machine/Cells.lean ====
section
/-! DEFINITION. Lists of cells keyed by number, keys strictly rising: guest memory (spec/20_memory.md R60, R66),
the scheduler's maps (spec/60_exceptions.md R250) and the event registry (R259) are held in this one form. -/

namespace Sys2Proof.Machine

/-- The canonical form: keys strictly rising. -/
abbrev cellsSorted {α : Type} (m : List (Nat × α)) : Prop :=
  m.Pairwise fun x y => x.1 < y.1

/-- The value at a key, if there is one. -/
def cellsGet {α : Type} : List (Nat × α) → Nat → Option α
  | [], _ => none
  | (k, v) :: rest, a => if a = k then some v else cellsGet rest a

/-- Set the value at a key. -/
def cellsPut {α : Type} : List (Nat × α) → Nat → α → List (Nat × α)
  | [], a, x => [(a, x)]
  | (k, v) :: rest, a, x =>
    if a < k then (a, x) :: (k, v) :: rest
    else if a = k then (a, x) :: rest
    else (k, v) :: cellsPut rest a x

/-- Remove a key. -/
def cellsErase {α : Type} : List (Nat × α) → Nat → List (Nat × α)
  | [], _ => []
  | (k, v) :: rest, a => if a = k then rest else (k, v) :: cellsErase rest a

/-- Guest memory is in its canonical form: addresses strictly rising and below 2^32. An unlisted address holds no
value (R66), so no cell can equal what it reads as. -/
def Memory.wf (m : Memory) : Bool :=
  decide (cellsSorted m) && m.all fun c => c.1 < 2 ^ 32

/-- `byteAt` (R60): the byte at a guest address, or none where the collaborator does not admit it (R66). -/
def byteAt (m : Memory) (a : Addr) : Option Byte := cellsGet m a.toNat

/-- A guest store of one byte (R69). -/
def storeByte (m : Memory) (a : Addr) (b : Byte) : Memory := cellsPut m a.toNat b

/-- The collaborator stops admitting an address (R66). -/
def unmapByte (m : Memory) (a : Addr) : Memory := cellsErase m a.toNat

end Sys2Proof.Machine
end

