-- ==== Sys2Proof/Machine/Operands.lean ====
section
/-! DEFINITION. Operand forms: the coded operands of spec/30_encoding.md R94, samples read from guest memory
(spec/20_memory.md R61, R62) and scaled by a gain (spec/42_enqueue.md R160, R166). -/

namespace Sys2Proof.Machine

open Sys2Proof

/-- The profile INIT's operand selects (R94); 3 is illegal and selects nothing. -/
def profileOf (p : BitVec 2) : Option Profile :=
  if p = 0#2 then some .low
  else if p = 1#2 then some .medium
  else if p = 2#2 then some .high
  else none

/-- `clamp16` (R9). -/
def clamp16 (v : Int) : Int := max (-32768) (min 32767 v)

/-- The arithmetic right shift `a >> n` (R9): floor of `a / 2^n`. -/
def asr (a : Int) (n : Nat) : Int := a / 2 ^ n

/-- `adjustVolume` (R160) on integers: exact product, floor shift, clamp. -/
def adjustInt (sample vol : Int) : Int := clamp16 (asr (sample * vol) 16)

/-- `adjustVolume` (R160). -/
def adjustVolume (sample : S16) (vol : Int) : S16 := BitVec.ofInt 16 (adjustInt sample.toInt vol)

/-- A gain register as the multiplier of R160 (R21: the value itself, no doubling). -/
def gainOf (g : Gain) : Int := g.toNat

/-- `MemRead16` (R62): little-endian, from the bytes at `a` and `a + 1` mod 2^32 (R61); the first address not
admitted is the error (R66). -/
def memRead16 (m : Memory) (a : Addr) : Except Addr S16 :=
  match byteAt m a with
  | none => .error a
  | some b0 =>
    match byteAt m (a + 1#32) with
    | none => .error (a + 1#32)
    | some b1 => .ok (b1 ++ b0)

/-- The stereo loop of R166: `n` frames from `a` upward, left before right. -/
def stereoSamples (m : Memory) (gL gR : Int) : Nat → Addr → Except Addr (List S16)
  | 0, _ => .ok []
  | n + 1, a =>
    match memRead16 m a with
    | .error e => .error e
    | .ok l =>
      match memRead16 m (a + 2#32) with
      | .error e => .error e
      | .ok r =>
        match stereoSamples m gL gR n (a + 4#32) with
        | .error e => .error e
        | .ok rest => .ok (adjustVolume l gL :: adjustVolume r gR :: rest)

/-- The mono loop of R166: each sample becomes a left and a right one. -/
def monoSamples (m : Memory) (gL gR : Int) : Nat → Addr → Except Addr (List S16)
  | 0, _ => .ok []
  | n + 1, a =>
    match memRead16 m a with
    | .error e => .error e
    | .ok v =>
      match monoSamples m gL gR n (a + 2#32) with
      | .error e => .error e
      | .ok rest => .ok (adjustVolume v gL :: adjustVolume v gR :: rest)

/-- The `2 * sampleCount` scaled samples of R166, or the first address not admitted. -/
def scaledSamples (m : Memory) (k : Channel) : Except Addr (List S16) :=
  match k.format with
  | .stereo => stereoSamples m (gainOf k.leftVolume) (gainOf k.rightVolume) k.sampleCount.toNat k.sampleAddress
  | .mono   => monoSamples m (gainOf k.leftVolume) (gainOf k.rightVolume) k.sampleCount.toNat k.sampleAddress

/-- `ACC[i] <- ACC[i] + vs[i]` for every popped element (R184). -/
def addInto : List S16 → List S32 → List S32
  | v :: vs, a :: as => (a + v.signExtend 32) :: addInto vs as
  | [], as => as
  | _ :: _, [] => []

/-- `clamp16` of one accumulator slot (R186). -/
def clampSlot (a : S32) : S16 := BitVec.ofInt 16 (clamp16 a.toInt)

end Sys2Proof.Machine
end

