-- ==== Sys2Proof/Machine/Ring.lean ====
section
/-! DEFINITION. The Sample Ring Buffer primitives, spec/40_ring_buffer.md R120 to R126. `cap` is the capacity C. -/

namespace Sys2Proof.Machine

/-- The two contract violations of the primitives (R122, R123). -/
inductive RingError where
  | overflow
  | underflow
deriving DecidableEq, Repr

/-- The invariant of R120, `storage` having C slots. -/
def ringWf (cap : Nat) (q : Ring) : Bool :=
  q.storage.length == cap && q.count ≤ cap && q.head < cap && q.tail < cap
    && (q.head + q.count) % cap == q.tail

/-- Whole frames only (R26): cursors and count are even. -/
def ringEven (q : Ring) : Bool :=
  q.head % 2 == 0 && q.tail % 2 == 0 && q.count % 2 == 0

/-- `RB.free` (R126). -/
def ringFree (cap : Nat) (q : Ring) : Nat := cap - q.count

/-- Overwrite the slots from `i` on with `vs`: one span of R122. -/
def writeSpan (storage : List S16) (i : Nat) (vs : List S16) : List S16 :=
  storage.take i ++ vs ++ storage.drop (i + vs.length)

/-- `RB.pushN` (R122): two spans, split at the wrap. -/
def pushN (cap : Nat) (q : Ring) (vs : List S16) : Except RingError Ring :=
  if vs.length ≤ cap - q.count then
    let len1 := min vs.length (cap - q.tail)
    .ok { q with
      storage := writeSpan (writeSpan q.storage q.tail (vs.take len1)) 0 (vs.drop len1)
      tail := (q.tail + vs.length) % cap
      count := q.count + vs.length }
  else .error .overflow

/-- The `n` oldest elements, oldest first: the two spans of R123. -/
def readSpans (cap : Nat) (q : Ring) (n : Nat) : List S16 :=
  let len1 := min n (cap - q.head)
  (q.storage.drop q.head).take len1 ++ q.storage.take (n - len1)

/-- `RB.popN` (R123). -/
def popN (cap : Nat) (q : Ring) (n : Nat) : Except RingError (List S16 × Ring) :=
  if n ≤ q.count then
    .ok (readSpans cap q n, { q with head := (q.head + n) % cap, count := q.count - n })
  else .error .underflow

/-- `RB.push` (R124). -/
def push (cap : Nat) (q : Ring) (v : S16) : Except RingError Ring := pushN cap q [v]

/-- `RB.clear` (R125): storage is left as it is. -/
def ringClear (q : Ring) : Ring := { q with head := 0, tail := 0, count := 0 }

/-- The live region `q[0..count-1]`, oldest first (R120, R121): `q[k]` is `storage[(head + k) mod C]`. -/
def ringContents (cap : Nat) (q : Ring) : List S16 :=
  (List.range q.count).map fun k => q.storage.getD ((q.head + k) % cap) 0#16

end Sys2Proof.Machine
end

