-- ==== Sys2Proof/Machine/Ops.lean ====
section
/-! DEFINITION. The operations the commands share: responses and checks (spec/30_encoding.md R96 to R99), channel
access, the thread and event scheduler ports (spec/60_exceptions.md sections 4 to 7), WakeThreads
(spec/43_mix_tick.md R181), ChannelClear and ChannelReset (R148, R222), free values, presentation of a command. -/

namespace Sys2Proof.Machine

open Sys2Proof

/-! ## Sequencing, responses, checks -/

/-- Go on with `f` where `o` is a next state. -/
def andThen (o : Out) (f : State → Out) : Out :=
  match o with
  | .next s    => f s
  | .fault r   => .fault r
  | .refused r => .refused r

/-- Set `RESP`. -/
def answer (st : Status) (parked : Bool) (v : U32) (s : State) : State :=
  { s with resp := some { status := st, parked := parked, value := v } }

/-- `respond(status, value)` (R96): `parked` is 0. -/
def respond (st : Status) (v : U32) (s : State) : Out := .next (answer st false v s)

/-- The checks of R97 (b), (d), (e) on a decoded command: its port, its channel, its operand. -/
def legal (i : Instr) (s : State) : Bool :=
  i.wellFormed && s.sig.port == portOf i
    && match channelOf i with
       | none    => true
       | some ch => ch.toNat ≤ s.par.chMax

/-- INIT is the one command accepted while `up == false` (R98). -/
def acceptedDown : Instr → Bool
  | .init _      => true
  | .shutdown    => false
  | .clkchg      => false
  | .setfreq _   => false
  | .save        => false
  | .load        => false
  | .rdstat      => false
  | .setrsv _ _  => false
  | .setfmt _ _  => false
  | .setaddr _ _ => false
  | .setcnt _ _  => false
  | .setvoll _ _ => false
  | .setvolr _ _ => false
  | .enq _ _     => false
  | .chclr _     => false
  | .tick        => false
  | .hostpoll    => false
  | .pull _      => false

/-- The order of the checks (R99, R247): `ST_ILLEGAL`, then `ST_DOWN`, then the command's own rule. -/
def checked (i : Instr) (body : State → Out) (s : State) : Out :=
  if legal i s = false then respond .illegal 0#32 s
  else if acceptedDown i = false ∧ s.up = false then respond .down 0#32 s
  else body s

/-- A command that reads a channel or OUTQ while they hold no value is `Fault(STATE_UNSPEC)` (R219, R245). -/
def needHeld (body : State → Out) (s : State) : Out :=
  if s.held then body s else .fault (.stateUnspec s.calls)

/-- Record a collaborator call (R297). -/
def addCall (x : Call) (s : State) : State := { s with calls := s.calls ++ [x] }

/-! ## Channels -/

/-- `ch[c]` (R10). The default is for indices above CH_MAX, which no legal command has (R97 (d)). -/
def getCh (s : State) (c : Nat) : Channel := s.chs.getD c default

/-- `ch[c] <- k` (R10). -/
def setCh (s : State) (c : Nat) (k : Channel) : State := { s with chs := s.chs.set c k }

/-- Do `f` for every channel, in ascending order (R185, R210, R212). -/
def forChannels (f : Nat → State → State) (s : State) : State :=
  (List.range s.par.nch).foldl (fun s c => f c s) s

/-- `silence_zero(c)` (R22, R162). -/
def silenceZero (P : Params) (c : Nat) : Bool := c == P.chSrc || c == P.chOutput2

/-! ## The event scheduler port -/

/-- `Ev.schedule(delay, id, 0)` (R259). -/
def evSchedule (delay : Int) (id : Nat) (s : State) : State :=
  addCall (.schedule delay id 0)
    { s with ev := { s.ev with pending := s.ev.pending ++ [{ delay := delay, id := id, userdata := 0 }] } }

/-- The scheduler's side of `Ev.registerEvent(name, callback)`, idempotent by name (R259). -/
def evRegister (name : Nat) (cb : Callback) (id : Nat) (s : State) : State :=
  addCall (.registerEvent name cb id)
    { s with ev := { s.ev with
        registered := cellsPut s.ev.registered name id
        callbacks := cellsPut s.ev.callbacks id cb } }

/-- Register both periodic events by name and keep the ids returned (R35, R210, R221). -/
def registerEvents (s : State) : State :=
  let s := evRegister s.par.evnameAudio .tick s.sig.evIdAudio s
  let s := evRegister s.par.evnameHost .hostpoll s.sig.evIdHost s
  { s with ctl := { s.ctl with evAudio := s.sig.evIdAudio, evHost := s.sig.evIdHost } }

/-- `Ev.registerClockChangeCallback(CLKCHG)` (R210, R259). -/
def registerClockChange (s : State) : State :=
  addCall .registerClockChange { s with ev := { s.ev with clockCallback := true } }

/-- `(CPS * blocksize) / HW_RATE` (R257, R258). -/
def interval (P : Params) (cps blockSize : Nat) : Nat := cps * blockSize / P.hwRate

/-- `CPS <- CPS_IN` and both intervals recomputed (R210, R213). -/
def deriveIntervals (s : State) : State :=
  { s with ctl := { s.ctl with
      cps := s.sig.cpsIn
      audioInterval := interval s.par s.sig.cpsIn s.ctl.hbs
      hostInterval := interval s.par s.sig.cpsIn s.ctl.habs } }

/-! ## The thread scheduler port: parking and resuming, what stands for trap entry and return (R248, R249) -/

/-- `Sched.getWaitId(t, cat)` (R253): the key, or 0. -/
def waitId (W : Scheduler) (t cat : Nat) : Nat :=
  match cellsGet W.waits t with
  | some r => if r.category = cat then r.key else 0
  | none   => 0

/-- `Sched.getWaitValue(t)` (R254); asked only of a thread that is parked. -/
def waitValue (W : Scheduler) (t : Nat) : U32 :=
  match cellsGet W.waits t with
  | some r => r.payload
  | none   => 0#32

/-- `Sched.resumeThread(t, v)` on the scheduler's state (R254). -/
def resumeThread (W : Scheduler) (t : Nat) (v : U32) : Scheduler where
  waits := cellsErase W.waits t
  delivered := cellsPut W.delivered t v

/-- The park of ENQ (R164, R248, R252), the one event that takes control from a guest thread: the wait entry is
appended to `ch[c].waiting`, then the calling thread is parked on (WAIT_AUDIO, c + 1) with its return value as
payload and no timeout. -/
def park (c : Nat) (remaining : Int) (payload : U32) (s : State) : State :=
  let t := s.sig.currentThread
  let k := getCh s c
  let s := setCh s c { k with waiting := k.waiting ++ [{ thread := t, remaining := remaining }] }
  addCall (.park t s.par.waitAudio (c + 1) payload false)
    { s with sched := { s.sched with
        waits := cellsPut s.sched.waits t { category := s.par.waitAudio, key := c + 1, payload := payload } } }

/-- The `step` of WakeThreads (R180): frames drained, or `+inf`. -/
inductive WakeStep where
  | frames (n : Nat)
  | infinity
deriving DecidableEq, Repr

/-- `e.remaining - step <= 0` (R181). -/
def WakeStep.reached (step : WakeStep) (remaining : Int) : Bool :=
  match step with
  | .frames n => remaining - n ≤ 0
  | .infinity => true

/-- `e.remaining - step` of an entry that stays (R181); with `+inf` none stays. -/
def WakeStep.left (step : WakeStep) (remaining : Int) : Int :=
  match step with
  | .frames n => remaining - n
  | .infinity => remaining

/-- What a resumed thread receives (R181): its payload for `result == 0`, else ERR_NOT_RESERVED. -/
def resumeValue (P : Params) (result : U32) (W : Scheduler) (t : Nat) : U32 :=
  if result = 0#32 then waitValue W t else P.errNotReserved

/-- The loop of WakeThreads (R181) over the wait list of channel `c`: the entries that stay, the scheduler after
it, and the resume calls in order. -/
def wakeList (P : Params) (c : Nat) (result : U32) (step : WakeStep) :
    List WaitEntry → Scheduler → List WaitEntry × Scheduler × List Call
  | [], W => ([], W, [])
  | e :: es, W =>
    if waitId W e.thread P.waitAudio = c + 1 then
      if step.reached e.remaining then
        let v := resumeValue P result W e.thread
        let r := wakeList P c result step es (resumeThread W e.thread v)
        (r.1, r.2.1, .resume e.thread v :: r.2.2)
      else
        let r := wakeList P c result step es W
        ({ e with remaining := step.left e.remaining } :: r.1, r.2.1, r.2.2)
    else wakeList P c result step es W

/-- The calls of one WakeThreads pass (R181, R255): the resumes, then one reschedule if there was any. -/
def wakeCalls (resumes : List Call) : List Call :=
  if resumes.isEmpty then [] else resumes ++ [.reschedule]

/-- `WakeThreads(c, result, step)` (R180, R181). -/
def wakeThreads (c : Nat) (result : U32) (step : WakeStep) (s : State) : State :=
  let k := getCh s c
  let r := wakeList s.par c result step k.waiting s.sched
  { setCh s c { k with waiting := r.1 } with
    sched := r.2.1
    calls := s.calls ++ wakeCalls r.2.2 }

/-- The nine assignments of `ChannelReset(c)` (R222) on a channel record; storage is left as it is (R125). -/
def resetChannel (k : Channel) : Channel where
  reserved := false
  format := .stereo
  sampleAddress := 0#32
  sampleCount := 0#32
  leftVolume := 0#17
  rightVolume := 0#17
  queue := ringClear k.queue
  waiting := []

/-- `ChannelReset(c)` (R222). -/
def channelReset (c : Nat) (s : State) : State := setCh s c (resetChannel (getCh s c))

/-- `ChannelClear(c)` (R148): force-wake with ERR_NOT_RESERVED, then the assignments of ChannelReset. -/
def channelClear (c : Nat) (s : State) : State :=
  channelReset c (wakeThreads c s.par.errNotReserved .infinity s)

/-! ## The host buffer -/

/-- `HostWrite(i, vs[i])` for `i` from 0 (R67): the elements after them keep what they held (R202). The host
promises a buffer long enough; a shorter list is a buffer whose further elements are not listed (log 14). -/
def hostWrites (vs : List S16) (s : State) : State :=
  addCall (.hostWrite vs) { s with sig := { s.sig with hostBuf := vs ++ s.sig.hostBuf.drop vs.length } }

/-! ## Snapshots -/

/-- The snapshot of R215. Dead storage is saved as it is, which R216 allows (log 15). -/
def snapshotOf (s : State) : Snapshot where
  nch := s.par.nch
  cqCap := s.par.cqCap
  oqCap := s.par.oqCap
  channels := s.chs
  outq := s.outq

/-- The constants of a snapshot are this block's (R218, R219). -/
def Snapshot.compatible (x : Snapshot) (P : Params) : Bool :=
  x.nch == P.nch && x.cqCap == P.cqCap && x.oqCap == P.oqCap

/-- A channel record SAVE could produce (R218): ring invariant, whole frames, legal gains. -/
def channelWf (cap : Nat) (k : Channel) : Bool :=
  ringWf cap k.queue && ringEven k.queue && k.leftVolume.toNat ≤ volMax && k.rightVolume.toNat ≤ volMax

/-- A record SAVE could produce (R218), for one with this block's constants. -/
def Snapshot.wf (x : Snapshot) (P : Params) : Bool :=
  x.channels.length == P.nch && x.channels.all (channelWf P.cqCap)
    && ringWf P.oqCap x.outq && ringEven x.outq

/-! ## Free values (log 4) -/

/-- An unspecified channel record (R38, R219). -/
def freeChannel (k cap c : Nat) : Channel where
  reserved := Config.freeNat k (.reserved c) % 2 == 1
  format := if Config.freeNat k (.format c) % 2 = 1 then .mono else .stereo
  sampleAddress := BitVec.ofNat 32 (Config.freeNat k (.sampleAddress c))
  sampleCount := BitVec.ofNat 32 (Config.freeNat k (.sampleCount c))
  leftVolume := BitVec.ofNat 17 (Config.freeNat k (.leftVolume c))
  rightVolume := BitVec.ofNat 17 (Config.freeNat k (.rightVolume c))
  queue := {
    storage := (List.range cap).map fun i => BitVec.ofNat 16 (Config.freeNat k (.queueStorage c i))
    head := Config.freeNat k (.queueHead c)
    tail := Config.freeNat k (.queueTail c)
    count := Config.freeNat k (.queueCount c) }
  waiting := (Config.freeWaiting k c).map fun p => { thread := p.1, remaining := p.2 }

/-- An unspecified OUTQ (R38, R219). -/
def freeOutq (k cap : Nat) : Ring where
  storage := (List.range cap).map fun i => BitVec.ofNat 16 (Config.freeNat k (.outStorage i))
  head := Config.freeNat k .outHead
  tail := Config.freeNat k .outTail
  count := Config.freeNat k .outCount

/-- Unspecified control registers (R212). -/
def freeControl (k : Nat) : Control where
  profileSel :=
    if Config.freeNat k .profileSel % 3 = 0 then .low
    else if Config.freeNat k .profileSel % 3 = 1 then .medium else .high
  hbs := Config.freeNat k .hbs
  habs := Config.freeNat k .habs
  qmaxf := Config.freeNat k .qmaxf
  qminf := Config.freeNat k .qminf
  cps := Config.freeNat k .cps
  audioInterval := Config.freeNat k .audioInterval
  hostInterval := Config.freeNat k .hostInterval
  outfreq := BitVec.ofNat 32 (Config.freeNat k .outfreq)
  evAudio := Config.freeNat k .evAudio
  evHost := Config.freeNat k .evHost

/-- `channels and OUTQ <- unspecified` (R218, R219). -/
def forgetPersisted (s : State) : State :=
  { s with
    chs := (List.range s.par.nch).map (freeChannel s.freeCtr s.par.cqCap)
    outq := freeOutq s.freeCtr s.par.oqCap
    held := false
    freeCtr := s.freeCtr + 1 }

/-- After SHUTDOWN all state but `up` is unspecified, and ACC does not exist (R212). -/
def forgetAll (s : State) : State :=
  { forgetPersisted s with
    acc := none
    ctl := freeControl s.freeCtr
    outOvf := Config.freeNat s.freeCtr .outOvf % 2 == 1 }

/-- `ACC <- a new array of 2*HBS slots, contents unspecified` (R210). -/
def allocAcc (s : State) : State :=
  { s with
    acc := some ((List.range (2 * s.ctl.hbs)).map fun i => BitVec.ofNat 32 (Config.freeNat s.freeCtr (.accSlot i)))
    freeCtr := s.freeCtr + 1 }

/-! ## What happens between commands, and the presentation of a command -/

/-- Power-on reset of the block (R280): everything the block holds is as after power-on, the collaborators and
the ports as they were (log 2, log 16). -/
def blockPowerOn (s : State) : State :=
  { s with
    up := false
    chs := List.replicate s.par.nch (Channel.powerOn s.par.cqCap)
    outq := Ring.powerOn s.par.oqCap
    acc := none
    ctl := Control.powerOn
    outOvf := false
    held := false }

/-- A thread's wait is replaced by one of another kind; the scheduler adds none of category WAIT_AUDIO except
through ENQ's park (R256), so such a move does not happen (log 10). -/
def repark (P : Params) (t : Nat) (r : WaitRecord) (W : Scheduler) : Scheduler :=
  if r.category = P.waitAudio then W else { W with waits := cellsPut W.waits t r }

/-- The command a callback presents (R259). -/
def callbackCommand : Callback → Instr
  | .tick     => .tick
  | .hostpoll => .hostpoll

/-- What the `n`-th pending occurrence calls back: what was registered under its id (R259). -/
def calledBack (e : Events) (n : Nat) : Option Callback :=
  match e.pending[n]? with
  | none   => none
  | some o => cellsGet e.callbacks o.id

/-- The scheduler's side of a firing: the occurrence is consumed (R259, R260); one that calls nothing back does not
fire (log 11). -/
def fireOccurrence (n : Nat) (e : Events) : Events :=
  match calledBack e n with
  | none   => e
  | some _ => { e with pending := e.pending.eraseIdx n }

/-- A command presented on port T by a callback, with the side signals of `p` (R95, R259). -/
def onPortT (i : Instr) (p : Signals) : Signals := { p with port := .t, word := encode i }

/-- The presentation a stimulus makes: the one it holds, or what the event scheduler calls back (R95, R259, R260). -/
def presentedBy (m : Stimulus) (e : Events) : Option Signals :=
  match m with
  | .command p          => some p
  | .fire n p           => (calledBack e n).map fun cb => onPortT (callbackCommand cb) p
  | .clockChange p      => if e.clockCallback then some (onPortT .clkchg p) else none
  | .threadLeft _       => none
  | .threadReparked _ _ => none
  | .guestStore _ _     => none
  | .guestUnmap _       => none
  | .powerOn            => none

/-- Present a command: its signals are on the port, the port's outputs are clear. -/
def present (p : Signals) (s : State) : State :=
  { s with
    sig := p
    resp := none
    snapOut := none
    calls := [] }

/-- A collaborator's own side of a stimulus: its move between two commands, or the consuming of the occurrence it
fires. -/
def environmentMove (m : Stimulus) (s : State) : State :=
  match m with
  | .command _          => s
  | .fire n _           => { s with ev := fireOccurrence n s.ev }
  | .clockChange _      => s
  | .threadLeft t       => { s with sched := { s.sched with waits := cellsErase s.sched.waits t } }
  | .threadReparked t r => { s with sched := repark s.par t r s.sched }
  | .guestStore a b     => { s with mem := storeByte s.mem a b }
  | .guestUnmap a       => { s with mem := unmapByte s.mem a }
  | .powerOn            => blockPowerOn s

/-- A word that decodes to no command is illegal on every port, whether the block is up or not (R97, R99, R100). -/
def illegalWord (s : State) : Out := respond .illegal 0#32 s

/-- The port a word is presented on when only the word is given: the one R91 names, or G where it names none
(log 7). -/
def portForWord (w : Command) : Port :=
  match decode w with
  | .ok i    => portOf i
  | .error _ => .g

/-- The presentation of a word with the signal lines as they stand (log 7). -/
def presentationOf (s : State) (w : Command) : Signals :=
  { s.sig with port := portForWord w, word := w }

end Sys2Proof.Machine
end

