-- ==== Sys2Proof/Machine/ChannelConfig.lean ====
section
/-! DEFINITION. The channel configuration commands, spec/41_channel_config.md R140 to R148. -/

namespace Sys2Proof.Machine

open Sys2Proof

/-- SETRSV ch, v (R141): `ch[CH].reserved <- (v == 1)`. -/
def execSetrsv (ch : BitVec 8) (v : Bool) (s : State) : Out :=
  checked (.setrsv ch v) (fun s =>
    respond .ok 0#32 (setCh s ch.toNat { getCh s ch.toNat with reserved := v })) s

/-- SETFMT ch, fmt (R142): `ch[CH].format <- v`. -/
def execSetfmt (ch : BitVec 8) (fmt : Format) (s : State) : Out :=
  checked (.setfmt ch fmt) (fun s =>
    respond .ok 0#32 (setCh s ch.toNat { getCh s ch.toNat with format := fmt })) s

/-- SETADDR ch, addr (R143): `ch[CH].sampleAddress <- addr`; the address is not checked. -/
def execSetaddr (ch : BitVec 8) (addr : Addr) (s : State) : Out :=
  checked (.setaddr ch addr) (fun s =>
    respond .ok 0#32 (setCh s ch.toNat { getCh s ch.toNat with sampleAddress := addr })) s

/-- SETCNT ch, n (R144): `ch[CH].sampleCount <- n`; any value is accepted here. -/
def execSetcnt (ch : BitVec 8) (n : U32) (s : State) : Out :=
  checked (.setcnt ch n) (fun s =>
    respond .ok 0#32 (setCh s ch.toNat { getCh s ch.toNat with sampleCount := n })) s

/-- SETVOLL ch, g (R145): `ch[CH].leftVolume <- g`; above 65536 the command is illegal. -/
def execSetvoll (ch : BitVec 8) (g : Gain) (s : State) : Out :=
  checked (.setvoll ch g) (fun s =>
    respond .ok 0#32 (setCh s ch.toNat { getCh s ch.toNat with leftVolume := g })) s

/-- SETVOLR ch, g (R146): `ch[CH].rightVolume <- g`; above 65536 the command is illegal. -/
def execSetvolr (ch : BitVec 8) (g : Gain) (s : State) : Out :=
  checked (.setvolr ch g) (fun s =>
    respond .ok 0#32 (setCh s ch.toNat { getCh s ch.toNat with rightVolume := g })) s

/-- CHCLR ch (R147): `ChannelClear(CH)`. -/
def execChclr (ch : BitVec 8) (s : State) : Out :=
  checked (.chclr ch) (needHeld fun s => respond .ok 0#32 (channelClear ch.toNat s)) s

end Sys2Proof.Machine
end

