-- ==== Sys2Proof/Machine/Enqueue.lean ====
section
/-! DEFINITION. ENQ, spec/42_enqueue.md R161 to R169. -/

namespace Sys2Proof.Machine

open Sys2Proof

/-- The value ENQ starts with (R162): the sample count, or 0 under the silence quirk. -/
def enqReturn (P : Params) (c : Nat) (k : Channel) : U32 :=
  if k.sampleAddress = 0#32 ∧ silenceZero P c = true then 0#32 else k.sampleCount

/-- The threshold of a blocking ENQ (R164), in stereo frames: both divisions floor, left to right. -/
def blockSamples (qminf count : Nat) : Int := ((count / 2 / qminf : Nat) : Int)

/-- The end of ENQ (R165 to R167): nothing to copy for a silence-only call; else the room test, the scaled samples
and their push; then the response with `ret` and `RESP.parked`. -/
def enqData (c : Nat) (ret : U32) (parked : Bool) (s : State) : Out :=
  let k := getCh s c
  if k.sampleAddress = 0#32 then .next (answer .ok parked ret s)
  else if ringFree s.par.cqCap k.queue < 2 * k.sampleCount.toNat then .fault (.cqOverflow s.calls)
  else
    match scaledSamples s.mem k with
    | .error a => .fault (.mem a s.calls)
    | .ok vs =>
      match pushN s.par.cqCap k.queue vs with
      | .error _ => .fault (.ringOverflow s.calls)
      | .ok q    => .next (answer .ok parked ret (setCh s c { k with queue := q }))

/-- ENQ after the checks (R161): busy, park or cannot-wait on a non-empty queue (R163, R164), then the data path. -/
def enqBody (c : Nat) (blocking : Bool) (s : State) : Out :=
  let k := getCh s c
  let ret := enqReturn s.par c k
  if k.queue.count = 0 then enqData c ret false s
  else if blocking = false then respond .ok s.par.errBusy s
  else if s.sig.dispatchEnabled then
    enqData c ret true (park c (blockSamples s.ctl.qminf k.queue.count) ret s)
  else enqData c s.par.errCannotWait false s

/-- ENQ ch and ENQ ch, B (R161). -/
def execEnq (ch : BitVec 8) (blocking : Bool) (s : State) : Out :=
  checked (.enq ch blocking) (needHeld (enqBody ch.toNat blocking)) s

end Sys2Proof.Machine
end

