-- ==== Sys2Proof/Machine/HostPull.lean ====
section
/-! DEFINITION. PULL, spec/44_host_pull.md R200 to R203. -/

namespace Sys2Proof.Machine

open Sys2Proof

/-- PULL after the checks (R201): the oldest `min(count, 2 * numFrames)` elements go to the host buffer; the value is
the number of whole frames written (R201, 90_conflicts C3). -/
def pullBody (numFrames : U32) (s : State) : Out :=
  let n := min s.outq.count (2 * numFrames.toNat)
  match popN s.par.oqCap s.outq n with
  | .error _    => .fault (.ringUnderflow s.calls)
  | .ok (vs, q) => respond .ok (BitVec.ofNat 32 (n / 2)) (hostWrites vs { s with outq := q })

/-- PULL numFrames (R200). While a lifecycle command of the other domain runs it is `Fault(RACE)` (R76), a check of
the command's own and so after ST_ILLEGAL and ST_DOWN (R247; DEDUCED, log 8). -/
def execPull (numFrames : U32) (s : State) : Out :=
  checked (.pull numFrames) (fun s =>
    if s.sig.during.isSome then .fault (.race s.calls) else needHeld (pullBody numFrames) s) s

end Sys2Proof.Machine
end

