-- ==== Sys2Proof/Machine/Lifecycle.lean ====
section
/-! DEFINITION. The lifecycle commands, spec/45_lifecycle.md R210 to R224. -/

namespace Sys2Proof.Machine

open Sys2Proof

/-- `PROFILE_SEL` and the four values of the profile (R210, R211). -/
def selectProfile (p : Profile) (s : State) : State :=
  let v := s.par.profile p
  { s with ctl := { s.ctl with profileSel := p, hbs := v.hbs, habs := v.habs, qmaxf := v.qmaxf, qminf := v.qminf } }

/-- The first half of INIT (R210): profile, clock and intervals, both events registered and scheduled one full
interval ahead, the clock-change callback registered. -/
def initEvents (p : Profile) (s : State) : State :=
  let s := registerClockChange (registerEvents (deriveIntervals (selectProfile p s)))
  let s := evSchedule s.ctl.audioInterval s.ctl.evAudio s
  evSchedule s.ctl.hostInterval s.ctl.evHost s

/-- The end of INIT (R210), the channels being reset: ACC, OUTQ's cursors, OUT_OVF, `up`. Channels and OUTQ hold
values from here on (R38). -/
def initFinish (s : State) : Out :=
  let s := allocAcc s
  let s := clearOutOvf { s with outq := ringClear s.outq }
  respond .ok 0#32 { s with up := true, held := true }

/-- INIT after the checks (R210): from up, every channel is cleared, which reads its wait list (R219); from down,
reset (R222). -/
def initBody (p : Profile) (s : State) : Out :=
  let s := initEvents p s
  if s.up then needHeld (fun s => initFinish (forChannels channelClear s)) s
  else initFinish (forChannels channelReset s)

/-- INIT profile (R210). Profile 3 is illegal (R97 (e)). -/
def execInit (p : BitVec 2) (s : State) : Out :=
  checked (.init p) (fun s =>
    match profileOf p with
    | none   => illegalWord s
    | some v => initBody v s) s

/-- SHUTDOWN (R212): every channel is cleared, ACC released; after it all state but `up` is unspecified. -/
def execShutdown (s : State) : Out :=
  checked .shutdown (needHeld fun s =>
    respond .ok 0#32 { forgetAll (forChannels channelClear s) with up := false }) s

/-- CLKCHG (R213): the clock and both intervals; pending occurrences keep their time. -/
def execClkchg (s : State) : Out :=
  checked .clkchg (fun s => respond .ok 0#32 (deriveIntervals s)) s

/-- SETFREQ freq (R214): `OUTFREQ <- freq`. -/
def execSetfreq (freq : U32) (s : State) : Out :=
  checked (.setfreq freq) (fun s => respond .ok 0#32 { s with ctl := { s.ctl with outfreq := freq } }) s

/-- SAVE (R216): `SNAP_OUT` is the snapshot of the current state. -/
def execSave (s : State) : Out :=
  checked .save (needHeld fun s => respond .ok 0#32 { s with snapOut := some (snapshotOf s) }) s

/-- LOAD after the checks (R218, R219, R221). -/
def loadBody (s : State) : Out :=
  let x := s.sig.snapIn
  if x.compatible s.par = false then respond .incompat 0#32 (forgetPersisted s)
  else if x.wf s.par = false then .fault (.badSnapshot s.calls)
  else respond .ok 0#32 (registerEvents { s with chs := x.channels, outq := x.outq, held := true })

/-- LOAD (R218). -/
def execLoad (s : State) : Out := checked .load loadBody s

/-- RDSTAT (R224): the value is `STATUS`; the flag is not cleared. -/
def execRdstat (s : State) : Out :=
  checked .rdstat (fun s => respond .ok (statusWord s) s) s

end Sys2Proof.Machine
end

