-- ==== Sys2Proof/Machine/Timer.lean ====
section
/-! DEFINITION. The commands of the periodic events, spec/43_mix_tick.md R182 to R189. -/

namespace Sys2Proof.Machine

open Sys2Proof

/-- Every slot of ACC is zeroed (R183). -/
def zeroAcc (s : State) : State := { s with acc := some (List.replicate (2 * s.ctl.hbs) 0#32) }

/-- The elements `vs` popped from a channel are added into ACC from slot 0 up (R184). -/
def addToAcc (vs : List S16) (s : State) : State := { s with acc := s.acc.map (addInto vs) }

/-- One channel of a tick (R184): passed over unless reserved; else the wake, then the pop of up to `2 * HBS`
elements, added into ACC slot by slot. -/
def mixChannel (c : Nat) (s : State) : Out :=
  if (getCh s c).reserved = false then .next s
  else
    let s := wakeThreads c 0#32 (.frames s.ctl.hbs) s
    let k := getCh s c
    if k.queue.count = 0 then .next s
    else
      match popN s.par.cqCap k.queue (min k.queue.count (2 * s.ctl.hbs)) with
      | .error _    => .fault (.ringUnderflow s.calls)
      | .ok (vs, q) => .next (addToAcc vs (setCh s c { k with queue := q }))

/-- The channels of a tick in the order given; TICK takes them ascending (R184, R185). -/
def mixChannels : List Nat → State → Out
  | [], s => .next s
  | c :: cs, s => andThen (mixChannel c s) (mixChannels cs)

/-- The clamped block of a tick (R186). -/
def mixBlock (s : State) : List S16 := (s.acc.getD []).map clampSlot

/-- The block goes into OUTQ whole, or is dropped whole with OUT_OVF set (R186). -/
def pushBlock (s : State) : Out :=
  if 2 * s.ctl.hbs ≤ ringFree s.par.oqCap s.outq then
    match pushN s.par.oqCap s.outq (mixBlock s) with
    | .error _ => .fault (.ringOverflow s.calls)
    | .ok q    => respond .ok 0#32 { s with outq := q }
  else respond .ok 0#32 (setOutOvf s)

/-- TICK after the checks (R182): the event is rescheduled first. -/
def tickBody (s : State) : Out :=
  needHeld (fun s => andThen (mixChannels (List.range s.par.nch) s) pushBlock)
    (zeroAcc (evSchedule ((s.ctl.audioInterval : Int) - s.sig.lateIn) s.ctl.evAudio s))

/-- TICK (R182). -/
def execTick (s : State) : Out := checked .tick tickBody s

/-- HOSTPOLL (R189): reschedule, then poll the host's device once. -/
def execHostpoll (s : State) : Out :=
  checked .hostpoll (fun s =>
    respond .ok 0#32 (addCall .pollDevice
      (evSchedule ((s.ctl.hostInterval : Int) - s.sig.lateIn) s.ctl.evHost s))) s

end Sys2Proof.Machine
end

