-- ==== Sys2Proof/Machine/Dispatch.lean ====
section
/-! DEFINITION. One arm per command of spec/30_encoding.md R91. -/

namespace Sys2Proof.Machine

open Sys2Proof

def exec (i : Instr) (s : State) : Host.Outcome State Fault Refusal :=
  match i with
  | .init p => Sys2Proof.Machine.execInit p s
  | .shutdown => Sys2Proof.Machine.execShutdown s
  | .clkchg => Sys2Proof.Machine.execClkchg s
  | .setfreq freq => Sys2Proof.Machine.execSetfreq freq s
  | .save => Sys2Proof.Machine.execSave s
  | .load => Sys2Proof.Machine.execLoad s
  | .rdstat => Sys2Proof.Machine.execRdstat s
  | .setrsv ch v => Sys2Proof.Machine.execSetrsv ch v s
  | .setfmt ch fmt => Sys2Proof.Machine.execSetfmt ch fmt s
  | .setaddr ch addr => Sys2Proof.Machine.execSetaddr ch addr s
  | .setcnt ch n => Sys2Proof.Machine.execSetcnt ch n s
  | .setvoll ch g => Sys2Proof.Machine.execSetvoll ch g s
  | .setvolr ch g => Sys2Proof.Machine.execSetvolr ch g s
  | .enq ch blocking => Sys2Proof.Machine.execEnq ch blocking s
  | .chclr ch => Sys2Proof.Machine.execChclr ch s
  | .tick => Sys2Proof.Machine.execTick s
  | .hostpoll => Sys2Proof.Machine.execHostpoll s
  | .pull n => Sys2Proof.Machine.execPull n s

end Sys2Proof.Machine
end

