-- ==== Sys2Proof/Machine/Step.lean ====
section
/-! DEFINITION. One step of the machine (spec/00_scope.md R11, spec/30_encoding.md R95): take what the environment
does next. The command it presents, if any, is decoded and run as one indivisible step; with nothing presented nothing
happens (log 5). -/

namespace Sys2Proof.Machine

open Sys2Proof

def step (s : State) : Host.Outcome State Fault Refusal :=
  match s.queue with
  | [] => .next s
  | m :: rest =>
    let t := environmentMove m { s with queue := rest }
    match presentedBy m s.ev with
    | none   => .next t
    | some p =>
      match decode p.word with
      | .ok i    => exec i (present p t)
      | .error _ => illegalWord (present p t)

/-- Present the word `w` as the very next thing the block runs (log 5, log 7): on the port R91 names for it, with
the signal lines as `s` has them. -/
def State.withFetchWord (s : State) (nbits w : Nat) : State :=
  { s with queue := .command (presentationOf s (BitVec.ofNat 64 (w % 2 ^ nbits))) :: s.queue }

end Sys2Proof.Machine
end

