-- ==== Sys2Proof/Safety.lean ====
section
/-! DEFINITION. What claims about the block are stated in: the invariant of reachable states, faultless steps and runs
(spec/60_exceptions.md R244, spec/70_reset_and_hazards.md R297), and guest memory as a guest sees it. -/

namespace Sys2Proof.Machine

open Sys2Proof

/-- What holds of every state a run reaches: the parameters meet R6; there are NCH channels whose rings, like OUTQ,
have their capacity (R20, R120); while the channels and OUTQ hold values their rings satisfy R120, move whole
frames (R26) and the gains are legal (R21); ACC exists exactly while the block is up, with `2 * HBS` slots (R28,
R30); while up, the control registers are those of the selected profile and clock (R31 to R33) and both events are
registered under their names with the ids held (R35), which call TICK and HOSTPOLL back (R259; under one id for both
names the last registration stands, log 11); and every list of cells is in its canonical form. -/
structure State.Inv (s : State) : Prop where
  params      : s.par.wf = true
  channels    : s.chs.length = s.par.nch
  storage     : ∀ k ∈ s.chs, k.queue.storage.length = s.par.cqCap
  outStorage  : s.outq.storage.length = s.par.oqCap
  heldChannel : s.held = true → ∀ k ∈ s.chs, channelWf s.par.cqCap k = true
  heldOut     : s.held = true → ringWf s.par.oqCap s.outq = true ∧ ringEven s.outq = true
  accDown     : s.up = false → s.acc = none
  accUp       : s.up = true → ∃ a, s.acc = some a ∧ a.length = 2 * s.ctl.hbs
  profile     : s.up = true →
    s.ctl.hbs = (s.par.profile s.ctl.profileSel).hbs ∧ s.ctl.habs = (s.par.profile s.ctl.profileSel).habs
      ∧ s.ctl.qmaxf = (s.par.profile s.ctl.profileSel).qmaxf ∧ s.ctl.qminf = (s.par.profile s.ctl.profileSel).qminf
  intervals   : s.up = true →
    s.ctl.audioInterval = interval s.par s.ctl.cps s.ctl.hbs
      ∧ s.ctl.hostInterval = interval s.par s.ctl.cps s.ctl.habs
  events      : s.up = true →
    cellsGet s.ev.registered s.par.evnameAudio = some s.ctl.evAudio
      ∧ cellsGet s.ev.registered s.par.evnameHost = some s.ctl.evHost
      ∧ s.ev.clockCallback = true
      ∧ cellsGet s.ev.callbacks s.ctl.evHost = some .hostpoll
      ∧ (s.ctl.evAudio ≠ s.ctl.evHost → cellsGet s.ev.callbacks s.ctl.evAudio = some .tick)
  memory      : Memory.wf s.mem = true
  waits       : cellsSorted s.sched.waits
  delivered   : cellsSorted s.sched.delivered
  registered  : cellsSorted s.ev.registered
  callbacks   : cellsSorted s.ev.callbacks

/-- The next step does not fault (R244). -/
def State.Safe (s : State) : Prop := ∀ r, step s ≠ .fault r

/-- `s` comes to `t` in `n` steps none of which faulted: a well-formed run (R297). -/
def RunsTo (n : Nat) (s t : State) : Prop := Host.Core.run core n s = .next t

/-- The value the two bytes at `a` and `a + 1` make (R62), an unlisted byte counting as 0. -/
def sampleAt (m : Memory) (a : Addr) : S16 :=
  ((byteAt m (a + 1#32)).getD 0#8) ++ ((byteAt m a).getD 0#8)

/-- The memory collaborator admits the `n` bytes from `a` upward, mod 2^32 (R61, R66). -/
def admitted (m : Memory) (a : Addr) (n : Nat) : Prop :=
  ∀ i, i < n → byteAt m (a + BitVec.ofNat 32 i) ≠ none

/-- How many bytes of guest memory an ENQ reads (R65). -/
def bytesRead (k : Channel) : Nat :=
  match k.format with
  | .stereo => 4 * k.sampleCount.toNat
  | .mono   => 2 * k.sampleCount.toNat

/-- The elements of R166, written as the rule writes them: element `2*i` and `2*i + 1` for `i` in `0..N-1`. -/
def specSamples (m : Memory) (k : Channel) : List S16 :=
  (List.range k.sampleCount.toNat).flatMap fun i =>
    match k.format with
    | .stereo =>
      [adjustVolume (sampleAt m (k.sampleAddress + BitVec.ofNat 32 (4 * i))) (gainOf k.leftVolume),
       adjustVolume (sampleAt m (k.sampleAddress + BitVec.ofNat 32 (4 * i + 2))) (gainOf k.rightVolume)]
    | .mono =>
      [adjustVolume (sampleAt m (k.sampleAddress + BitVec.ofNat 32 (2 * i))) (gainOf k.leftVolume),
       adjustVolume (sampleAt m (k.sampleAddress + BitVec.ofNat 32 (2 * i))) (gainOf k.rightVolume)]

/-! ## The words claims are written in -/

/-- The command is legal where it is presented (R97): its own port, a legal operand, a channel that exists. -/
def Accepted (i : Instr) (s : State) : Prop :=
  s.sig.port = portOf i ∧ i.wellFormed = true ∧ ∀ ch, channelOf i = some ch → ch.toNat ≤ s.par.chMax

/-- A legal command, the block up: what every command's own rule starts from (R97 to R99). -/
def Ready (i : Instr) (s : State) : Prop := Accepted i s ∧ s.up = true

/-- The thread is parked on the wait of channel `c` (R181 (a)). -/
def ParkedHere (P : Params) (W : Scheduler) (c t : Nat) : Prop := waitId W t P.waitAudio = c + 1

/-- Thread `t` has an entry in the wait list of channel `c` and is parked on it. -/
def Waits (s : State) (c t : Nat) : Prop :=
  (∃ e ∈ (getCh s c).waiting, e.thread = t) ∧ ParkedHere s.par s.sched c t

/-- What a channel clear delivers to a waiter `u` (R148, R181): ERR_NOT_RESERVED. R181 tells a clear from a drain by
`result == 0`, so with a code of 0, which R6 does not exclude, it is the thread's own payload (log 22). -/
def clearCode (s : State) (u : Nat) : U32 :=
  if s.par.errNotReserved = 0#32 then waitValue s.sched u else s.par.errNotReserved

/-- From `s` to `t` every thread for which `who` holds was resumed with the code of a channel clear and waits no
longer, and nobody else was touched: the force-wake of R148. -/
def ForceWoken (who : Nat → Prop) (s t : State) : Prop :=
  ∀ u, (who u → cellsGet t.sched.waits u = none ∧ cellsGet t.sched.delivered u = some (clearCode s u))
    ∧ (¬ who u → cellsGet t.sched.waits u = cellsGet s.sched.waits u
        ∧ cellsGet t.sched.delivered u = cellsGet s.sched.delivered u)

/-- A tick resumes thread `u` at channel `c` (R181, R184): the channel is reserved, the thread is parked on its wait,
and an entry of its list is for the thread and has no more than HBS frames left. -/
def DueOn (s : State) (c u : Nat) : Prop :=
  (getCh s c).reserved = true ∧ ParkedHere s.par s.sched c u
    ∧ ∃ e ∈ (getCh s c).waiting, e.thread = u ∧ e.remaining - s.ctl.hbs ≤ 0

/-- A tick resumes thread `u`. -/
def DueAtTick (s : State) (u : Nat) : Prop := ∃ c, c < s.par.nch ∧ DueOn s c u

/-- The calls of a tick's wake of channel `c` (R181, R184): what one pass of step HBS over its list resumes, then one
reschedule if it resumed anyone. -/
def tickWakeCalls (s : State) (c : Nat) : List Call :=
  if (getCh s c).reserved then wakeCalls (wakeList s.par c 0#32 (.frames s.ctl.hbs) (getCh s c).waiting s.sched).2.2
  else []

/-- The calls of all wakes of a tick, channels ascending (R185). -/
def callsOfTickWakes (s : State) : List Call := (List.range s.par.nch).flatMap (tickWakeCalls s)

/-- `m_c` of R187: how many elements a tick pops from channel `c`. -/
def poppedCount (s : State) (c : Nat) : Nat := min (getCh s c).queue.count (2 * s.ctl.hbs)

/-- The sum of R187 for slot `i`: over the reserved channels `c` with `i < m_c`, of the i-th oldest element. -/
def mixSum (s : State) (i : Nat) : Int :=
  ((List.range s.par.nch).map fun c =>
    if (getCh s c).reserved = true ∧ i < poppedCount s c then
      ((ringContents s.par.cqCap (getCh s c).queue).getD i 0#16).toInt
    else 0).sum

/-- The block of a tick (R187). -/
def mixedBlock (s : State) : List S16 :=
  (List.range (2 * s.ctl.hbs)).map fun i => BitVec.ofInt 16 (clamp16 (mixSum s i))

/-- What a tick does to the channels' queues (R184): a reserved channel loses its `m_c` oldest elements, a channel
that is not reserved is passed over entirely. -/
def Drained (s t : State) : Prop :=
  ∀ c, c < s.par.nch →
    ((getCh s c).reserved = true →
      ringContents s.par.cqCap (getCh t c).queue
        = (ringContents s.par.cqCap (getCh s c).queue).drop (poppedCount s c))
    ∧ ((getCh s c).reserved = false → getCh t c = getCh s c)

/-- The channel registers of R21, everything of a channel but its queue and its wait list. -/
def SameRegisters (k k' : Channel) : Prop := k' = { k with queue := k'.queue, waiting := k'.waiting }

/-- A sequence of ring operations (R127). -/
inductive RingOp where
  | push (vs : List S16)
  | pop  (n : Nat)
deriving DecidableEq, Repr

/-- Run a sequence of ring operations that never faults: the ring after it, all that was pushed and all that was
popped, each concatenated in order (R127). -/
def runRing (cap : Nat) : List RingOp → Ring → Option (Ring × List S16 × List S16)
  | [], q => some (q, [], [])
  | .push vs :: ops, q =>
    match pushN cap q vs with
    | .error _ => none
    | .ok q'   => (runRing cap ops q').map fun r => (r.1, vs ++ r.2.1, r.2.2)
  | .pop n :: ops, q =>
    match popN cap q n with
    | .error _     => none
    | .ok (vs, q') => (runRing cap ops q').map fun r => (r.1, r.2.1, vs ++ r.2.2)

end Sys2Proof.Machine
end

