-- ==== Sys2Proof/Certificates/Slice0/Obligations.lean ====
section
/-! DEFINITION. The statements about the block, for the provers. Each docstring names the rule of spec/ it rests on.
Equations of the form `exec i s = .next t` are completion statements, result statements and frames at once: every
field not named in `t` is as in `s`. -/

namespace Sys2Proof.Machine

open Sys2Proof

/-- The mnemonic of each command (R91). -/
def mnemonicOf : Instr → String
  | .init _      => "INIT"
  | .shutdown    => "SHUTDOWN"
  | .clkchg      => "CLKCHG"
  | .setfreq _   => "SETFREQ"
  | .save        => "SAVE"
  | .load        => "LOAD"
  | .rdstat      => "RDSTAT"
  | .setrsv _ _  => "SETRSV"
  | .setfmt _ _  => "SETFMT"
  | .setaddr _ _ => "SETADDR"
  | .setcnt _ _  => "SETCNT"
  | .setvoll _ _ => "SETVOLL"
  | .setvolr _ _ => "SETVOLR"
  | .enq _ _     => "ENQ"
  | .chclr _     => "CHCLR"
  | .tick        => "TICK"
  | .hostpoll    => "HOSTPOLL"
  | .pull _      => "PULL"

/-- The table of R101: mnemonic, match, mask. -/
def matchMaskTable : List (String × Command × Command) :=
  [("INIT",     0x0100000000000000#64, 0xFFFFFFFFFFFFFFFC#64),
   ("SHUTDOWN", 0x0200000000000000#64, 0xFFFFFFFFFFFFFFFF#64),
   ("CLKCHG",   0x0300000000000000#64, 0xFFFFFFFFFFFFFFFF#64),
   ("SETFREQ",  0x0400000000000000#64, 0xFFFFFFFF00000000#64),
   ("SAVE",     0x0500000000000000#64, 0xFFFFFFFFFFFFFFFF#64),
   ("LOAD",     0x0600000000000000#64, 0xFFFFFFFFFFFFFFFF#64),
   ("RDSTAT",   0x0700000000000000#64, 0xFFFFFFFFFFFFFFFF#64),
   ("SETRSV",   0x1000000000000000#64, 0xFF00FFFFFFFFFFFE#64),
   ("SETFMT",   0x1100000000000000#64, 0xFF00FFFFFFFFFFFE#64),
   ("SETADDR",  0x1200000000000000#64, 0xFF00FFFF00000000#64),
   ("SETCNT",   0x1300000000000000#64, 0xFF00FFFF00000000#64),
   ("SETVOLL",  0x1400000000000000#64, 0xFF00FFFFFFFE0000#64),
   ("SETVOLR",  0x1500000000000000#64, 0xFF00FFFFFFFE0000#64),
   ("ENQ",      0x1800000000000000#64, 0xFF00FEFFFFFFFFFF#64),
   ("CHCLR",    0x1900000000000000#64, 0xFF00FFFFFFFFFFFF#64),
   ("TICK",     0x2000000000000000#64, 0xFFFFFFFFFFFFFFFF#64),
   ("HOSTPOLL", 0x2100000000000000#64, 0xFFFFFFFFFFFFFFFF#64),
   ("PULL",     0x3000000000000000#64, 0xFFFFFFFF00000000#64)]

/-- `respond(ST_OK, v)` (R96): the response of a command that ran. -/
def okResponse (v : U32) : Option Response := some { status := .ok, parked := false, value := v }

/-- What a response of a legal or illegal command turned away holds (R97, R98). -/
def turnedAway (st : Status) : Option Response := some { status := st, parked := false, value := 0#32 }

/-- The same state with another OUTFREQ. -/
def withOutfreq (f : U32) (s : State) : State := { s with ctl := { s.ctl with outfreq := f } }

/-- The control registers INIT leaves (R210, R211, R257, R258): OUTFREQ stays (R34). -/
def controlAfterInit (s : State) (p : Profile) : Control where
  profileSel := p
  hbs := (s.par.profile p).hbs
  habs := (s.par.profile p).habs
  qmaxf := (s.par.profile p).qmaxf
  qminf := (s.par.profile p).qminf
  cps := s.sig.cpsIn
  audioInterval := s.sig.cpsIn * (s.par.profile p).hbs / s.par.hwRate
  hostInterval := s.sig.cpsIn * (s.par.profile p).habs / s.par.hwRate
  outfreq := s.ctl.outfreq
  evAudio := s.sig.evIdAudio
  evHost := s.sig.evIdHost

/-- The event scheduler after INIT (R210, R259): both events registered by name and scheduled one interval ahead. -/
def eventsAfterInit (s : State) (p : Profile) : Events where
  registered := cellsPut (cellsPut s.ev.registered s.par.evnameAudio s.sig.evIdAudio) s.par.evnameHost s.sig.evIdHost
  callbacks := cellsPut (cellsPut s.ev.callbacks s.sig.evIdAudio .tick) s.sig.evIdHost .hostpoll
  clockCallback := true
  pending := s.ev.pending
    ++ [{ delay := (controlAfterInit s p).audioInterval, id := s.sig.evIdAudio, userdata := 0 }]
    ++ [{ delay := (controlAfterInit s p).hostInterval, id := s.sig.evIdHost, userdata := 0 }]

/-- The signals of a command that a callback presents on port T (R95, R259): `p` gives the side signals, LATE_IN among
them. -/
def calledOnPortT (i : Instr) (p : Signals) : Signals := { p with port := .t, word := encode i }

/-- The state a command runs in: its presentation's signals on the port, the port's outputs clear, `rest` still to
come (R95, R104). -/
def presented (p : Signals) (rest : List Stimulus) (s : State) : State :=
  { s with queue := rest, sig := p, resp := none, snapOut := none, calls := [] }

/-- The state after the `n`-th pending occurrence was taken from the event scheduler's list. -/
def withoutOccurrence (n : Nat) (s : State) : State :=
  { s with ev := { s.ev with pending := s.ev.pending.eraseIdx n } }

/-- The calls INIT makes before it touches the channels (R210). -/
def callsOfInit (s : State) (p : Profile) : List Call :=
  [.registerEvent s.par.evnameAudio .tick s.sig.evIdAudio, .registerEvent s.par.evnameHost .hostpoll s.sig.evIdHost,
   .registerClockChange, .schedule (controlAfterInit s p).audioInterval s.sig.evIdAudio 0,
   .schedule (controlAfterInit s p).hostInterval s.sig.evIdHost 0]

end Sys2Proof.Machine

open Sys2Proof Sys2Proof.Machine

/-! ## Encoding -/

/-- R90, R91, R94: no operand bit of any command is dropped, read through the decoder and through
`decodeTableWord`. -/
def Obligations.DecodeOfEncodeIsIdentity : Prop :=
  ∀ i : Instr, decode (encode i) = .ok i ∧ decodeTableWord 64 (encode i).toNat = some i

/-- R90, R91, R94: a word has one reading, and only the encoder's word has it. -/
def Obligations.EncodeOfDecodeIsIdentity : Prop :=
  ∀ (w : Command) (i : Instr), decode w = .ok i → encode i = w

/-- R101 with its table and its worked example. -/
def Obligations.DecodeIsMatchAndMask : Prop :=
  (∀ row ∈ matchMaskTable, ∀ w : Command,
    (∃ i, decode w = .ok i ∧ mnemonicOf i = row.1) ↔ w &&& row.2.2 = row.2.1)
  ∧ (∀ (w : Command) (i : Instr), decode w = .ok i → ∃ row ∈ matchMaskTable, mnemonicOf i = row.1)
  ∧ decode 0x1803010000000000#64 = .ok (.enq 3#8 true)

/-- Words written out bit by bit in 41_channel_config.md R141 to R147, 42_enqueue.md R161, 43_mix_tick.md R182, R189,
44_host_pull.md R200, 45_lifecycle.md R210 to R224. -/
def Obligations.WrittenOutWordsDecode : Prop :=
  decode 0x0100000000000001#64 = .ok (.init 1#2)
  ∧ decode 0x040000000000AC44#64 = .ok (.setfreq 44100#32)
  ∧ decode 0x1102000000000001#64 = .ok (.setfmt 2#8 .mono)
  ∧ decode 0x1200000008800000#64 = .ok (.setaddr 0#8 0x08800000#32)
  ∧ decode 0x1500000000008000#64 = .ok (.setvolr 0#8 32768#17)
  ∧ decode 0x1800010000000000#64 = .ok (.enq 0#8 true)
  ∧ decode 0x1900000000000000#64 = .ok (.chclr 0#8)
  ∧ decode 0x2000000000000000#64 = .ok .tick
  ∧ decode 0x3000000000000040#64 = .ok (.pull 64#32)

/-! ## The step, and commands turned away -/

/-- R11, R95, R104, R259, R260: a step runs the command that is presented, on the presented signals; what the step adds
around exec is only the presentation. A pending occurrence that fires is consumed, and the command its id was
registered to call back is presented on port T; one that calls nothing back does not fire (log 11). So an occurrence
of EV_AUDIO is a TICK on port T and nothing else (of two names under one id the last registration stands, log 11),
one of EV_HOST a HOSTPOLL, and a clock change a CLKCHG. -/
def Obligations.StepRunsDecodedCommand : Prop :=
  ∀ (s : State) (p : Signals) (rest : List Stimulus),
    (∀ i, s.queue = .command p :: rest → decode p.word = .ok i → step s = exec i (presented p rest s))
    ∧ (∀ n, s.queue = .fire n p :: rest →
        (∀ o cb, s.ev.pending[n]? = some o → cellsGet s.ev.callbacks o.id = some cb →
          step s = exec (callbackCommand cb)
            (presented (calledOnPortT (callbackCommand cb) p) rest (withoutOccurrence n s)))
        ∧ ((∀ o, s.ev.pending[n]? = some o → cellsGet s.ev.callbacks o.id = none) →
          step s = .next { s with queue := rest })
        ∧ (s.Inv → s.up = true → ∀ o, s.ev.pending[n]? = some o →
          (o.id = s.ctl.evHost →
            step s = exec .hostpoll (presented (calledOnPortT .hostpoll p) rest (withoutOccurrence n s)))
          ∧ (o.id = s.ctl.evAudio → s.ctl.evAudio ≠ s.ctl.evHost →
            step s = exec .tick (presented (calledOnPortT .tick p) rest (withoutOccurrence n s)))))
    ∧ (s.queue = .clockChange p :: rest →
        (s.ev.clockCallback = true → step s = exec .clkchg (presented (calledOnPortT .clkchg p) rest s))
        ∧ (s.ev.clockCallback = false → step s = .next { s with queue := rest }))

/-- R97 (a), (c), R100: a word that is no command's, on any port, up or down, is answered ST_ILLEGAL and nothing else
happens; the all-zero and the all-ones word are such words. -/
def Obligations.StepAnswersIllegalWord : Prop :=
  (∀ (s : State) (p : Signals) (rest : List Stimulus) (e : DecodeError),
    s.queue = .command p :: rest → decode p.word = .error e →
    step s = .next { s with
      queue := rest, sig := p, snapOut := none, calls := [], resp := turnedAway .illegal })
  ∧ decode 0#64 = .error .unassignedOp ∧ (∃ e, decode (BitVec.allOnes 64) = .error e)

/-- The model's own presentation of one word (log 5, log 7): the very next step runs exactly that word's command, on
the port of R91. -/
def Obligations.FetchWordRunsNext : Prop :=
  ∀ (s : State) (w : Command) (i : Instr), decode w = .ok i →
    ∃ p : Signals, p.word = w ∧ p.port = portOf i ∧ p = { s.sig with word := w, port := portOf i }
      ∧ (s.withFetchWord 64 w.toNat).queue = .command p :: s.queue
      ∧ step (s.withFetchWord 64 w.toNat) = exec i (presented p s.queue s)

/-- R256, R69, R280: the collaborators' moves between commands, each with the whole state it leaves. The model's own
choices among them: nothing happens with nothing presented (log 5); a store admits its address and an unmapping takes
it out (log 9); a re-park in category WAIT_AUDIO, which R256 excludes, does not happen (log 10); a power-on resets the
block's state and leaves the parameters, the collaborators and the ports (log 16). What the power-on leaves in the
state R38 calls unspecified is not said. -/
def Obligations.MovesBetweenCommands : Prop :=
  ∀ (s : State) (rest : List Stimulus),
    (s.queue = [] → step s = .next s)
    ∧ (∀ t, s.queue = .threadLeft t :: rest → cellsSorted s.sched.waits →
        ∃ σ, step s = .next { s with queue := rest, sched := { s.sched with waits := σ } }
          ∧ ∀ u, cellsGet σ u = if u = t then none else cellsGet s.sched.waits u)
    ∧ (∀ t r, s.queue = .threadReparked t r :: rest →
        (r.category = s.par.waitAudio → step s = .next { s with queue := rest })
        ∧ (r.category ≠ s.par.waitAudio →
          ∃ σ, step s = .next { s with queue := rest, sched := { s.sched with waits := σ } }
            ∧ ∀ u, cellsGet σ u = if u = t then some r else cellsGet s.sched.waits u))
    ∧ (∀ a b, s.queue = .guestStore a b :: rest →
        ∃ m, step s = .next { s with queue := rest, mem := m }
          ∧ ∀ a', byteAt m a' = if a' = a then some b else byteAt s.mem a')
    ∧ (∀ a, s.queue = .guestUnmap a :: rest → Memory.wf s.mem = true →
        ∃ m, step s = .next { s with queue := rest, mem := m }
          ∧ ∀ a', byteAt m a' = if a' = a then none else byteAt s.mem a')
    ∧ (s.queue = .powerOn :: rest →
        ∃ (chs : List Channel) (outq : Ring) (ctl : Control) (ovf : Bool),
          step s = .next { s with
            queue := rest, up := false, held := false, acc := none, chs := chs, outq := outq, ctl := ctl,
            outOvf := ovf })

/-- R97 (decision D5 of the spec): a command presented on the wrong port, on a channel above CH_MAX or with an illegal
operand value, and a word that is no command's, is answered ST_ILLEGAL whether the block is up or not, and nothing
else happens. -/
def Obligations.IllegalCommandChangesNothing : Prop :=
  (∀ (i : Instr) (s : State), ¬ Accepted i s → exec i s = .next { s with resp := turnedAway .illegal })
  ∧ ∀ (s : State) (p : Signals) (rest : List Stimulus), s.queue = .command p :: rest →
      (∀ i, decode p.word = .ok i → ¬ Accepted i (presented p rest s)) →
      step s = .next { s with
        queue := rest, sig := p, snapOut := none, calls := [], resp := turnedAway .illegal }

/-- R98 (decision D23 of the spec). -/
def Obligations.DownCommandChangesNothing : Prop :=
  ∀ (i : Instr) (s : State), Accepted i s → (∀ p, i ≠ .init p) → s.up = false →
    exec i s = .next { s with resp := turnedAway .down }

/-! ## The ring -/

/-- R127, from an empty ring with its cursors anywhere. -/
def Obligations.RingIsFifo : Prop :=
  ∀ (cap : Nat) (ops : List RingOp) (q q' : Ring) (pushed popped : List S16),
    ringWf cap q = true → q.count = 0 → runRing cap ops q = some (q', pushed, popped) →
    popped <+: pushed ∧ q'.count + popped.length = pushed.length
      ∧ ringContents cap q' = pushed.drop popped.length ∧ ringWf cap q' = true

/-- R122, R123: where each element goes and comes from, how cursors and count move, and when the contract is
broken. -/
def Obligations.RingPrimitivesMoveElements : Prop :=
  ∀ (cap : Nat) (q : Ring), ringWf cap q = true →
    (∀ vs : List S16, vs.length ≤ cap - q.count →
      ∃ q', pushN cap q vs = .ok q' ∧ q'.head = q.head ∧ q'.tail = (q.tail + vs.length) % cap
        ∧ q'.count = q.count + vs.length ∧ ringWf cap q' = true
        ∧ ∀ i, i < vs.length → q'.storage[(q.tail + i) % cap]? = vs[i]?)
    ∧ (∀ n, n ≤ q.count →
      ∃ vs q', popN cap q n = .ok (vs, q') ∧ q'.head = (q.head + n) % cap ∧ q'.tail = q.tail
        ∧ q'.count = q.count - n ∧ q'.storage = q.storage ∧ ringWf cap q' = true ∧ vs.length = n
        ∧ ∀ i, i < n → vs[i]? = q.storage[(q.head + i) % cap]?)
    ∧ (∀ vs : List S16, cap - q.count < vs.length → pushN cap q vs = .error .overflow)
    ∧ (∀ n, q.count < n → popN cap q n = .error .underflow)

/-! ## adjustVolume -/

/-- R160: unity is lossless, zero gain gives 0, and on the register range the result is the floor of
`sample * vol / 65536`, the clamp never acting. -/
def Obligations.AdjustVolumeOnTheGainRange : Prop :=
  ∀ x : S16, adjustVolume x 65536 = x ∧ adjustVolume x 0 = 0#16
    ∧ ∀ vol : Int, 0 ≤ vol → vol ≤ 65536 →
        (adjustVolume x vol).toInt = (x.toInt * vol) / 65536
        ∧ -2147483648 ≤ x.toInt * vol ∧ x.toInt * vol ≤ 2147418112

/-- R160, R9: for every integer gain, clamped. -/
def Obligations.AdjustVolumeClamps : Prop :=
  ∀ (x : S16) (vol : Int),
    (adjustVolume x vol).toInt = max (-32768) (min 32767 (x.toInt * vol / 65536))

/-- R169, on ENQ itself: with STEREO and both gains at unity, every ENQ that reaches the data path and completes
appends to the channel's queue the guest's samples, copied one for one. -/
def Obligations.UnityStereoIsACopy : Prop :=
  ∀ (s t : State) (ch : BitVec 8) (b : Bool), Ready (.enq ch b) s → exec (.enq ch b) s = .next t →
    let k := getCh s ch.toNat
    ch.toNat < s.chs.length → ringWf s.par.cqCap k.queue = true → k.sampleAddress ≠ 0#32 →
    (0 < k.queue.count → b = true) →
    k.format = .stereo → k.leftVolume = 65536#17 → k.rightVolume = 65536#17 →
    ringContents s.par.cqCap (getCh t ch.toNat).queue = ringContents s.par.cqCap k.queue ++
      (List.range (2 * k.sampleCount.toNat)).map fun j =>
        sampleAt s.mem (k.sampleAddress + BitVec.ofNat 32 (2 * j))

/-- R166, §8 item 4, on ENQ itself: with MONO and equal gains, every ENQ that reaches the data path and completes
appends `2 * sampleCount` elements in equal pairs, pair `i` the adjusted `i`-th sample of guest memory. -/
def Obligations.MonoExpandsToEqualPairs : Prop :=
  ∀ (s t : State) (ch : BitVec 8) (b : Bool), Ready (.enq ch b) s → exec (.enq ch b) s = .next t →
    let k := getCh s ch.toNat
    ch.toNat < s.chs.length → ringWf s.par.cqCap k.queue = true → k.sampleAddress ≠ 0#32 →
    (0 < k.queue.count → b = true) →
    k.format = .mono → k.leftVolume = k.rightVolume →
    ∃ vs : List S16,
      ringContents s.par.cqCap (getCh t ch.toNat).queue = ringContents s.par.cqCap k.queue ++ vs
      ∧ vs.length = 2 * k.sampleCount.toNat
      ∧ ∀ i, i < k.sampleCount.toNat →
          vs[2 * i]? = vs[2 * i + 1]?
          ∧ vs[2 * i]? =
              some (adjustVolume (sampleAt s.mem (k.sampleAddress + BitVec.ofNat 32 (2 * i))) (gainOf k.leftVolume))

/-! ## Channel configuration -/

/-- R140 to R146: each of the six writes sets its one register of `ch[CH]` and answers OK; nothing else changes. -/
def Obligations.RegisterWritesSetOneRegister : Prop :=
  ∀ (s : State) (ch : BitVec 8), s.up = true → s.sig.port = .g → ch.toNat ≤ s.par.chMax →
    (∀ v, exec (.setrsv ch v) s = .next { s with
        resp := okResponse 0#32,
        chs := s.chs.set ch.toNat { getCh s ch.toNat with reserved := v } })
    ∧ (∀ f, exec (.setfmt ch f) s = .next { s with
        resp := okResponse 0#32,
        chs := s.chs.set ch.toNat { getCh s ch.toNat with format := f } })
    ∧ (∀ a, exec (.setaddr ch a) s = .next { s with
        resp := okResponse 0#32,
        chs := s.chs.set ch.toNat { getCh s ch.toNat with sampleAddress := a } })
    ∧ (∀ n, exec (.setcnt ch n) s = .next { s with
        resp := okResponse 0#32,
        chs := s.chs.set ch.toNat { getCh s ch.toNat with sampleCount := n } })
    ∧ (∀ g : Gain, g.toNat ≤ 65536 → exec (.setvoll ch g) s = .next { s with
        resp := okResponse 0#32,
        chs := s.chs.set ch.toNat { getCh s ch.toNat with leftVolume := g } })
    ∧ (∀ g : Gain, g.toNat ≤ 65536 → exec (.setvolr ch g) s = .next { s with
        resp := okResponse 0#32,
        chs := s.chs.set ch.toNat { getCh s ch.toNat with rightVolume := g } })

/-- R140, as a frame over every outcome of the six writes: one channel's registers at most, and never its queue or
its wait list. -/
def Obligations.RegisterWritesFrame : Prop :=
  ∀ (i : Instr) (ch : BitVec 8) (s t : State), exec i s = .next t →
    ((∃ v, i = .setrsv ch v) ∨ (∃ f, i = .setfmt ch f) ∨ (∃ a, i = .setaddr ch a) ∨ (∃ n, i = .setcnt ch n)
      ∨ (∃ g, i = .setvoll ch g) ∨ (∃ g, i = .setvolr ch g)) →
    t = { s with chs := t.chs, resp := t.resp } ∧ t.chs.length = s.chs.length
      ∧ (∀ c, c ≠ ch.toNat → getCh t c = getCh s c)
      ∧ (getCh t ch.toNat).queue = (getCh s ch.toNat).queue
      ∧ (getCh t ch.toNat).waiting = (getCh s ch.toNat).waiting
      ∧ ∀ a, byteAt t.mem a = byteAt s.mem a

/-- R147, R148: CHCLR resets the channel's registers, empties its queue and its list, and resumes every thread still
parked on it with ERR_NOT_RESERVED (`clearCode`, log 22), then asks for one reschedule if there was any. -/
def Obligations.ChannelClearForceWakes : Prop :=
  ∀ (s : State) (ch : BitVec 8), Ready (.chclr ch) s → s.held = true → cellsSorted s.sched.waits →
    ∃ (σ : Scheduler) (made : List Call),
      exec (.chclr ch) s = .next { s with
        resp := okResponse 0#32,
        sched := σ,
        calls := s.calls ++ made,
        chs := s.chs.set ch.toNat {
          reserved := false, format := .stereo, sampleAddress := 0#32, sampleCount := 0#32, leftVolume := 0#17,
          rightVolume := 0#17, waiting := [],
          queue := { (getCh s ch.toNat).queue with head := 0, tail := 0, count := 0 } } }
      ∧ ForceWoken (Waits s ch.toNat) s { s with sched := σ }
      ∧ (∀ u, (Waits s ch.toNat u → made.count (.resume u (clearCode s u)) = 1)
          ∧ (¬ Waits s ch.toNat u → ∀ v, .resume u v ∉ made))
      ∧ ((∀ u, ¬ Waits s ch.toNat u) → made = [])
      ∧ ((∃ u, Waits s ch.toNat u) → ∃ rs, made = rs ++ [.reschedule] ∧ .reschedule ∉ rs)

/-! ## The wake/drain protocol -/

/-- R181 with §8 item 6: the entry of a thread that stays parked is resolved at the first pass at which the
cumulative step reaches its threshold, never earlier, with its payload and one reschedule. -/
def Obligations.DrainWakesExactlyAtThreshold : Prop :=
  ∀ (s : State) (c t n : Nat) (R : Int) (v : U32) (j : Nat),
    c < s.chs.length → (getCh s c).waiting = [{ thread := t, remaining := R }] →
    cellsGet s.sched.waits t = some { category := s.par.waitAudio, key := c + 1, payload := v } →
    cellsSorted s.sched.waits → 0 < n → (∀ k : Nat, 0 < k → k ≤ j → (k * n : Int) < R) →
    let pass := wakeThreads c 0#32 (.frames n)
    (getCh (pass^[j] s) c).waiting = [{ thread := t, remaining := R - j * n }]
    ∧ (pass^[j] s).sched = s.sched ∧ (pass^[j] s).calls = s.calls
    ∧ (R ≤ ((j + 1) * n : Int) →
        (getCh (pass^[j + 1] s) c).waiting = []
        ∧ (pass^[j + 1] s).calls = s.calls ++ [.resume t v, .reschedule]
        ∧ cellsGet (pass^[j + 1] s).sched.waits t = none
        ∧ cellsGet (pass^[j + 1] s).sched.delivered t = some v)

/-- R181 for a list without repeated threads: which entries stay, in order, with what is left; who is resumed, in
list order, with its payload; who is dropped. -/
def Obligations.WakePassSortsEntries : Prop :=
  ∀ (s : State) (c n : Nat), c < s.chs.length → cellsSorted s.sched.waits →
    ((getCh s c).waiting.map WaitEntry.thread).Nodup →
    let w := (getCh s c).waiting
    let here := fun e : WaitEntry => waitId s.sched e.thread s.par.waitAudio == c + 1
    let due := fun e : WaitEntry => decide (e.remaining - n ≤ 0)
    let resumed := w.filter fun e => here e && due e
    let t := wakeThreads c 0#32 (.frames n) s
    (getCh t c).waiting = ((w.filter fun e => here e && !due e).map fun e => { thread := e.thread, remaining := e.remaining - n })
    ∧ t.calls = s.calls ++ (if resumed = [] then [] else
        (resumed.map fun e => Call.resume e.thread (waitValue s.sched e.thread)) ++ [.reschedule])
    ∧ (∀ u, cellsGet t.sched.waits u =
        if u ∈ resumed.map WaitEntry.thread then none else cellsGet s.sched.waits u)
    ∧ (∀ d, d ≠ c → getCh t d = getCh s d)
    ∧ t = { s with chs := t.chs, sched := t.sched, calls := t.calls }

/-- R181 (c), R290: of two entries for one thread the first that resolves resumes it and the other is dropped on the
same pass, with one reschedule. -/
def Obligations.SecondEntryOfAThreadIsDropped : Prop :=
  ∀ (s : State) (c t n : Nat) (R R' : Int) (v : U32),
    c < s.chs.length → cellsSorted s.sched.waits → R ≤ n →
    (getCh s c).waiting = [{ thread := t, remaining := R }, { thread := t, remaining := R' }] →
    cellsGet s.sched.waits t = some { category := s.par.waitAudio, key := c + 1, payload := v } →
    let u := wakeThreads c 0#32 (.frames n) s
    (getCh u c).waiting = [] ∧ u.calls = s.calls ++ [.resume t v, .reschedule]
      ∧ cellsGet u.sched.waits t = none

/-! ## ENQ -/

/-- R163: nothing changes but the response, for a silence-only call too. -/
def Obligations.NonBlockingEnqOnBusyChannel : Prop :=
  ∀ (s : State) (ch : BitVec 8), Ready (.enq ch false) s → s.held = true →
    0 < (getCh s ch.toNat).queue.count →
    exec (.enq ch false) s = .next { s with resp := okResponse s.par.errBusy }

/-- R162, R165: a silence-only ENQ on an empty queue changes nothing and answers the sample count, or 0 on the two
special channels. -/
def Obligations.SilenceOnlyEnqOnEmptyQueue : Prop :=
  ∀ (s : State) (ch : BitVec 8) (b : Bool), Ready (.enq ch b) s → s.held = true →
    (getCh s ch.toNat).queue.count = 0 → (getCh s ch.toNat).sampleAddress = 0#32 →
    exec (.enq ch b) s = .next { s with
      resp := okResponse (if ch.toNat = s.par.chSrc ∨ ch.toNat = s.par.chOutput2 then 0#32
        else (getCh s ch.toNat).sampleCount) }

/-- R161, R166: ENQ on an empty queue appends the scaled samples of R166 and answers the sample count. -/
def Obligations.EnqOnEmptyQueueAppendsSamples : Prop :=
  ∀ (s : State) (ch : BitVec 8) (b : Bool), Ready (.enq ch b) s → s.held = true →
    let k := getCh s ch.toNat
    ringWf s.par.cqCap k.queue = true → k.queue.count = 0 → k.sampleAddress ≠ 0#32 →
    2 * k.sampleCount.toNat ≤ s.par.cqCap → admitted s.mem k.sampleAddress (bytesRead k) →
    ∃ q, exec (.enq ch b) s = .next { s with
        resp := okResponse k.sampleCount,
        chs := s.chs.set ch.toNat { k with queue := q } }
      ∧ pushN s.par.cqCap k.queue (specSamples s.mem k) = .ok q
      ∧ ringContents s.par.cqCap q = specSamples s.mem k

/-- R164, R166, R168: a blocking ENQ on a non-empty queue, dispatch enabled, parks the calling thread, records one
wait entry with `count / 2 / QMINF` frames, and still appends `2 * sampleCount` elements, or none for a
silence-only call. -/
def Obligations.BlockingEnqParksAndAppends : Prop :=
  ∀ (s : State) (ch : BitVec 8), Ready (.enq ch true) s → s.held = true → s.sig.dispatchEnabled = true →
    let c := ch.toNat
    let k := getCh s c
    let ret := if k.sampleAddress = 0#32 ∧ (c = s.par.chSrc ∨ c = s.par.chOutput2) then 0#32 else k.sampleCount
    let vs := if k.sampleAddress = 0#32 then [] else specSamples s.mem k
    c < s.chs.length → 0 < k.queue.count → ringWf s.par.cqCap k.queue = true →
    (k.sampleAddress ≠ 0#32 → 2 * k.sampleCount.toNat ≤ s.par.cqCap - k.queue.count
      ∧ admitted s.mem k.sampleAddress (bytesRead k)) →
    ∃ q, exec (.enq ch true) s = .next { s with
        resp := some { status := .ok, parked := true, value := ret },
        chs := s.chs.set c { k with
          queue := q,
          waiting := k.waiting ++ [{ thread := s.sig.currentThread,
                                     remaining := ((k.queue.count / 2 / s.ctl.qminf : Nat) : Int) }] },
        sched := { s.sched with
          waits := cellsPut s.sched.waits s.sig.currentThread { category := s.par.waitAudio, key := c + 1, payload := ret } },
        calls := s.calls ++ [.park s.sig.currentThread s.par.waitAudio (c + 1) ret false] }
      ∧ ringContents s.par.cqCap q = ringContents s.par.cqCap k.queue ++ vs
      ∧ q.count = k.queue.count + (if k.sampleAddress = 0#32 then 0 else 2 * k.sampleCount.toNat)

/-- R164: with dispatch disabled nothing is recorded, nobody is parked, the value is ERR_CANNOT_WAIT, and the
samples are still appended. -/
def Obligations.BlockingEnqWithDispatchDisabled : Prop :=
  ∀ (s : State) (ch : BitVec 8), Ready (.enq ch true) s → s.held = true → s.sig.dispatchEnabled = false →
    let c := ch.toNat
    let k := getCh s c
    let vs := if k.sampleAddress = 0#32 then [] else specSamples s.mem k
    c < s.chs.length → 0 < k.queue.count → ringWf s.par.cqCap k.queue = true →
    (k.sampleAddress ≠ 0#32 → 2 * k.sampleCount.toNat ≤ s.par.cqCap - k.queue.count
      ∧ admitted s.mem k.sampleAddress (bytesRead k)) →
    ∃ q, exec (.enq ch true) s = .next { s with
        resp := okResponse s.par.errCannotWait,
        chs := s.chs.set c { k with queue := q } }
      ∧ ringContents s.par.cqCap q = ringContents s.par.cqCap k.queue ++ vs

/-- R166, R247: no room is Fault(CQ_OVERFLOW), before any memory read, and after the park of a blocking call. -/
def Obligations.EnqBeyondRoomFaults : Prop :=
  ∀ (s : State) (ch : BitVec 8) (b : Bool), Ready (.enq ch b) s → s.held = true →
    let c := ch.toNat
    let k := getCh s c
    c < s.chs.length → k.sampleAddress ≠ 0#32 → s.par.cqCap - k.queue.count < 2 * k.sampleCount.toNat →
    (k.queue.count = 0 → exec (.enq ch b) s = .fault (.cqOverflow s.calls))
    ∧ (0 < k.queue.count → b = true → s.sig.dispatchEnabled = false →
        exec (.enq ch b) s = .fault (.cqOverflow s.calls))
    ∧ (0 < k.queue.count → b = true → s.sig.dispatchEnabled = true →
        exec (.enq ch b) s = .fault (.cqOverflow
          (s.calls ++ [.park s.sig.currentThread s.par.waitAudio (c + 1) k.sampleCount false])))

/-- R66, R247: with room, the first address of the range that is not admitted is Fault(MEM): on an empty queue, on a
non-empty one with dispatch disabled, and on a non-empty one with dispatch enabled, then after the park. -/
def Obligations.EnqOnUnadmittedAddressFaults : Prop :=
  ∀ (s : State) (ch : BitVec 8) (b : Bool) (j : Nat), Ready (.enq ch b) s → s.held = true →
    let c := ch.toNat
    let k := getCh s c
    let a := k.sampleAddress + BitVec.ofNat 32 j
    c < s.chs.length → k.sampleAddress ≠ 0#32 → 2 * k.sampleCount.toNat ≤ s.par.cqCap - k.queue.count →
    j < bytesRead k → admitted s.mem k.sampleAddress j → byteAt s.mem a = none →
    (k.queue.count = 0 → exec (.enq ch b) s = .fault (.mem a s.calls))
    ∧ (0 < k.queue.count → b = true → s.sig.dispatchEnabled = false → exec (.enq ch b) s = .fault (.mem a s.calls))
    ∧ (0 < k.queue.count → b = true → s.sig.dispatchEnabled = true →
        exec (.enq ch b) s = .fault (.mem a
          (s.calls ++ [.park s.sig.currentThread s.par.waitAudio (c + 1) k.sampleCount false])))

/-- R162 to R167, as a frame over every next state of ENQ: only the channel's queue and wait list, the scheduler,
the calls and the response may change. -/
def Obligations.EnqFrame : Prop :=
  ∀ (s t : State) (ch : BitVec 8) (b : Bool), exec (.enq ch b) s = .next t →
    t = { s with chs := t.chs, sched := t.sched, calls := t.calls, resp := t.resp }
    ∧ t.chs.length = s.chs.length
    ∧ (∀ c, c ≠ ch.toNat → getCh t c = getCh s c)
    ∧ SameRegisters (getCh s ch.toNat) (getCh t ch.toNat)
    ∧ (∀ u, u ≠ s.sig.currentThread → cellsGet t.sched.waits u = cellsGet s.sched.waits u)
    ∧ t.sched.delivered = s.sched.delivered
    ∧ ∀ a, byteAt t.mem a = byteAt s.mem a

/-! ## TICK and HOSTPOLL -/

/-- R187 with R183 to R186: with room in OUTQ a tick appends the clamped element-wise sum of the popped blocks to
OUTQ, shortens every reserved channel's queue by `m_c`, passes over the others, and leaves OUT_OVF alone. -/
def Obligations.TickAppendsMixedBlock : Prop :=
  ∀ s : State, Ready .tick s → s.held = true → s.Inv → 2 * s.ctl.hbs ≤ s.par.oqCap - s.outq.count →
    ∃ t, exec .tick s = .next t ∧ t.resp = okResponse 0#32
      ∧ ringContents s.par.oqCap t.outq = ringContents s.par.oqCap s.outq ++ mixedBlock s
      ∧ (∃ a, t.acc = some a ∧ a.map BitVec.toInt = (List.range (2 * s.ctl.hbs)).map (mixSum s))
      ∧ Drained s t ∧ t.outOvf = s.outOvf

/-- R186: without room the block is lost whole, OUTQ is unchanged and OUT_OVF is set, the channels being drained all
the same. -/
def Obligations.TickWithoutRoomDropsBlock : Prop :=
  ∀ s : State, Ready .tick s → s.held = true → s.Inv → s.par.oqCap - s.outq.count < 2 * s.ctl.hbs →
    ∃ t, exec .tick s = .next t ∧ t.resp = okResponse 0#32 ∧ t.outq = s.outq ∧ t.outOvf = true ∧ Drained s t

/-- R182, R184, R185, R181, R259: a tick reschedules itself first, lateness subtracted, and only then wakes; every
reserved channel's list is what one pass of step HBS leaves of it, whatever the other channels' passes did. The due
threads, and no others, are resumed, each once and with its own payload: they wait no longer and receive that payload;
nobody else is touched. -/
def Obligations.TickReschedulesThenWakes : Prop :=
  ∀ s t : State, Ready .tick s → s.Inv → exec .tick s = .next t →
    t.calls = s.calls ++ .schedule ((s.ctl.audioInterval : Int) - s.sig.lateIn) s.ctl.evAudio 0 :: callsOfTickWakes s
    ∧ (∀ x ∈ callsOfTickWakes s,
        x = .reschedule ∨ ∃ u, DueAtTick s u ∧ x = .resume u (waitValue s.sched u))
    ∧ (∀ u, DueAtTick s u → (callsOfTickWakes s).count (.resume u (waitValue s.sched u)) = 1)
    ∧ (∀ u, DueAtTick s u →
        cellsGet t.sched.waits u = none ∧ cellsGet t.sched.delivered u = some (waitValue s.sched u))
    ∧ (∀ u, ¬ DueAtTick s u →
        cellsGet t.sched.waits u = cellsGet s.sched.waits u
        ∧ cellsGet t.sched.delivered u = cellsGet s.sched.delivered u)
    ∧ t.ev = { s.ev with pending := s.ev.pending ++
        [{ delay := (s.ctl.audioInterval : Int) - s.sig.lateIn, id := s.ctl.evAudio, userdata := 0 }] }
    ∧ ∀ c, c < s.par.nch → (getCh s c).reserved = true →
        (getCh t c).waiting =
          (wakeList s.par c 0#32 (.frames s.ctl.hbs) (getCh s c).waiting s.sched).1

/-- R182 to R186, as a frame over every next state of a tick. -/
def Obligations.TickFrame : Prop :=
  ∀ s t : State, exec .tick s = .next t →
    t = { s with chs := t.chs, outq := t.outq, acc := t.acc, outOvf := t.outOvf, sched := t.sched, ev := t.ev,
                 calls := t.calls, resp := t.resp }
    ∧ t.chs.length = s.chs.length ∧ (∀ c, SameRegisters (getCh s c) (getCh t c))
    ∧ t.outq.head = s.outq.head ∧ t.ev.registered = s.ev.registered ∧ t.ev.clockCallback = s.ev.clockCallback
    ∧ (s.outOvf = true → t.outOvf = true) ∧ ∀ a, byteAt t.mem a = byteAt s.mem a

/-- R189 with its encoding. -/
def Obligations.HostpollReschedulesAndPolls : Prop :=
  (∀ s : State, Ready .hostpoll s →
    exec .hostpoll s = .next { s with
      resp := okResponse 0#32,
      calls := s.calls ++ [.schedule ((s.ctl.hostInterval : Int) - s.sig.lateIn) s.ctl.evHost 0] ++ [.pollDevice],
      ev := { s.ev with pending := s.ev.pending ++
        [{ delay := (s.ctl.hostInterval : Int) - s.sig.lateIn, id := s.ctl.evHost, userdata := 0 }] } })
  ∧ decode 0x2100000000000000#64 = .ok .hostpoll

/-! ## PULL -/

/-- R201, R202: PULL moves the `min(count, 2 * numFrames)` oldest elements to the front of the host buffer, answers
the number of whole frames, and leaves the rest of the buffer as it was. The host buffer is as long as R67 has the
host promise. -/
def Obligations.PullMovesOldestFrames : Prop :=
  ∀ (s : State) (n : U32), Ready (.pull n) s → s.held = true → s.sig.during = none →
    ringWf s.par.oqCap s.outq = true → 2 * n.toNat ≤ s.sig.hostBuf.length →
    let m := min s.outq.count (2 * n.toNat)
    let vs := (ringContents s.par.oqCap s.outq).take m
    ∃ v : U32, v.toNat = m / 2 ∧
      exec (.pull n) s = .next { s with
        resp := okResponse v,
        outq := { s.outq with head := (s.outq.head + m) % s.par.oqCap, count := s.outq.count - m },
        sig := { s.sig with hostBuf := vs ++ s.sig.hostBuf.drop m },
        calls := s.calls ++ [.hostWrite vs] }
      ∧ ringContents s.par.oqCap { s.outq with head := (s.outq.head + m) % s.par.oqCap, count := s.outq.count - m }
          = (ringContents s.par.oqCap s.outq).drop m

/-- R203, as a frame over every next state of PULL. -/
def Obligations.PullFrame : Prop :=
  ∀ (s t : State) (n : U32), exec (.pull n) s = .next t →
    t = { s with outq := { s.outq with head := t.outq.head, count := t.outq.count },
                 sig := { s.sig with hostBuf := t.sig.hostBuf }, calls := t.calls, resp := t.resp }
    ∧ (t.calls = s.calls ∨ ∃ vs, t.calls = s.calls ++ [.hostWrite vs]) ∧ ∀ a, byteAt t.mem a = byteAt s.mem a

/-- R76 (decision D14 of the spec): a legal PULL on a block that is up, while a lifecycle command runs, is Fault(RACE).
That ST_ILLEGAL and ST_DOWN come before it, and that RACE comes before STATE_UNSPEC, is the model's reading (log 8). -/
def Obligations.PullDuringLifecycleFaults : Prop :=
  ∀ (s : State) (n : U32) (l : Lifecycle), Ready (.pull n) s → s.sig.during = some l →
    exec (.pull n) s = .fault (.race s.calls)

/-! ## Lifecycle -/

/-- R210, R211, R222, R257, R258: INIT from down. ACC's slots are unspecified, so only their number is stated. -/
def Obligations.InitFromDown : Prop :=
  ∀ (s : State) (p : BitVec 2) (prof : Profile), Accepted (.init p) s → profileOf p = some prof → s.up = false →
    s.chs.length = s.par.nch →
    ∃ acc : List S32, acc.length = 2 * (s.par.profile prof).hbs ∧
      exec (.init p) s = .next { s with
        up := true,
        held := true,
        outOvf := false,
        acc := some acc,
        freeCtr := s.freeCtr + 1,
        outq := { s.outq with head := 0, tail := 0, count := 0 },
        chs := s.chs.map fun k => {
          reserved := false, format := .stereo, sampleAddress := 0#32, sampleCount := 0#32, leftVolume := 0#17,
          rightVolume := 0#17, waiting := [], queue := { k.queue with head := 0, tail := 0, count := 0 } },
        ctl := controlAfterInit s prof,
        ev := eventsAfterInit s prof,
        calls := s.calls ++ callsOfInit s prof,
        resp := okResponse 0#32 }

/-- R210, R34, R148: INIT while up does the same, and every parked waiter is resumed with the code of a channel clear,
after the events were registered and scheduled; nothing is cancelled. -/
def Obligations.InitWhileUpForceWakes : Prop :=
  ∀ (s : State) (p : BitVec 2) (prof : Profile), Accepted (.init p) s → profileOf p = some prof → s.up = true →
    s.held = true → s.Inv →
    ∃ (acc : List S32) (σ : Scheduler) (made : List Call), acc.length = 2 * (s.par.profile prof).hbs ∧
      exec (.init p) s = .next { s with
        up := true,
        held := true,
        outOvf := false,
        acc := some acc,
        freeCtr := s.freeCtr + 1,
        outq := { s.outq with head := 0, tail := 0, count := 0 },
        chs := s.chs.map fun k => {
          reserved := false, format := .stereo, sampleAddress := 0#32, sampleCount := 0#32, leftVolume := 0#17,
          rightVolume := 0#17, waiting := [], queue := { k.queue with head := 0, tail := 0, count := 0 } },
        ctl := controlAfterInit s prof,
        ev := eventsAfterInit s prof,
        sched := σ,
        calls := s.calls ++ callsOfInit s prof ++ made,
        resp := okResponse 0#32 }
      ∧ (∀ x ∈ made, x = .reschedule ∨ ∃ u, x = .resume u (clearCode s u))
      ∧ ForceWoken (fun u => ∃ c, c < s.par.nch ∧ Waits s c u) s { s with sched := σ }

/-- R212, R148: SHUTDOWN force-wakes every parked waiter, releases ACC and goes down; the guest's memory, the
registered events and the pending occurrences stay. Nothing is said of the state that is unspecified after it. -/
def Obligations.ShutdownForceWakesAndReleases : Prop :=
  ∀ s : State, Ready .shutdown s → s.held = true → s.Inv →
    ∃ t, exec .shutdown s = .next t ∧ t.resp = okResponse 0#32 ∧ t.up = false ∧ t.acc = none ∧ t.held = false
      ∧ t.mem = s.mem ∧ t.ev = s.ev ∧ t.par = s.par ∧ t.queue = s.queue ∧ t.sig = s.sig
      ∧ (∃ made, t.calls = s.calls ++ made ∧ ∀ x ∈ made, x = .reschedule ∨ ∃ u, x = .resume u (clearCode s u))
      ∧ ForceWoken (fun u => ∃ c, c < s.par.nch ∧ Waits s c u) s t

/-- R213 with its encoding, R257, R258: both intervals are recomputed, nothing else changes. -/
def Obligations.ClockChangeRecomputesIntervals : Prop :=
  (∀ s : State, Ready .clkchg s →
    exec .clkchg s = .next { s with
      resp := okResponse 0#32,
      ctl := { s.ctl with cps := s.sig.cpsIn,
                          audioInterval := s.sig.cpsIn * s.ctl.hbs / s.par.hwRate,
                          hostInterval := s.sig.cpsIn * s.ctl.habs / s.par.hwRate } })
  ∧ decode 0x0300000000000000#64 = .ok .clkchg

/-- R214 with its encoding. -/
def Obligations.SetFreqStoresOutfreq : Prop :=
  (∀ (s : State) (freq : U32), Ready (.setfreq freq) s →
    exec (.setfreq freq) s = .next { s with resp := okResponse 0#32, ctl := { s.ctl with outfreq := freq } })
  ∧ decode 0x040000000000AC44#64 = .ok (.setfreq 44100#32)

/-- R34, R214: OUTFREQ is read by no command: runs that differ in it alone answer alike, and still differ in it alone
afterwards. SETFREQ, which writes it, answers as if it had not been there. So does SHUTDOWN, by the model's choice
(log 4): R212 leaves OUTFREQ unspecified after it, and the free value that stands there depends on the counter
`freeCtr` alone, not on what OUTFREQ held. -/
def Obligations.OutfreqIsReadByNoCommand : Prop :=
  ∀ (i : Instr) (s : State) (f : U32),
    ((∀ g, i ≠ .setfreq g) → i ≠ .shutdown →
      (∀ t, exec i s = .next t → exec i (withOutfreq f s) = .next (withOutfreq f t))
      ∧ (∀ r, exec i s = .fault r → exec i (withOutfreq f s) = .fault r))
    ∧ (Ready i s → ((∃ g, i = .setfreq g) ∨ i = .shutdown) → exec i (withOutfreq f s) = exec i s)

/-- R224 with its encoding. -/
def Obligations.RdstatReadsStatus : Prop :=
  (∀ s : State, Ready .rdstat s →
    exec .rdstat s = .next { s with resp := okResponse (if s.outOvf then 1#32 else 0#32) })
  ∧ decode 0x0700000000000000#64 = .ok .rdstat

/-- R216 with R215 and the encoding: SAVE answers the whole persisted state and changes nothing. That dead storage is
saved as it is, is the model's choice among those R216 allows (log 15). -/
def Obligations.SaveSnapshotsPersistedState : Prop :=
  (∀ s : State, Ready .save s → s.held = true →
    exec .save s = .next { s with
      resp := okResponse 0#32,
      snapOut := some { nch := s.par.nch, cqCap := s.par.cqCap, oqCap := s.par.oqCap, channels := s.chs,
                        outq := s.outq } })
  ∧ decode 0x0500000000000000#64 = .ok .save

/-- R218, R221: LOAD of a compatible record a SAVE could have produced replaces channels and OUTQ, registers both
events again under their names, schedules nothing, and leaves the rest alone. -/
def Obligations.LoadRestoresPersistedState : Prop :=
  ∀ s : State, Ready .load s → s.sig.snapIn.compatible s.par = true → s.sig.snapIn.wf s.par = true →
    exec .load s = .next { s with
      resp := okResponse 0#32,
      chs := s.sig.snapIn.channels,
      outq := s.sig.snapIn.outq,
      held := true,
      ctl := { s.ctl with evAudio := s.sig.evIdAudio, evHost := s.sig.evIdHost },
      ev := { s.ev with
        registered :=
          cellsPut (cellsPut s.ev.registered s.par.evnameAudio s.sig.evIdAudio) s.par.evnameHost s.sig.evIdHost,
        callbacks := cellsPut (cellsPut s.ev.callbacks s.sig.evIdAudio .tick) s.sig.evIdHost .hostpoll },
      calls := s.calls ++ [.registerEvent s.par.evnameAudio .tick s.sig.evIdAudio]
        ++ [.registerEvent s.par.evnameHost .hostpoll s.sig.evIdHost] }

/-- R218: a record with this block's constants that no SAVE could produce is Fault(BAD_SNAPSHOT). -/
def Obligations.LoadOfImpossibleRecordFaults : Prop :=
  ∀ s : State, Ready .load s → s.sig.snapIn.compatible s.par = true → s.sig.snapIn.wf s.par = false →
    exec .load s = .fault (.badSnapshot s.calls)

/-- R219: LOAD of a record with other constants answers ST_INCOMPAT, leaves channels and OUTQ without values, and
changes nothing that is not persisted. -/
def Obligations.IncompatibleLoadLeavesUnspecified : Prop :=
  ∀ s : State, Ready .load s → s.sig.snapIn.compatible s.par = false →
    ∃ t, exec .load s = .next t ∧ t.resp = turnedAway .incompat ∧ t.held = false
      ∧ t = { s with resp := t.resp, held := false, chs := t.chs, outq := t.outq, freeCtr := t.freeCtr }

/-- R219: while channels and OUTQ hold no value, every command that reads one of them is Fault(STATE_UNSPEC), and the
commands that read none keep their meaning. -/
def Obligations.UnspecifiedStateFaultsOnRead : Prop :=
  ∀ (i : Instr) (s : State), Ready i s → s.held = false → s.sig.during = none →
    (((∃ ch b, i = .enq ch b) ∨ i = .tick ∨ (∃ n, i = .pull n) ∨ i = .save ∨ (∃ ch, i = .chclr ch)
        ∨ (∃ p, i = .init p) ∨ i = .shutdown) → ∃ made, exec i s = .fault (.stateUnspec made))
    ∧ (((∃ ch v, i = .setrsv ch v) ∨ (∃ ch f, i = .setfmt ch f) ∨ (∃ ch a, i = .setaddr ch a)
        ∨ (∃ ch n, i = .setcnt ch n) ∨ (∃ ch g, i = .setvoll ch g) ∨ (∃ ch g, i = .setvolr ch g)
        ∨ (∃ f, i = .setfreq f) ∨ i = .rdstat ∨ i = .clkchg ∨ i = .hostpoll) →
        ∃ t r, exec i s = .next t ∧ t.resp = some r ∧ r.status = .ok)

/-- R220: a LOAD of the record SAVE has just answered leaves every persisted field as it was, and everything else of
the block but the event ids. For dead storage this rests on the model's choice (log 15). -/
def Obligations.SaveThenLoadRoundTrips : Prop :=
  ∀ (s t : State) (p : Signals) (rest : List Stimulus) (x : Snapshot),
    s.Inv → s.up = true → s.sig.port = .g → exec .save s = .next t → t.snapOut = some x →
    p.port = .g → p.snapIn = x →
    ∃ u, exec .load (presented p rest t) = .next u ∧ u.resp = okResponse 0#32
      ∧ u.chs = s.chs ∧ u.outq = s.outq ∧ u.held = true ∧ u.up = true ∧ u.acc = s.acc ∧ u.outOvf = s.outOvf
      ∧ u.ctl = { s.ctl with evAudio := p.evIdAudio, evHost := p.evIdHost }
      ∧ u.sched = s.sched ∧ u.mem = s.mem ∧ u.par = s.par

/-! ## Whole-machine rules -/

/-- R60, R20, R6: no command writes guest memory, no command changes the parameters, and the stimuli still to come
are untouched. -/
def Obligations.NoCommandWritesGuestMemory : Prop :=
  ∀ (i : Instr) (s t : State), exec i s = .next t →
    t.par = s.par ∧ t.queue = s.queue ∧ ∀ a, byteAt t.mem a = byteAt s.mem a

/-- R29: OUT_OVF is sticky. Only TICK sets it, and no command but INIT clears it (after SHUTDOWN it is
unspecified, R212). -/
def Obligations.OverflowFlagIsSticky : Prop :=
  ∀ (i : Instr) (s t : State), exec i s = .next t → (∀ p, i ≠ .init p) → i ≠ .shutdown →
    (s.outOvf = true → t.outOvf = true) ∧ (i ≠ .tick → t.outOvf = s.outOvf)

/-- R27, R70: TICK is the only writer of OUTQ's storage and tail, PULL the only writer of its head, among the
commands that do not replace or reset it whole (INIT, SHUTDOWN, LOAD). -/
def Obligations.OutputRingHasOneProducerOneConsumer : Prop :=
  ∀ (i : Instr) (s t : State), exec i s = .next t → (∀ p, i ≠ .init p) → i ≠ .shutdown → i ≠ .load →
    (i ≠ .tick → t.outq.storage = s.outq.storage ∧ t.outq.tail = s.outq.tail)
    ∧ ((∀ n, i ≠ .pull n) → t.outq.head = s.outq.head)
    ∧ (i ≠ .tick → (∀ n, i ≠ .pull n) → t.outq = s.outq)

/-- R31, R32, R211: no command but INIT selects a profile (after SHUTDOWN it is unspecified, R212). -/
def Obligations.OnlyInitSelectsProfile : Prop :=
  ∀ (i : Instr) (s t : State), exec i s = .next t → (∀ p, i ≠ .init p) → i ≠ .shutdown →
    t.ctl.profileSel = s.ctl.profileSel ∧ t.ctl.hbs = s.ctl.hbs ∧ t.ctl.habs = s.ctl.habs
      ∧ t.ctl.qmaxf = s.ctl.qmaxf ∧ t.ctl.qminf = s.ctl.qminf ∧ t.up = s.up

/-- R96: every command that does not fault responds, `parked` only from ENQ, and a status that is not ST_OK has
value 0. -/
def Obligations.EveryCommandResponds : Prop :=
  ∀ (i : Instr) (s t : State), exec i s = .next t →
    ∃ r, t.resp = some r ∧ (r.status ≠ .ok → r.value = 0#32)
      ∧ (r.parked = true → r.status = .ok ∧ ∃ ch, i = .enq ch true)

/-- R245: which commands can raise which fault, in any state; the two ring faults are raised by none. -/
def Obligations.FaultsOnlyWhereListed : Prop :=
  ∀ (i : Instr) (s : State) (r : Fault), exec i s = .fault r →
    ((∃ made, r = .cqOverflow made) ∧ ∃ ch b, i = .enq ch b)
    ∨ ((∃ a made, r = .mem a made) ∧ ∃ ch b, i = .enq ch b)
    ∨ ((∃ made, r = .race made) ∧ (∃ n, i = .pull n) ∧ s.sig.during ≠ none)
    ∨ ((∃ made, r = .badSnapshot made) ∧ i = .load)
    ∨ ((∃ made, r = .stateUnspec made) ∧ s.held = false)

/-! ## The invariant -/

/-- Every step keeps the invariant: ring invariants (R120), whole frames (R26), legal gains (R21), ACC and `up`
(R28, R30), the control registers of the selected profile and clock (R32, R33), the event ids (R35), the canonical
form of every list of cells. -/
def Obligations.StepKeepsInvariant : Prop :=
  ∀ s t : State, s.Inv → step s = .next t → t.Inv

/-- R38: right after power-on, with any parameters that meet R6, the invariant holds, the block is down and ACC does
not exist; the model's reset is such a state (its parameter values are the model's choice, log 1). -/
def Obligations.PowerOnMeetsInvariant : Prop :=
  (∀ P : Params, P.wf = true →
    (State.powerOnWith P).Inv ∧ (State.powerOnWith P).up = false ∧ (State.powerOnWith P).acc = none
      ∧ (State.powerOnWith P).held = false)
  ∧ State.reset.Inv

/-- R120, R26: what the invariant says of a run that started at power-on: while the block is up and its rings hold
values, every ring holds whole frames and never more than its capacity, and no tick can be without an accumulator. -/
def Obligations.RunsFromPowerOnKeepRingsSound : Prop :=
  ∀ (P : Params) (stimuli : List Stimulus) (n : Nat) (t : State), P.wf = true →
    RunsTo n { State.powerOnWith P with queue := stimuli } t →
    (t.held = true → t.outq.count ≤ P.oqCap ∧ t.outq.count % 2 = 0
      ∧ ∀ k ∈ t.chs, k.queue.count ≤ P.cqCap ∧ k.queue.count % 2 = 0)
    ∧ t.acc.isSome = t.up
end

