-- ==== Sys2Proof/Laws/Cells.lean ====
section
/-! SUPPORT. The laws of cell lists: read after write, read after removal, the canonical form is kept and makes
equal contents equal data. -/

namespace Sys2Proof.Machine

open Sys2Proof

variable {α : Type}

@[simp] theorem cellsGet_nil (a : Nat) : cellsGet ([] : List (Nat × α)) a = none := rfl

theorem cellsGet_put (m : List (Nat × α)) (a b : Nat) (x : α) :
    cellsGet (cellsPut m a x) b = if b = a then some x else cellsGet m b := by
  induction m with
  | nil => simp [cellsPut, cellsGet]
  | cons c m ih =>
    obtain ⟨k, v⟩ := c
    simp only [cellsPut]
    split
    · simp [cellsGet]
    · split
      · subst_vars; simp only [cellsGet]; split <;> rfl
      · simp only [cellsGet, ih]; split <;> split <;> simp_all

/-- Below every key there is nothing. -/
theorem cellsGet_none_of_lt {m : List (Nat × α)} {a : Nat} (h : ∀ c ∈ m, a < c.1) : cellsGet m a = none := by
  induction m with
  | nil => rfl
  | cons c m ih =>
    have h1 : a < c.1 := h c (by simp)
    simp [cellsGet, Nat.ne_of_lt h1, ih fun d hd => h d (by simp [hd])]

theorem cellsGet_erase {m : List (Nat × α)} (hs : cellsSorted m) (a b : Nat) :
    cellsGet (cellsErase m a) b = if b = a then none else cellsGet m b := by
  induction m with
  | nil => simp [cellsErase, cellsGet]
  | cons c m ih =>
    obtain ⟨k, v⟩ := c
    have hs' := List.pairwise_cons.mp hs
    simp only [cellsErase]
    split
    · next h =>
      subst h
      split
      · next hb => subst hb; exact cellsGet_none_of_lt hs'.1
      · next hb => simp [cellsGet, hb]
    · next h =>
      simp only [cellsGet, ih hs'.2]
      split <;> split <;> simp_all

theorem mem_cellsPut {m : List (Nat × α)} {a : Nat} {x : α} {c : Nat × α} (h : c ∈ cellsPut m a x) :
    c = (a, x) ∨ c ∈ m := by
  induction m with
  | nil => simpa [cellsPut] using h
  | cons d m ih =>
    simp only [cellsPut] at h
    split at h
    · simpa using h
    · split at h
      · rcases List.mem_cons.mp h with h | h
        · exact .inl h
        · exact .inr (List.mem_cons_of_mem _ h)
      · rcases List.mem_cons.mp h with h | h
        · exact .inr (by simp [h])
        · rcases ih h with h | h
          · exact .inl h
          · exact .inr (List.mem_cons_of_mem _ h)

theorem mem_cellsErase {m : List (Nat × α)} {a : Nat} {c : Nat × α} (h : c ∈ cellsErase m a) : c ∈ m := by
  induction m with
  | nil => simp [cellsErase] at h
  | cons d m ih =>
    simp only [cellsErase] at h
    split at h
    · exact List.mem_cons_of_mem _ h
    · rcases List.mem_cons.mp h with h | h
      · simp [h]
      · exact List.mem_cons_of_mem _ (ih h)

/-- A write keeps the canonical form. -/
theorem cellsSorted_put {m : List (Nat × α)} (hs : cellsSorted m) (a : Nat) (x : α) : cellsSorted (cellsPut m a x) := by
  induction m with
  | nil => simp [cellsPut, cellsSorted]
  | cons c m ih =>
    obtain ⟨k, v⟩ := c
    have hs' := List.pairwise_cons.mp hs
    simp only [cellsPut]
    split
    · next h =>
      refine List.pairwise_cons.mpr ⟨?_, hs⟩
      intro d hd
      rcases List.mem_cons.mp hd with hd | hd
      · simpa [hd] using h
      · exact Nat.lt_trans h (hs'.1 d hd)
    · split
      · next h =>
        subst h
        exact List.pairwise_cons.mpr ⟨hs'.1, hs'.2⟩
      · refine List.pairwise_cons.mpr ⟨?_, ih hs'.2⟩
        intro d hd
        rcases mem_cellsPut hd with hd | hd
        · simp only [hd]; omega
        · exact hs'.1 d hd

/-- A removal keeps the canonical form. -/
theorem cellsSorted_erase {m : List (Nat × α)} (hs : cellsSorted m) (a : Nat) : cellsSorted (cellsErase m a) := by
  induction m with
  | nil => simp [cellsErase, cellsSorted]
  | cons c m ih =>
    obtain ⟨k, v⟩ := c
    have hs' := List.pairwise_cons.mp hs
    simp only [cellsErase]
    split
    · exact hs'.2
    · exact List.pairwise_cons.mpr ⟨fun d hd => hs'.1 d (mem_cellsErase hd), ih hs'.2⟩

/-- In canonical form equal contents are equal data. -/
theorem cells_ext {m n : List (Nat × α)} (hm : cellsSorted m) (hn : cellsSorted n)
    (h : ∀ a, cellsGet m a = cellsGet n a) : m = n := by
  induction m generalizing n with
  | nil =>
    cases n with
    | nil => rfl
    | cons d n => have := h d.1; simp [cellsGet] at this
  | cons c m ih =>
    obtain ⟨k, v⟩ := c
    have hm' := List.pairwise_cons.mp hm
    cases n with
    | nil => have := h k; simp [cellsGet] at this
    | cons d n =>
      obtain ⟨j, w⟩ := d
      have hn' := List.pairwise_cons.mp hn
      have hkj : k = j := by
        rcases Nat.lt_trichotomy k j with hlt | heq | hgt
        · have h1 := h k
          have h2 : cellsGet ((j, w) :: n) k = none := cellsGet_none_of_lt (by
            intro e he
            rcases List.mem_cons.mp he with he | he
            · simpa [he] using hlt
            · exact Nat.lt_trans hlt (hn'.1 e he))
          rw [h2] at h1
          simp [cellsGet] at h1
        · exact heq
        · have h1 := h j
          have h2 : cellsGet ((k, v) :: m) j = none := cellsGet_none_of_lt (by
            intro e he
            rcases List.mem_cons.mp he with he | he
            · simpa [he] using hgt
            · exact Nat.lt_trans hgt (hm'.1 e he))
          rw [h2] at h1
          simp [cellsGet] at h1
      subst hkj
      have hvw : v = w := by have h1 := h k; simpa [cellsGet] using h1
      subst hvw
      congr 1
      refine ih hm'.2 hn'.2 fun a => ?_
      have h1 := h a
      simp only [cellsGet] at h1
      split at h1
      · next ha =>
        subst ha
        rw [cellsGet_none_of_lt hm'.1, cellsGet_none_of_lt hn'.1]
      · exact h1

/-! ## Guest memory -/

theorem Memory.wf_iff (m : Memory) : Memory.wf m = true ↔ cellsSorted m ∧ ∀ c ∈ m, c.1 < 2 ^ 32 := by
  simp [Memory.wf]

theorem Memory.wf_nil : Memory.wf [] = true := by decide

/-- A guest store keeps the canonical form. -/
theorem Memory.wf_store {m : Memory} (h : Memory.wf m = true) (a : Addr) (b : Byte) :
    Memory.wf (storeByte m a b) = true := by
  rw [Memory.wf_iff] at h ⊢
  refine ⟨cellsSorted_put h.1 _ _, fun c hc => ?_⟩
  rcases mem_cellsPut hc with hc | hc
  · simp only [hc]; exact a.isLt
  · exact h.2 c hc

/-- Unmapping keeps the canonical form. -/
theorem Memory.wf_unmap {m : Memory} (h : Memory.wf m = true) (a : Addr) : Memory.wf (unmapByte m a) = true := by
  rw [Memory.wf_iff] at h ⊢
  exact ⟨cellsSorted_erase h.1 _, fun c hc => h.2 c (mem_cellsErase hc)⟩

/-- Reading after a guest store. -/
theorem byteAt_store (m : Memory) (a a' : Addr) (b : Byte) :
    byteAt (storeByte m a b) a' = if a' = a then some b else byteAt m a' := by
  simp [byteAt, storeByte, cellsGet_put, BitVec.toNat_inj]

/-- Reading after an address was unmapped. -/
theorem byteAt_unmap {m : Memory} (h : Memory.wf m = true) (a a' : Addr) :
    byteAt (unmapByte m a) a' = if a' = a then none else byteAt m a' := by
  simp [byteAt, unmapByte, cellsGet_erase ((Memory.wf_iff m).mp h).1, BitVec.toNat_inj]

end Sys2Proof.Machine
end

