-- ==== Sys2Proof/Laws/Decode.lean ====
section
/-! SUPPORT. The laws of the command word (spec/30_encoding.md R90): taking apart what was put together, and the other
way, and when two words are the same. -/

namespace Sys2Proof

@[simp] theorem wordOf_op (f : Fields) : (wordOf f).extractLsb' 56 8 = f.op := by
  unfold wordOf
  rw [BitVec.extractLsb'_append_eq_of_le (by omega), BitVec.extractLsb'_append_eq_of_le (by omega),
    BitVec.extractLsb'_append_eq_of_le (by omega), BitVec.extractLsb'_append_eq_of_le (by omega),
    BitVec.extractLsb'_append_eq_of_le (by omega), BitVec.extractLsb'_eq_self]

@[simp] theorem wordOf_ch (f : Fields) : (wordOf f).extractLsb' 48 8 = f.ch := by
  unfold wordOf
  rw [BitVec.extractLsb'_append_eq_of_le (by omega), BitVec.extractLsb'_append_eq_of_le (by omega),
    BitVec.extractLsb'_append_eq_of_le (by omega), BitVec.extractLsb'_append_eq_of_le (by omega),
    BitVec.extractLsb'_append_eq_of_add_le (by omega), BitVec.extractLsb'_eq_self]

@[simp] theorem wordOf_flags (f : Fields) : (wordOf f).extractLsb' 41 7 = f.flags := by
  unfold wordOf
  rw [BitVec.extractLsb'_append_eq_of_le (by omega), BitVec.extractLsb'_append_eq_of_le (by omega),
    BitVec.extractLsb'_append_eq_of_le (by omega), BitVec.extractLsb'_append_eq_of_add_le (by omega),
    BitVec.extractLsb'_eq_self]

@[simp] theorem wordOf_b (f : Fields) : (wordOf f).extractLsb' 40 1 = f.b := by
  unfold wordOf
  rw [BitVec.extractLsb'_append_eq_of_le (by omega), BitVec.extractLsb'_append_eq_of_le (by omega),
    BitVec.extractLsb'_append_eq_of_add_le (by omega), BitVec.extractLsb'_eq_self]

@[simp] theorem wordOf_rsv (f : Fields) : (wordOf f).extractLsb' 32 8 = f.rsv := by
  unfold wordOf
  rw [BitVec.extractLsb'_append_eq_of_le (by omega), BitVec.extractLsb'_append_eq_of_add_le (by omega),
    BitVec.extractLsb'_eq_self]

@[simp] theorem wordOf_imm (f : Fields) : (wordOf f).extractLsb' 0 32 = f.imm := by
  unfold wordOf
  rw [BitVec.extractLsb'_append_eq_of_add_le (by omega), BitVec.extractLsb'_eq_self]

/-- No bit of a field is dropped. -/
@[simp] theorem fieldsOf_wordOf (f : Fields) : fieldsOf (wordOf f) = f := by
  simp [fieldsOf]

/-- Bit by bit, a word is its fields. -/
theorem getLsbD_wordOf (f : Fields) (i : Nat) :
    (wordOf f).getLsbD i =
      if i < 32 then f.imm.getLsbD i
      else if i < 40 then f.rsv.getLsbD (i - 32)
      else if i < 41 then f.b.getLsbD (i - 40)
      else if i < 48 then f.flags.getLsbD (i - 41)
      else if i < 56 then f.ch.getLsbD (i - 48)
      else f.op.getLsbD (i - 56) := by
  unfold wordOf
  rw [BitVec.getLsbD_append, BitVec.getLsbD_append, BitVec.getLsbD_append, BitVec.getLsbD_append,
    BitVec.getLsbD_append]
  split_ifs <;> first | rfl | omega

/-- A word is put together again from its fields. -/
@[simp] theorem wordOf_fieldsOf (w : Command) : wordOf (fieldsOf w) = w := by
  refine BitVec.eq_of_getLsbD_eq fun i hi => ?_
  rw [getLsbD_wordOf]
  simp only [fieldsOf, BitVec.getLsbD_extractLsb']
  split
  · simp [*]
  · split
    · rw [show 32 + (i - 32) = i by omega]; simp; omega
    · split
      · rw [show 40 + (i - 40) = i by omega]; simp; omega
      · split
        · rw [show 41 + (i - 41) = i by omega]; simp; omega
        · split
          · rw [show 48 + (i - 48) = i by omega]; simp; omega
          · rw [show 56 + (i - 56) = i by omega]; simp; omega

/-- A word with its reserved fields zero decodes as its fields do (R97 (c)). -/
theorem decode_wordOf {f : Fields} (hf : f.flags = 0#7) (hr : f.rsv = 0#8) : decode (wordOf f) = decodeFields f := by
  simp [decode, hf, hr]

theorem decode_ok_reserved {w : Command} {i : Instr} (h : decode w = .ok i) :
    (fieldsOf w).flags = 0#7 ∧ (fieldsOf w).rsv = 0#8 ∧ decodeFields (fieldsOf w) = .ok i := by
  unfold decode at h
  simp only [] at h
  split at h
  · cases h
  · split at h
    · cases h
    · exact ⟨by simpa using ‹¬ (fieldsOf w).flags ≠ 0#7›, by simpa using ‹¬ (fieldsOf w).rsv ≠ 0#8›, h⟩

/-- Two words with the same fields are the same. -/
theorem wordOf_inj {f g : Fields} : wordOf f = wordOf g ↔ f = g :=
  ⟨fun h => by rw [← fieldsOf_wordOf f, h, fieldsOf_wordOf], fun h => by rw [h]⟩

/-- A mask acts on each field on its own. -/
theorem wordOf_and (f g : Fields) :
    wordOf f &&& wordOf g =
      wordOf { op := f.op &&& g.op, ch := f.ch &&& g.ch, flags := f.flags &&& g.flags, b := f.b &&& g.b,
               rsv := f.rsv &&& g.rsv, imm := f.imm &&& g.imm } := by
  refine BitVec.eq_of_getLsbD_eq fun i _ => ?_
  rw [BitVec.getLsbD_and, getLsbD_wordOf, getLsbD_wordOf, getLsbD_wordOf]
  simp only [BitVec.getLsbD_and]
  split_ifs <;> rfl

/-! ## What a decoded instruction says of the fields -/

theorem bit_cases (b : BitVec 1) : b = 0#1 ∨ b = 1#1 := by revert b; decide

theorem extract_one_cases {x : BitVec 32} (h : x.extractLsb' 1 31 = 0#31) : x = 0#32 ∨ x = 1#32 := by
  have h0 := congrArg BitVec.toNat h
  simp only [BitVec.extractLsb'_toNat, Nat.shiftRight_eq_div_pow, BitVec.toNat_ofNat] at h0
  have hx := x.isLt
  have : x.toNat = 0 ∨ x.toNat = 1 := by omega
  rcases this with h | h
  · left; apply BitVec.eq_of_toNat_eq; simpa using h
  · right; apply BitVec.eq_of_toNat_eq; simpa using h

theorem setWidth_extract_gain {x : BitVec 32} (h : x.extractLsb' 17 15 = 0#15) :
    (x.extractLsb' 0 17).setWidth 32 = x := by
  have h0 := congrArg BitVec.toNat h
  simp only [BitVec.extractLsb'_toNat, Nat.shiftRight_eq_div_pow, BitVec.toNat_ofNat] at h0
  have hx := x.isLt
  apply BitVec.eq_of_toNat_eq; simp; omega

theorem setWidth_extract_two {x : BitVec 32} (h : x.extractLsb' 2 30 = 0#30) :
    (x.extractLsb' 0 2).setWidth 32 = x := by
  have h0 := congrArg BitVec.toNat h
  simp only [BitVec.extractLsb'_toNat, Nat.shiftRight_eq_div_pow, BitVec.toNat_ofNat] at h0
  have hx := x.isLt
  apply BitVec.eq_of_toNat_eq; simp; omega

@[simp] theorem extract_setWidth_gain_high (g : Gain) : (g.setWidth 32).extractLsb' 17 15 = 0#15 := by
  ext i hi; simp

@[simp] theorem extract_setWidth_gain_low (g : Gain) : (g.setWidth 32).extractLsb' 0 17 = g := by
  apply BitVec.eq_of_toNat_eq
  have := g.isLt
  simp; omega

theorem plain_ok {f : Fields} {i j : Instr} (h : plain f i = .ok j) : i = j ∧ f.b = 0#1 ∧ f.ch = 0#8 := by
  unfold plain at h
  split_ifs at h with h1 h2
  cases h
  exact ⟨rfl, not_not.mp h1, not_not.mp h2⟩

theorem plainNoOperand_ok {f : Fields} {i j : Instr} (h : plainNoOperand f i = .ok j) :
    i = j ∧ f.b = 0#1 ∧ f.ch = 0#8 ∧ f.imm = 0#32 := by
  unfold plainNoOperand at h
  split_ifs at h with h1
  obtain ⟨h2, h3, h4⟩ := plain_ok h
  exact ⟨h2, h3, h4, not_not.mp h1⟩

theorem channelOp_ok {f : Fields} {i j : Instr} (h : channelOp f i = .ok j) : i = j ∧ f.b = 0#1 := by
  unfold channelOp at h
  split_ifs at h with h1
  cases h
  exact ⟨rfl, not_not.mp h1⟩

theorem bitOperand_ok {f : Fields} {i j : Instr} (h : bitOperand f i = .ok j) :
    i = j ∧ f.b = 0#1 ∧ (f.imm = 0#32 ∨ f.imm = 1#32) := by
  unfold bitOperand at h
  split_ifs at h with h1
  obtain ⟨h2, h3⟩ := channelOp_ok h
  exact ⟨h2, h3, extract_one_cases (not_not.mp h1)⟩

theorem gainOperand_ok {f : Fields} {i j : Instr} (h : gainOperand f i = .ok j) :
    i = j ∧ f.b = 0#1 ∧ (f.imm.extractLsb' 0 17).setWidth 32 = f.imm := by
  unfold gainOperand at h
  split_ifs at h with h1
  obtain ⟨h2, h3⟩ := channelOp_ok h
  exact ⟨h2, h3, setWidth_extract_gain (not_not.mp h1)⟩

/-- The fields of a word are those of the instruction it decodes to (R90, R91, R94). -/
theorem decodeFields_ok {f : Fields} {i : Instr} (h : decodeFields f = .ok i) :
    f.op = opcode i ∧ f.ch = (channelOf i).getD 0#8 ∧ f.b = blockingBitOf i ∧ f.imm = operandOf i := by
  unfold decodeFields at h
  by_cases ho : f.op = 0x01#8
  · rw [if_pos ho] at h
    split at h
    · cases h
    · next hi =>
      obtain ⟨rfl, hb, hc⟩ := plain_ok h
      exact ⟨ho, hc, hb, (setWidth_extract_two (not_not.mp hi)).symm⟩
  rw [if_neg ho] at h; clear ho
  by_cases ho : f.op = 0x02#8
  · rw [if_pos ho] at h
    obtain ⟨rfl, hb, hc, hi⟩ := plainNoOperand_ok h
    exact ⟨ho, hc, hb, hi⟩
  rw [if_neg ho] at h; clear ho
  by_cases ho : f.op = 0x03#8
  · rw [if_pos ho] at h
    obtain ⟨rfl, hb, hc, hi⟩ := plainNoOperand_ok h
    exact ⟨ho, hc, hb, hi⟩
  rw [if_neg ho] at h; clear ho
  by_cases ho : f.op = 0x04#8
  · rw [if_pos ho] at h
    obtain ⟨rfl, hb, hc⟩ := plain_ok h
    exact ⟨ho, hc, hb, rfl⟩
  rw [if_neg ho] at h; clear ho
  by_cases ho : f.op = 0x05#8
  · rw [if_pos ho] at h
    obtain ⟨rfl, hb, hc, hi⟩ := plainNoOperand_ok h
    exact ⟨ho, hc, hb, hi⟩
  rw [if_neg ho] at h; clear ho
  by_cases ho : f.op = 0x06#8
  · rw [if_pos ho] at h
    obtain ⟨rfl, hb, hc, hi⟩ := plainNoOperand_ok h
    exact ⟨ho, hc, hb, hi⟩
  rw [if_neg ho] at h; clear ho
  by_cases ho : f.op = 0x07#8
  · rw [if_pos ho] at h
    obtain ⟨rfl, hb, hc, hi⟩ := plainNoOperand_ok h
    exact ⟨ho, hc, hb, hi⟩
  rw [if_neg ho] at h; clear ho
  by_cases ho : f.op = 0x10#8
  · rw [if_pos ho] at h
    obtain ⟨rfl, hb, hi⟩ := bitOperand_ok h
    refine ⟨ho, rfl, hb, ?_⟩
    rcases hi with hi | hi <;> rw [hi] <;> rfl
  rw [if_neg ho] at h; clear ho
  by_cases ho : f.op = 0x11#8
  · rw [if_pos ho] at h
    obtain ⟨rfl, hb, hi⟩ := bitOperand_ok h
    refine ⟨ho, rfl, hb, ?_⟩
    rcases hi with hi | hi <;> rw [hi] <;> rfl
  rw [if_neg ho] at h; clear ho
  by_cases ho : f.op = 0x12#8
  · rw [if_pos ho] at h
    obtain ⟨rfl, hb⟩ := channelOp_ok h
    exact ⟨ho, rfl, hb, rfl⟩
  rw [if_neg ho] at h; clear ho
  by_cases ho : f.op = 0x13#8
  · rw [if_pos ho] at h
    obtain ⟨rfl, hb⟩ := channelOp_ok h
    exact ⟨ho, rfl, hb, rfl⟩
  rw [if_neg ho] at h; clear ho
  by_cases ho : f.op = 0x14#8
  · rw [if_pos ho] at h
    obtain ⟨rfl, hb, hi⟩ := gainOperand_ok h
    exact ⟨ho, rfl, hb, hi.symm⟩
  rw [if_neg ho] at h; clear ho
  by_cases ho : f.op = 0x15#8
  · rw [if_pos ho] at h
    obtain ⟨rfl, hb, hi⟩ := gainOperand_ok h
    exact ⟨ho, rfl, hb, hi.symm⟩
  rw [if_neg ho] at h; clear ho
  by_cases ho : f.op = 0x18#8
  · rw [if_pos ho] at h
    split at h
    · cases h
    · next hi =>
      cases h
      refine ⟨ho, rfl, ?_, not_not.mp hi⟩
      rcases bit_cases f.b with hb | hb <;> rw [hb] <;> rfl
  rw [if_neg ho] at h; clear ho
  by_cases ho : f.op = 0x19#8
  · rw [if_pos ho] at h
    split at h
    · cases h
    · next hi =>
      obtain ⟨rfl, hb⟩ := channelOp_ok h
      exact ⟨ho, rfl, hb, not_not.mp hi⟩
  rw [if_neg ho] at h; clear ho
  by_cases ho : f.op = 0x20#8
  · rw [if_pos ho] at h
    obtain ⟨rfl, hb, hc, hi⟩ := plainNoOperand_ok h
    exact ⟨ho, hc, hb, hi⟩
  rw [if_neg ho] at h; clear ho
  by_cases ho : f.op = 0x21#8
  · rw [if_pos ho] at h
    obtain ⟨rfl, hb, hc, hi⟩ := plainNoOperand_ok h
    exact ⟨ho, hc, hb, hi⟩
  rw [if_neg ho] at h; clear ho
  by_cases ho : f.op = 0x30#8
  · rw [if_pos ho] at h
    obtain ⟨rfl, hb, hc⟩ := plain_ok h
    exact ⟨ho, hc, hb, rfl⟩
  rw [if_neg ho] at h; clear ho
  cases h

end Sys2Proof
end

