-- ==== Sys2Proof/Laws/Operands.lean ====
section
/-! SUPPORT. The laws of the operand forms: clamping, the volume adjustment (spec/42_enqueue.md R160), reading samples
from guest memory (spec/20_memory.md R62, R66; R166), the accumulator (R184). -/

namespace Sys2Proof.Machine

open Sys2Proof

theorem clamp16_bounds (v : Int) : -32768 ≤ clamp16 v ∧ clamp16 v ≤ 32767 := by
  unfold clamp16; omega

theorem clamp16_of_s16 {v : Int} (h1 : -32768 ≤ v) (h2 : v ≤ 32767) : clamp16 v = v := by
  unfold clamp16; omega

theorem s16_bounds (v : S16) : -32768 ≤ v.toInt ∧ v.toInt ≤ 32767 := by
  have h1 := BitVec.le_toInt v
  have h2 := BitVec.toInt_lt (x := v)
  simp at h1 h2
  omega

/-- A clamped value survives being stored in 16 bits. -/
@[simp] theorem toInt_ofInt_clamp16 (v : Int) : (BitVec.ofInt 16 (clamp16 v)).toInt = clamp16 v := by
  have := clamp16_bounds v
  rw [BitVec.toInt_ofInt, Int.bmod_eq_of_le] <;> simp <;> omega

@[simp] theorem adjustVolume_toInt (x : S16) (vol : Int) : (adjustVolume x vol).toInt = adjustInt x.toInt vol := by
  unfold adjustVolume adjustInt; exact toInt_ofInt_clamp16 _

@[simp] theorem clampSlot_toInt (a : S32) : (clampSlot a).toInt = clamp16 a.toInt := toInt_ofInt_clamp16 _

/-! ## Reading samples -/

/-- What MemRead16 can do: both bytes are admitted and it is their little-endian value, or it names the first
address that is not. -/
theorem memRead16_eq (m : Memory) (a : Addr) :
    memRead16 m a =
      if byteAt m a = none then .error a
      else if byteAt m (a + 1#32) = none then .error (a + 1#32)
      else .ok (sampleAt m a) := by
  unfold memRead16 sampleAt
  cases byteAt m a <;> cases byteAt m (a + 1#32) <;> rfl

theorem memRead16_of_admitted {m : Memory} {a : Addr} (h0 : byteAt m a ≠ none) (h1 : byteAt m (a + 1#32) ≠ none) :
    memRead16 m a = .ok (sampleAt m a) := by
  rw [memRead16_eq, if_neg h0, if_neg h1]

/-- A failed read names an address that is not admitted. -/
theorem memRead16_error {m : Memory} {a e : Addr} (h : memRead16 m a = .error e) :
    byteAt m e = none ∧ (e = a ∨ e = a + 1#32) := by
  rw [memRead16_eq] at h
  split at h
  · cases h; exact ⟨‹_›, .inl rfl⟩
  · split at h
    · cases h; exact ⟨‹_›, .inr rfl⟩
    · cases h

theorem add_ofNat_add (a : Addr) (i j : Nat) :
    a + BitVec.ofNat 32 i + BitVec.ofNat 32 j = a + BitVec.ofNat 32 (i + j) := by
  rw [BitVec.add_assoc, ← BitVec.ofNat_add]

/-- The frames of a stereo request, all bytes admitted. -/
theorem stereoSamples_of_admitted (m : Memory) (gL gR : Int) (n : Nat) (a : Addr) (h : admitted m a (4 * n)) :
    stereoSamples m gL gR n a = .ok ((List.range n).flatMap fun i =>
      [adjustVolume (sampleAt m (a + BitVec.ofNat 32 (4 * i))) gL,
       adjustVolume (sampleAt m (a + BitVec.ofNat 32 (4 * i + 2))) gR]) := by
  induction n generalizing a with
  | zero => rfl
  | succ n ih =>
    have h0 := h 0 (by omega)
    have h1 := h 1 (by omega)
    have h2 := h 2 (by omega)
    have h3 := h 3 (by omega)
    rw [show (BitVec.ofNat 32 0) = 0#32 from rfl, BitVec.add_zero] at h0
    have h3' : byteAt m (a + 2#32 + 1#32) ≠ none := by
      rw [show (2#32) = BitVec.ofNat 32 2 from rfl, show (1#32) = BitVec.ofNat 32 1 from rfl, add_ofNat_add]; exact h3
    have hr : admitted m (a + 4#32) (4 * n) := by
      intro i hi
      rw [show (4#32) = BitVec.ofNat 32 4 from rfl, add_ofNat_add]; exact h _ (by omega)
    unfold stereoSamples
    rw [memRead16_of_admitted h0 h1]
    simp only []
    rw [memRead16_of_admitted h2 h3']
    simp only []
    rw [ih _ hr]
    simp only []
    rw [List.range_succ_eq_map, List.flatMap_cons, List.flatMap_map]
    have e : ∀ i j : Nat, a + 4#32 + BitVec.ofNat 32 (4 * i + j) = a + BitVec.ofNat 32 (4 * (i + 1) + j) := by
      intro i j; rw [show (4#32) = BitVec.ofNat 32 4 from rfl, add_ofNat_add]; congr 2; omega
    have e0 : ∀ i : Nat, a + 4#32 + BitVec.ofNat 32 (4 * i) = a + BitVec.ofNat 32 (4 * (i + 1)) := by
      intro i; simpa using e i 0
    simp [e, e0]

/-- The frames of a mono request, all bytes admitted. -/
theorem monoSamples_of_admitted (m : Memory) (gL gR : Int) (n : Nat) (a : Addr) (h : admitted m a (2 * n)) :
    monoSamples m gL gR n a = .ok ((List.range n).flatMap fun i =>
      [adjustVolume (sampleAt m (a + BitVec.ofNat 32 (2 * i))) gL,
       adjustVolume (sampleAt m (a + BitVec.ofNat 32 (2 * i))) gR]) := by
  induction n generalizing a with
  | zero => rfl
  | succ n ih =>
    have h0 := h 0 (by omega)
    have h1 := h 1 (by omega)
    rw [show (BitVec.ofNat 32 0) = 0#32 from rfl, BitVec.add_zero] at h0
    have hr : admitted m (a + 2#32) (2 * n) := by
      intro i hi
      rw [show (2#32) = BitVec.ofNat 32 2 from rfl, add_ofNat_add]; exact h _ (by omega)
    unfold monoSamples
    rw [memRead16_of_admitted h0 h1]
    simp only []
    rw [ih _ hr]
    simp only []
    rw [List.range_succ_eq_map, List.flatMap_cons, List.flatMap_map]
    have e0 : ∀ i : Nat, a + 2#32 + BitVec.ofNat 32 (2 * i) = a + BitVec.ofNat 32 (2 * (i + 1)) := by
      intro i; rw [show (2#32) = BitVec.ofNat 32 2 from rfl, add_ofNat_add]; congr 2; omega
    simp [e0]

/-- A stereo request that fails names an address of its range that is not admitted, the first one. -/
theorem stereoSamples_error {m : Memory} {gL gR : Int} {n : Nat} {a e : Addr}
    (h : stereoSamples m gL gR n a = .error e) :
    byteAt m e = none ∧ ∃ i, i < 4 * n ∧ e = a + BitVec.ofNat 32 i ∧ admitted m a i := by
  induction n generalizing a with
  | zero => cases h
  | succ n ih =>
    unfold stereoSamples at h
    rw [memRead16_eq] at h
    have b0 : a + BitVec.ofNat 32 0 = a := by simp
    by_cases h0 : byteAt m a = none
    · rw [if_pos h0] at h; cases h
      exact ⟨h0, 0, by omega, b0.symm, fun i hi => by omega⟩
    rw [if_neg h0] at h
    by_cases h1 : byteAt m (a + 1#32) = none
    · rw [if_pos h1] at h; cases h
      refine ⟨h1, 1, by omega, rfl, fun i hi => ?_⟩
      obtain rfl : i = 0 := by omega
      rwa [b0]
    rw [if_neg h1] at h
    simp only [] at h
    rw [memRead16_eq] at h
    by_cases h2 : byteAt m (a + 2#32) = none
    · rw [if_pos h2] at h; cases h
      refine ⟨h2, 2, by omega, rfl, fun i hi => ?_⟩
      obtain rfl | rfl : i = 0 ∨ i = 1 := by omega
      · rwa [b0]
      · exact h1
    rw [if_neg h2] at h
    have e3 : a + 2#32 + 1#32 = a + BitVec.ofNat 32 3 := by
      rw [show (2#32) = BitVec.ofNat 32 2 from rfl, show (1#32) = BitVec.ofNat 32 1 from rfl, add_ofNat_add]
    by_cases h3 : byteAt m (a + 2#32 + 1#32) = none
    · rw [if_pos h3] at h; cases h
      refine ⟨h3, 3, by omega, e3, fun i hi => ?_⟩
      obtain rfl | rfl | rfl : i = 0 ∨ i = 1 ∨ i = 2 := by omega
      · rwa [b0]
      · exact h1
      · exact h2
    rw [if_neg h3] at h
    simp only [] at h
    cases hr : stereoSamples m gL gR n (a + 4#32) with
    | ok rest => rw [hr] at h; cases h
    | error e' =>
      rw [hr] at h; cases h
      obtain ⟨hb, i, hi, he, had⟩ := ih hr
      refine ⟨hb, i + 4, by omega, ?_, fun j hj => ?_⟩
      · rw [he, show (4#32) = BitVec.ofNat 32 4 from rfl, add_ofNat_add, Nat.add_comm]
      · rcases Nat.lt_or_ge j 4 with hj4 | hj4
        · obtain rfl | rfl | rfl | rfl : j = 0 ∨ j = 1 ∨ j = 2 ∨ j = 3 := by omega
          · rwa [b0]
          · exact h1
          · exact h2
          · rwa [← e3]
        · have := had (j - 4) (by omega)
          rw [show (4#32) = BitVec.ofNat 32 4 from rfl, add_ofNat_add] at this
          rwa [show 4 + (j - 4) = j by omega] at this

/-- A mono request that fails names an address of its range that is not admitted, the first one. -/
theorem monoSamples_error {m : Memory} {gL gR : Int} {n : Nat} {a e : Addr}
    (h : monoSamples m gL gR n a = .error e) :
    byteAt m e = none ∧ ∃ i, i < 2 * n ∧ e = a + BitVec.ofNat 32 i ∧ admitted m a i := by
  induction n generalizing a with
  | zero => cases h
  | succ n ih =>
    unfold monoSamples at h
    rw [memRead16_eq] at h
    have b0 : a + BitVec.ofNat 32 0 = a := by simp
    by_cases h0 : byteAt m a = none
    · rw [if_pos h0] at h; cases h
      exact ⟨h0, 0, by omega, b0.symm, fun i hi => by omega⟩
    rw [if_neg h0] at h
    by_cases h1 : byteAt m (a + 1#32) = none
    · rw [if_pos h1] at h; cases h
      refine ⟨h1, 1, by omega, rfl, fun i hi => ?_⟩
      obtain rfl : i = 0 := by omega
      rwa [b0]
    rw [if_neg h1] at h
    simp only [] at h
    cases hr : monoSamples m gL gR n (a + 2#32) with
    | ok rest => rw [hr] at h; cases h
    | error e' =>
      rw [hr] at h; cases h
      obtain ⟨hb, i, hi, he, had⟩ := ih hr
      refine ⟨hb, i + 2, by omega, ?_, fun j hj => ?_⟩
      · rw [he, show (2#32) = BitVec.ofNat 32 2 from rfl, add_ofNat_add, Nat.add_comm]
      · rcases Nat.lt_or_ge j 2 with hj2 | hj2
        · obtain rfl | rfl : j = 0 ∨ j = 1 := by omega
          · rwa [b0]
          · exact h1
        · have := had (j - 2) (by omega)
          rw [show (2#32) = BitVec.ofNat 32 2 from rfl, add_ofNat_add] at this
          rwa [show 2 + (j - 2) = j by omega] at this

/-- With every byte admitted the data path's elements are those of R166. -/
theorem scaledSamples_of_admitted {m : Memory} {k : Channel} (h : admitted m k.sampleAddress (bytesRead k)) :
    scaledSamples m k = .ok (specSamples m k) := by
  unfold scaledSamples specSamples
  unfold bytesRead at h
  cases hf : k.format <;> rw [hf] at h <;> simp only [] at h ⊢
  · exact stereoSamples_of_admitted _ _ _ _ _ h
  · exact monoSamples_of_admitted _ _ _ _ _ h

/-- The data path fails only at the first address of its range that is not admitted (R66, R247). -/
theorem scaledSamples_error {m : Memory} {k : Channel} {e : Addr} (h : scaledSamples m k = .error e) :
    byteAt m e = none ∧ ∃ i, i < bytesRead k ∧ e = k.sampleAddress + BitVec.ofNat 32 i
      ∧ admitted m k.sampleAddress i := by
  unfold scaledSamples at h
  unfold bytesRead
  cases hf : k.format <;> rw [hf] at h
  · exact stereoSamples_error h
  · exact monoSamples_error h

@[simp] theorem specSamples_length (m : Memory) (k : Channel) :
    (specSamples m k).length = 2 * k.sampleCount.toNat := by
  unfold specSamples
  cases k.format <;> simp [List.length_flatMap, Nat.mul_comm]

/-- A stereo request that is answered had all its bytes admitted. -/
theorem stereoSamples_ok {m : Memory} {gL gR : Int} {n : Nat} {a : Addr} {vs : List S16}
    (h : stereoSamples m gL gR n a = .ok vs) : admitted m a (4 * n) := by
  induction n generalizing a vs with
  | zero => exact fun i hi => by omega
  | succ n ih =>
    unfold stereoSamples at h
    simp only [memRead16_eq] at h
    by_cases h0 : byteAt m a = none
    · simp [h0] at h
    by_cases h1 : byteAt m (a + 1#32) = none
    · simp [h0, h1] at h
    by_cases h2 : byteAt m (a + 2#32) = none
    · simp [h0, h1, h2] at h
    by_cases h3 : byteAt m (a + 2#32 + 1#32) = none
    · simp [h0, h1, h2, h3] at h
    simp only [h0, h1, h2, h3, if_false] at h
    cases hr : stereoSamples m gL gR n (a + 4#32) with
    | error e => rw [hr] at h; cases h
    | ok rest =>
      intro j hj
      rcases Nat.lt_or_ge j 4 with hj4 | hj4
      · obtain rfl | rfl | rfl | rfl : j = 0 ∨ j = 1 ∨ j = 2 ∨ j = 3 := by omega
        · simpa using h0
        · exact h1
        · exact h2
        · rwa [show (2#32) = BitVec.ofNat 32 2 from rfl, show (1#32) = BitVec.ofNat 32 1 from rfl, add_ofNat_add] at h3
      · have := ih hr (j - 4) (by omega)
        rw [show (4#32) = BitVec.ofNat 32 4 from rfl, add_ofNat_add] at this
        rwa [show 4 + (j - 4) = j by omega] at this

/-- A mono request that is answered had all its bytes admitted. -/
theorem monoSamples_ok {m : Memory} {gL gR : Int} {n : Nat} {a : Addr} {vs : List S16}
    (h : monoSamples m gL gR n a = .ok vs) : admitted m a (2 * n) := by
  induction n generalizing a vs with
  | zero => exact fun i hi => by omega
  | succ n ih =>
    unfold monoSamples at h
    simp only [memRead16_eq] at h
    by_cases h0 : byteAt m a = none
    · simp [h0] at h
    by_cases h1 : byteAt m (a + 1#32) = none
    · simp [h0, h1] at h
    simp only [h0, h1, if_false] at h
    cases hr : monoSamples m gL gR n (a + 2#32) with
    | error e => rw [hr] at h; cases h
    | ok rest =>
      intro j hj
      rcases Nat.lt_or_ge j 2 with hj2 | hj2
      · obtain rfl | rfl : j = 0 ∨ j = 1 := by omega
        · simpa using h0
        · exact h1
      · have := ih hr (j - 2) (by omega)
        rw [show (2#32) = BitVec.ofNat 32 2 from rfl, add_ofNat_add] at this
        rwa [show 2 + (j - 2) = j by omega] at this

/-- What the data path answers, if it answers: every byte was admitted, and the elements are those of R166. -/
theorem scaledSamples_ok {m : Memory} {k : Channel} {vs : List S16} (h : scaledSamples m k = .ok vs) :
    admitted m k.sampleAddress (bytesRead k) ∧ vs = specSamples m k := by
  have had : admitted m k.sampleAddress (bytesRead k) := by
    unfold bytesRead
    unfold scaledSamples at h
    cases hf : k.format <;> rw [hf] at h
    · exact stereoSamples_ok h
    · exact monoSamples_ok h
  rw [scaledSamples_of_admitted had] at h
  exact ⟨had, (Except.ok.inj h).symm⟩

/-! ## The accumulator -/

@[simp] theorem addInto_length (vs : List S16) (as : List S32) : (addInto vs as).length = as.length := by
  induction as generalizing vs with
  | nil => cases vs <;> rfl
  | cons a as ih => cases vs <;> simp [addInto, ih]

/-- Slot by slot (R184, R188). -/
theorem addInto_getElem? (vs : List S16) (as : List S32) (i : Nat) :
    (addInto vs as)[i]? = (as[i]?).map fun a => match vs[i]? with
      | some v => a + v.signExtend 32
      | none => a := by
  induction as generalizing vs i with
  | nil => cases vs <;> simp [addInto]
  | cons a as ih =>
    cases vs with
    | nil => simp [addInto]
    | cons v vs => cases i <;> simp [addInto, ih]

end Sys2Proof.Machine
end

