-- ==== Sys2Proof/Laws/Ring.lean ====
section
/-! SUPPORT. The laws of the ring primitives (spec/40_ring_buffer.md): when they answer, what they answer, and that
the invariant of R120 and whole frames (R26) are kept. -/

namespace Sys2Proof.Machine

open Sys2Proof

/-- The invariant of R120, clause by clause. -/
theorem ringWf_iff (cap : Nat) (q : Ring) :
    ringWf cap q = true ↔ q.storage.length = cap ∧ q.count ≤ cap ∧ q.head < cap ∧ q.tail < cap
      ∧ (q.head + q.count) % cap = q.tail := by
  simp [ringWf, and_assoc]

theorem ringEven_iff (q : Ring) :
    ringEven q = true ↔ q.head % 2 = 0 ∧ q.tail % 2 = 0 ∧ q.count % 2 = 0 := by
  simp [ringEven, and_assoc]

@[simp] theorem ringContents_length (cap : Nat) (q : Ring) : (ringContents cap q).length = q.count := by
  simp [ringContents]

/-- The k-th oldest element (R120). -/
theorem ringContents_getElem? (cap : Nat) (q : Ring) {k : Nat} (h : k < q.count) :
    (ringContents cap q)[k]? = some (q.storage.getD ((q.head + k) % cap) 0#16) := by
  simp [ringContents, h]

/-! ## Spans -/

theorem writeSpan_length {st vs : List S16} {i : Nat} (h : i + vs.length ≤ st.length) :
    (writeSpan st i vs).length = st.length := by
  simp [writeSpan]; omega

theorem writeSpan_getElem? {st vs : List S16} {i : Nat} (h : i + vs.length ≤ st.length) (j : Nat) :
    (writeSpan st i vs)[j]? = if i ≤ j ∧ j < i + vs.length then vs[j - i]? else st[j]? := by
  have hi : min i st.length = i := by omega
  simp only [writeSpan, List.getElem?_append, List.length_append, List.length_take, hi, List.getElem?_take,
    List.getElem?_drop]
  split
  · split
    · split
      · omega
      · simp [*]
    · split
      · rfl
      · omega
  · split
    · omega
    · congr 1; omega

/-- The two spans of a push, slot by slot: `storage[(tail + i) mod C] <- vs[i]` (R122). -/
theorem twoSpans_getElem? {cap tail : Nat} {st vs : List S16} (hst : st.length = cap) (ht : tail < cap)
    (hn : vs.length ≤ cap) (j : Nat) (hj : j < cap) :
    (writeSpan (writeSpan st tail (vs.take (min vs.length (cap - tail)))) 0 (vs.drop (min vs.length (cap - tail))))[j]?
      = if (j + cap - tail) % cap < vs.length then vs[(j + cap - tail) % cap]? else st[j]? := by
  have h1 : tail + (vs.take (min vs.length (cap - tail))).length ≤ st.length := by simp; omega
  have h2 : 0 + (vs.drop (min vs.length (cap - tail))).length
      ≤ (writeSpan st tail (vs.take (min vs.length (cap - tail)))).length := by
    rw [writeSpan_length h1]; simp; omega
  rw [writeSpan_getElem? h2, writeSpan_getElem? h1]
  simp only [List.length_drop, List.length_take, List.getElem?_drop, List.getElem?_take, Nat.zero_le, true_and,
    Nat.zero_add, Nat.sub_zero]
  rcases Nat.lt_or_ge j tail with hlt | hge
  · have hm : (j + cap - tail) % cap = j + cap - tail := Nat.mod_eq_of_lt (by omega)
    rw [hm]
    by_cases hw : j < vs.length - min vs.length (cap - tail)
    · rw [if_pos hw, if_pos (by omega)]; congr 1; omega
    · rw [if_neg hw, if_neg (by omega), if_neg (by omega)]
  · have hm : (j + cap - tail) % cap = j - tail := by
      rw [show j + cap - tail = (j - tail) + cap by omega, Nat.add_mod_right, Nat.mod_eq_of_lt (by omega)]
    rw [hm, if_neg (by omega)]
    by_cases hw : j - tail < vs.length
    · rw [if_pos (by omega), if_pos (by omega), if_pos hw]
    · rw [if_neg (by omega), if_neg hw]

/-! ## Push -/

/-- `RB.pushN` answers exactly when there is room (R122). -/
theorem pushN_ok_iff (cap : Nat) (q : Ring) (vs : List S16) :
    (∃ q', pushN cap q vs = .ok q') ↔ vs.length ≤ ringFree cap q := by
  unfold pushN ringFree
  split <;> simp [*]

theorem pushN_error_iff (cap : Nat) (q : Ring) (vs : List S16) :
    pushN cap q vs = .error .overflow ↔ ringFree cap q < vs.length := by
  unfold pushN ringFree
  split <;> simp <;> omega

theorem pushN_cursors {cap : Nat} {q q' : Ring} {vs : List S16} (h : pushN cap q vs = .ok q') :
    vs.length ≤ cap - q.count ∧ q'.head = q.head ∧ q'.tail = (q.tail + vs.length) % cap
      ∧ q'.count = q.count + vs.length
      ∧ q'.storage = writeSpan (writeSpan q.storage q.tail (vs.take (min vs.length (cap - q.tail)))) 0
          (vs.drop (min vs.length (cap - q.tail))) := by
  unfold pushN at h
  split at h
  · next hn => cases h; exact ⟨hn, rfl, rfl, rfl, rfl⟩
  · cases h

theorem pushN_storage_length {cap : Nat} {q q' : Ring} {vs : List S16} (hst : q.storage.length = cap)
    (ht : q.tail < cap) (h : pushN cap q vs = .ok q') : q'.storage.length = cap := by
  obtain ⟨hn, -, -, -, hs⟩ := pushN_cursors h
  have h1 : q.tail + (vs.take (min vs.length (cap - q.tail))).length ≤ q.storage.length := by simp; omega
  rw [hs, writeSpan_length, writeSpan_length h1, hst]
  rw [writeSpan_length h1]; simp; omega

/-- A push keeps the invariant of R120. -/
theorem pushN_wf {cap : Nat} {q q' : Ring} {vs : List S16} (hw : ringWf cap q = true)
    (h : pushN cap q vs = .ok q') : ringWf cap q' = true := by
  rw [ringWf_iff] at hw ⊢
  obtain ⟨hst, hc, hh, ht, hm⟩ := hw
  obtain ⟨hn, h1, h2, h3, -⟩ := pushN_cursors h
  refine ⟨pushN_storage_length hst ht h, by omega, by omega, by rw [h2]; exact Nat.mod_lt _ (by omega), ?_⟩
  rw [h1, h2, h3, ← hm, Nat.mod_add_mod]
  congr 1; omega

/-- A push appends to the live region (R122, R127). -/
theorem pushN_contents {cap : Nat} {q q' : Ring} {vs : List S16} (hw : ringWf cap q = true)
    (h : pushN cap q vs = .ok q') : ringContents cap q' = ringContents cap q ++ vs := by
  obtain ⟨hst, hc, hh, ht, hm⟩ := (ringWf_iff cap q).mp hw
  obtain ⟨hn, h1, h2, h3, h4⟩ := pushN_cursors h
  refine List.ext_getElem? fun k => ?_
  rcases Nat.lt_or_ge k (q.count + vs.length) with hk | hk
  · rw [ringContents_getElem? cap q' (by omega), h1, List.getD_eq_getElem?_getD, h4]
    have hj : (q.head + k) % cap < cap := Nat.mod_lt _ (by omega)
    rw [twoSpans_getElem? hst ht (by omega) _ hj]
    have hcap : 0 < cap := by omega
    -- the slot's distance from the tail
    have hd : ((q.head + k) % cap + cap - q.tail) % cap = (k + cap - q.count) % cap := by
      have e1 : (q.head + k) % cap + cap - q.tail = (q.head + k) % cap + (cap - q.tail) := by omega
      rw [e1, Nat.mod_add_mod]
      have e2 : (q.head + q.count) % cap = q.head + q.count ∨ 
          (cap ≤ q.head + q.count ∧ (q.head + q.count) % cap = q.head + q.count - cap) := by
        rcases Nat.lt_or_ge (q.head + q.count) cap with h | h
        · exact .inl (Nat.mod_eq_of_lt h)
        · right; refine ⟨h, ?_⟩; rw [Nat.mod_eq_sub_mod h, Nat.mod_eq_of_lt (by omega)]
      rcases e2 with e2 | ⟨e2', e2⟩
      · congr 1; omega
      · rw [show q.head + k + (cap - q.tail) = (k + cap - q.count) + cap by omega, Nat.add_mod_right]
    rw [hd]
    rcases Nat.lt_or_ge k q.count with hk' | hk'
    · have e3 : (k + cap - q.count) % cap = k + cap - q.count := Nat.mod_eq_of_lt (by omega)
      rw [e3, if_neg (by omega), List.getElem?_append_left (by simpa using hk'),
        ringContents_getElem? cap q hk', List.getD_eq_getElem?_getD]
    · have e3 : (k + cap - q.count) % cap = k - q.count := by
        rw [show k + cap - q.count = (k - q.count) + cap by omega, Nat.add_mod_right, Nat.mod_eq_of_lt (by omega)]
      rw [e3, if_pos (by omega), List.getElem?_append_right (by simpa using hk'), ringContents_length]
      have hlt : k - q.count < vs.length := by omega
      simp [List.getElem?_eq_getElem hlt]
  · rw [List.getElem?_eq_none (by simp; omega), List.getElem?_eq_none (by simp; omega)]

theorem pushN_even {cap : Nat} {q q' : Ring} {vs : List S16} (hcap : cap % 2 = 0) (he : ringEven q = true)
    (hv : vs.length % 2 = 0) (h : pushN cap q vs = .ok q') : ringEven q' = true := by
  rw [ringEven_iff] at he ⊢
  obtain ⟨-, h1, h2, h3, -⟩ := pushN_cursors h
  refine ⟨by omega, ?_, by omega⟩
  rw [h2, Nat.mod_mod_of_dvd _ (Nat.dvd_of_mod_eq_zero hcap)]; omega

/-! ## Pop -/

/-- `RB.popN` answers exactly when that many elements are held (R123). -/
theorem popN_ok_iff (cap : Nat) (q : Ring) (n : Nat) : (∃ r, popN cap q n = .ok r) ↔ n ≤ q.count := by
  unfold popN
  split <;> simp [*]

theorem popN_error_iff (cap : Nat) (q : Ring) (n : Nat) :
    popN cap q n = .error .underflow ↔ q.count < n := by
  unfold popN
  split <;> simp <;> omega

theorem popN_cursors {cap : Nat} {q q' : Ring} {n : Nat} {vs : List S16} (h : popN cap q n = .ok (vs, q')) :
    n ≤ q.count ∧ vs = readSpans cap q n
      ∧ q' = { q with head := (q.head + n) % cap, count := q.count - n } := by
  unfold popN at h
  split at h
  · next hn => cases h; exact ⟨hn, rfl, rfl⟩
  · cases h

/-- What the pop reads, slot by slot: `storage[(head + i) mod C]` (R123). -/
theorem readSpans_eq {cap : Nat} {q : Ring} (hw : ringWf cap q = true) {n : Nat} (hn : n ≤ q.count) :
    readSpans cap q n = (ringContents cap q).take n := by
  obtain ⟨hst, hc, hh, ht, hm⟩ := (ringWf_iff cap q).mp hw
  refine List.ext_getElem? fun k => ?_
  rcases Nat.lt_or_ge k n with hk | hk
  · rw [List.getElem?_take, if_pos hk, ringContents_getElem? cap q (by omega), List.getD_eq_getElem?_getD]
    simp only [readSpans, List.getElem?_append, List.length_take, List.length_drop, List.getElem?_take,
      List.getElem?_drop, hst]
    have hcap : 0 < cap := by omega
    rcases Nat.lt_or_ge (q.head + k) cap with hlt | hge
    · rw [if_pos (by omega), if_pos (by omega), Nat.mod_eq_of_lt hlt, List.getElem?_eq_getElem (by omega)]; rfl
    · rw [if_neg (by omega), if_pos (by omega), Nat.mod_eq_sub_mod hge, Nat.mod_eq_of_lt (by omega),
        List.getElem?_eq_getElem (by omega), List.getElem?_eq_getElem (by omega)]
      simp only [Option.getD_some, Option.some.injEq]
      congr 1; omega
  · rw [List.getElem?_eq_none, List.getElem?_eq_none]
    · simp; omega
    · simp only [readSpans, List.length_append, List.length_take, List.length_drop]; omega

theorem popN_contents {cap : Nat} {q q' : Ring} {n : Nat} {vs : List S16} (hw : ringWf cap q = true)
    (h : popN cap q n = .ok (vs, q')) :
    vs = (ringContents cap q).take n ∧ ringContents cap q' = (ringContents cap q).drop n := by
  obtain ⟨hn, hv, hq⟩ := popN_cursors h
  refine ⟨by rw [hv, readSpans_eq hw hn], ?_⟩
  obtain ⟨hst, hc, hh, ht, hm⟩ := (ringWf_iff cap q).mp hw
  refine List.ext_getElem? fun k => ?_
  rw [List.getElem?_drop]
  rcases Nat.lt_or_ge k (q.count - n) with hk | hk
  · rw [ringContents_getElem? cap q' (by rw [hq]; exact hk), ringContents_getElem? cap q (by omega), hq]
    simp only [Nat.mod_add_mod]
    congr 3; omega
  · rw [List.getElem?_eq_none (by rw [ringContents_length, hq]; exact hk),
      List.getElem?_eq_none (by rw [ringContents_length]; omega)]

/-- A pop keeps the invariant of R120. -/
theorem popN_wf {cap : Nat} {q q' : Ring} {n : Nat} {vs : List S16} (hw : ringWf cap q = true)
    (h : popN cap q n = .ok (vs, q')) : ringWf cap q' = true := by
  obtain ⟨hn, -, hq⟩ := popN_cursors h
  rw [ringWf_iff] at hw ⊢
  obtain ⟨hst, hc, hh, ht, hm⟩ := hw
  subst hq
  refine ⟨hst, by simp only; omega, Nat.mod_lt _ (by omega), ht, ?_⟩
  simp only [Nat.mod_add_mod, ← hm]
  congr 1; omega

theorem popN_even {cap : Nat} {q q' : Ring} {n : Nat} {vs : List S16} (hcap : cap % 2 = 0)
    (he : ringEven q = true) (hn : n % 2 = 0) (h : popN cap q n = .ok (vs, q')) : ringEven q' = true := by
  obtain ⟨hle, -, hq⟩ := popN_cursors h
  rw [ringEven_iff] at he ⊢
  subst hq
  refine ⟨?_, he.2.1, by simp only; omega⟩
  simp only; rw [Nat.mod_mod_of_dvd _ (Nat.dvd_of_mod_eq_zero hcap)]; omega

theorem popN_length {cap : Nat} {q q' : Ring} {n : Nat} {vs : List S16} (hw : ringWf cap q = true)
    (h : popN cap q n = .ok (vs, q')) : vs.length = n := by
  rw [(popN_contents hw h).1, List.length_take, ringContents_length]
  have := (popN_cursors h).1
  omega

@[simp] theorem popN_storage {cap : Nat} {q q' : Ring} {n : Nat} {vs : List S16}
    (h : popN cap q n = .ok (vs, q')) : q'.storage = q.storage := by
  rw [(popN_cursors h).2.2]

/-! ## Clear -/

@[simp] theorem ringClear_storage (q : Ring) : (ringClear q).storage = q.storage := rfl
@[simp] theorem ringClear_head (q : Ring) : (ringClear q).head = 0 := rfl
@[simp] theorem ringClear_tail (q : Ring) : (ringClear q).tail = 0 := rfl
@[simp] theorem ringClear_count (q : Ring) : (ringClear q).count = 0 := rfl

theorem ringClear_wf {cap : Nat} {q : Ring} (hcap : 0 < cap) (h : q.storage.length = cap) :
    ringWf cap (ringClear q) = true := by
  simp [ringWf_iff, h, hcap]

theorem ringClear_even (q : Ring) : ringEven (ringClear q) = true := by simp [ringEven_iff]

end Sys2Proof.Machine
end

