-- ==== Sys2Proof/Laws/State.lean ====
section
/-! SUPPORT. One lemma per field of State per named update, true by definition, so that no later proof unfolds a
record update. -/

namespace Sys2Proof.Machine

open Sys2Proof

/-- States that agree field by field are equal. -/
theorem State.eq_of_fields {s t : State} (h0 : s.par = t.par) (h1 : s.up = t.up) (h2 : s.chs = t.chs) (h3 : s.outq = t.outq) (h4 : s.acc = t.acc) (h5 : s.ctl = t.ctl) (h6 : s.outOvf = t.outOvf) (h7 : s.held = t.held) (h8 : s.freeCtr = t.freeCtr) (h9 : s.mem = t.mem) (h10 : s.sched = t.sched) (h11 : s.ev = t.ev) (h12 : s.queue = t.queue) (h13 : s.sig = t.sig) (h14 : s.resp = t.resp) (h15 : s.snapOut = t.snapOut) (h16 : s.calls = t.calls) : s = t := by
  cases s; cases t; cases h0; cases h1; cases h2; cases h3; cases h4; cases h5; cases h6; cases h7; cases h8; cases h9; cases h10; cases h11; cases h12; cases h13; cases h14; cases h15; cases h16; rfl

/-! ## answer -/

@[simp] theorem answer_par (st : Status) (p : Bool) (v : U32) (s : State) : (answer st p v s).par = s.par := rfl
@[simp] theorem answer_up (st : Status) (p : Bool) (v : U32) (s : State) : (answer st p v s).up = s.up := rfl
@[simp] theorem answer_chs (st : Status) (p : Bool) (v : U32) (s : State) : (answer st p v s).chs = s.chs := rfl
@[simp] theorem answer_outq (st : Status) (p : Bool) (v : U32) (s : State) : (answer st p v s).outq = s.outq := rfl
@[simp] theorem answer_acc (st : Status) (p : Bool) (v : U32) (s : State) : (answer st p v s).acc = s.acc := rfl
@[simp] theorem answer_ctl (st : Status) (p : Bool) (v : U32) (s : State) : (answer st p v s).ctl = s.ctl := rfl
@[simp] theorem answer_outOvf (st : Status) (p : Bool) (v : U32) (s : State) : (answer st p v s).outOvf = s.outOvf := rfl
@[simp] theorem answer_held (st : Status) (p : Bool) (v : U32) (s : State) : (answer st p v s).held = s.held := rfl
@[simp] theorem answer_freeCtr (st : Status) (p : Bool) (v : U32) (s : State) : (answer st p v s).freeCtr = s.freeCtr := rfl
@[simp] theorem answer_mem (st : Status) (p : Bool) (v : U32) (s : State) : (answer st p v s).mem = s.mem := rfl
@[simp] theorem answer_sched (st : Status) (p : Bool) (v : U32) (s : State) : (answer st p v s).sched = s.sched := rfl
@[simp] theorem answer_ev (st : Status) (p : Bool) (v : U32) (s : State) : (answer st p v s).ev = s.ev := rfl
@[simp] theorem answer_queue (st : Status) (p : Bool) (v : U32) (s : State) : (answer st p v s).queue = s.queue := rfl
@[simp] theorem answer_sig (st : Status) (p : Bool) (v : U32) (s : State) : (answer st p v s).sig = s.sig := rfl
@[simp] theorem answer_resp (st : Status) (p : Bool) (v : U32) (s : State) : (answer st p v s).resp = some { status := st, parked := p, value := v } := rfl
@[simp] theorem answer_snapOut (st : Status) (p : Bool) (v : U32) (s : State) : (answer st p v s).snapOut = s.snapOut := rfl
@[simp] theorem answer_calls (st : Status) (p : Bool) (v : U32) (s : State) : (answer st p v s).calls = s.calls := rfl

/-! ## addCall -/

@[simp] theorem addCall_par (x : Call) (s : State) : (addCall x s).par = s.par := rfl
@[simp] theorem addCall_up (x : Call) (s : State) : (addCall x s).up = s.up := rfl
@[simp] theorem addCall_chs (x : Call) (s : State) : (addCall x s).chs = s.chs := rfl
@[simp] theorem addCall_outq (x : Call) (s : State) : (addCall x s).outq = s.outq := rfl
@[simp] theorem addCall_acc (x : Call) (s : State) : (addCall x s).acc = s.acc := rfl
@[simp] theorem addCall_ctl (x : Call) (s : State) : (addCall x s).ctl = s.ctl := rfl
@[simp] theorem addCall_outOvf (x : Call) (s : State) : (addCall x s).outOvf = s.outOvf := rfl
@[simp] theorem addCall_held (x : Call) (s : State) : (addCall x s).held = s.held := rfl
@[simp] theorem addCall_freeCtr (x : Call) (s : State) : (addCall x s).freeCtr = s.freeCtr := rfl
@[simp] theorem addCall_mem (x : Call) (s : State) : (addCall x s).mem = s.mem := rfl
@[simp] theorem addCall_sched (x : Call) (s : State) : (addCall x s).sched = s.sched := rfl
@[simp] theorem addCall_ev (x : Call) (s : State) : (addCall x s).ev = s.ev := rfl
@[simp] theorem addCall_queue (x : Call) (s : State) : (addCall x s).queue = s.queue := rfl
@[simp] theorem addCall_sig (x : Call) (s : State) : (addCall x s).sig = s.sig := rfl
@[simp] theorem addCall_resp (x : Call) (s : State) : (addCall x s).resp = s.resp := rfl
@[simp] theorem addCall_snapOut (x : Call) (s : State) : (addCall x s).snapOut = s.snapOut := rfl
@[simp] theorem addCall_calls (x : Call) (s : State) : (addCall x s).calls = s.calls ++ [x] := rfl

/-! ## setCh -/

@[simp] theorem setCh_par (c : Nat) (k : Channel) (s : State) : (setCh s c k).par = s.par := rfl
@[simp] theorem setCh_up (c : Nat) (k : Channel) (s : State) : (setCh s c k).up = s.up := rfl
@[simp] theorem setCh_chs (c : Nat) (k : Channel) (s : State) : (setCh s c k).chs = s.chs.set c k := rfl
@[simp] theorem setCh_outq (c : Nat) (k : Channel) (s : State) : (setCh s c k).outq = s.outq := rfl
@[simp] theorem setCh_acc (c : Nat) (k : Channel) (s : State) : (setCh s c k).acc = s.acc := rfl
@[simp] theorem setCh_ctl (c : Nat) (k : Channel) (s : State) : (setCh s c k).ctl = s.ctl := rfl
@[simp] theorem setCh_outOvf (c : Nat) (k : Channel) (s : State) : (setCh s c k).outOvf = s.outOvf := rfl
@[simp] theorem setCh_held (c : Nat) (k : Channel) (s : State) : (setCh s c k).held = s.held := rfl
@[simp] theorem setCh_freeCtr (c : Nat) (k : Channel) (s : State) : (setCh s c k).freeCtr = s.freeCtr := rfl
@[simp] theorem setCh_mem (c : Nat) (k : Channel) (s : State) : (setCh s c k).mem = s.mem := rfl
@[simp] theorem setCh_sched (c : Nat) (k : Channel) (s : State) : (setCh s c k).sched = s.sched := rfl
@[simp] theorem setCh_ev (c : Nat) (k : Channel) (s : State) : (setCh s c k).ev = s.ev := rfl
@[simp] theorem setCh_queue (c : Nat) (k : Channel) (s : State) : (setCh s c k).queue = s.queue := rfl
@[simp] theorem setCh_sig (c : Nat) (k : Channel) (s : State) : (setCh s c k).sig = s.sig := rfl
@[simp] theorem setCh_resp (c : Nat) (k : Channel) (s : State) : (setCh s c k).resp = s.resp := rfl
@[simp] theorem setCh_snapOut (c : Nat) (k : Channel) (s : State) : (setCh s c k).snapOut = s.snapOut := rfl
@[simp] theorem setCh_calls (c : Nat) (k : Channel) (s : State) : (setCh s c k).calls = s.calls := rfl

/-! ## setOutOvf -/

@[simp] theorem setOutOvf_par (s : State) : (setOutOvf s).par = s.par := rfl
@[simp] theorem setOutOvf_up (s : State) : (setOutOvf s).up = s.up := rfl
@[simp] theorem setOutOvf_chs (s : State) : (setOutOvf s).chs = s.chs := rfl
@[simp] theorem setOutOvf_outq (s : State) : (setOutOvf s).outq = s.outq := rfl
@[simp] theorem setOutOvf_acc (s : State) : (setOutOvf s).acc = s.acc := rfl
@[simp] theorem setOutOvf_ctl (s : State) : (setOutOvf s).ctl = s.ctl := rfl
@[simp] theorem setOutOvf_outOvf (s : State) : (setOutOvf s).outOvf = true := rfl
@[simp] theorem setOutOvf_held (s : State) : (setOutOvf s).held = s.held := rfl
@[simp] theorem setOutOvf_freeCtr (s : State) : (setOutOvf s).freeCtr = s.freeCtr := rfl
@[simp] theorem setOutOvf_mem (s : State) : (setOutOvf s).mem = s.mem := rfl
@[simp] theorem setOutOvf_sched (s : State) : (setOutOvf s).sched = s.sched := rfl
@[simp] theorem setOutOvf_ev (s : State) : (setOutOvf s).ev = s.ev := rfl
@[simp] theorem setOutOvf_queue (s : State) : (setOutOvf s).queue = s.queue := rfl
@[simp] theorem setOutOvf_sig (s : State) : (setOutOvf s).sig = s.sig := rfl
@[simp] theorem setOutOvf_resp (s : State) : (setOutOvf s).resp = s.resp := rfl
@[simp] theorem setOutOvf_snapOut (s : State) : (setOutOvf s).snapOut = s.snapOut := rfl
@[simp] theorem setOutOvf_calls (s : State) : (setOutOvf s).calls = s.calls := rfl

/-! ## clearOutOvf -/

@[simp] theorem clearOutOvf_par (s : State) : (clearOutOvf s).par = s.par := rfl
@[simp] theorem clearOutOvf_up (s : State) : (clearOutOvf s).up = s.up := rfl
@[simp] theorem clearOutOvf_chs (s : State) : (clearOutOvf s).chs = s.chs := rfl
@[simp] theorem clearOutOvf_outq (s : State) : (clearOutOvf s).outq = s.outq := rfl
@[simp] theorem clearOutOvf_acc (s : State) : (clearOutOvf s).acc = s.acc := rfl
@[simp] theorem clearOutOvf_ctl (s : State) : (clearOutOvf s).ctl = s.ctl := rfl
@[simp] theorem clearOutOvf_outOvf (s : State) : (clearOutOvf s).outOvf = false := rfl
@[simp] theorem clearOutOvf_held (s : State) : (clearOutOvf s).held = s.held := rfl
@[simp] theorem clearOutOvf_freeCtr (s : State) : (clearOutOvf s).freeCtr = s.freeCtr := rfl
@[simp] theorem clearOutOvf_mem (s : State) : (clearOutOvf s).mem = s.mem := rfl
@[simp] theorem clearOutOvf_sched (s : State) : (clearOutOvf s).sched = s.sched := rfl
@[simp] theorem clearOutOvf_ev (s : State) : (clearOutOvf s).ev = s.ev := rfl
@[simp] theorem clearOutOvf_queue (s : State) : (clearOutOvf s).queue = s.queue := rfl
@[simp] theorem clearOutOvf_sig (s : State) : (clearOutOvf s).sig = s.sig := rfl
@[simp] theorem clearOutOvf_resp (s : State) : (clearOutOvf s).resp = s.resp := rfl
@[simp] theorem clearOutOvf_snapOut (s : State) : (clearOutOvf s).snapOut = s.snapOut := rfl
@[simp] theorem clearOutOvf_calls (s : State) : (clearOutOvf s).calls = s.calls := rfl

/-! ## evSchedule -/

@[simp] theorem evSchedule_par (d : Int) (id : Nat) (s : State) : (evSchedule d id s).par = s.par := rfl
@[simp] theorem evSchedule_up (d : Int) (id : Nat) (s : State) : (evSchedule d id s).up = s.up := rfl
@[simp] theorem evSchedule_chs (d : Int) (id : Nat) (s : State) : (evSchedule d id s).chs = s.chs := rfl
@[simp] theorem evSchedule_outq (d : Int) (id : Nat) (s : State) : (evSchedule d id s).outq = s.outq := rfl
@[simp] theorem evSchedule_acc (d : Int) (id : Nat) (s : State) : (evSchedule d id s).acc = s.acc := rfl
@[simp] theorem evSchedule_ctl (d : Int) (id : Nat) (s : State) : (evSchedule d id s).ctl = s.ctl := rfl
@[simp] theorem evSchedule_outOvf (d : Int) (id : Nat) (s : State) : (evSchedule d id s).outOvf = s.outOvf := rfl
@[simp] theorem evSchedule_held (d : Int) (id : Nat) (s : State) : (evSchedule d id s).held = s.held := rfl
@[simp] theorem evSchedule_freeCtr (d : Int) (id : Nat) (s : State) : (evSchedule d id s).freeCtr = s.freeCtr := rfl
@[simp] theorem evSchedule_mem (d : Int) (id : Nat) (s : State) : (evSchedule d id s).mem = s.mem := rfl
@[simp] theorem evSchedule_sched (d : Int) (id : Nat) (s : State) : (evSchedule d id s).sched = s.sched := rfl
@[simp] theorem evSchedule_ev (d : Int) (id : Nat) (s : State) : (evSchedule d id s).ev = { s.ev with pending := s.ev.pending ++ [{ delay := d, id := id, userdata := 0 }] } := rfl
@[simp] theorem evSchedule_queue (d : Int) (id : Nat) (s : State) : (evSchedule d id s).queue = s.queue := rfl
@[simp] theorem evSchedule_sig (d : Int) (id : Nat) (s : State) : (evSchedule d id s).sig = s.sig := rfl
@[simp] theorem evSchedule_resp (d : Int) (id : Nat) (s : State) : (evSchedule d id s).resp = s.resp := rfl
@[simp] theorem evSchedule_snapOut (d : Int) (id : Nat) (s : State) : (evSchedule d id s).snapOut = s.snapOut := rfl
@[simp] theorem evSchedule_calls (d : Int) (id : Nat) (s : State) : (evSchedule d id s).calls = s.calls ++ [Call.schedule d id 0] := rfl

/-! ## evRegister -/

@[simp] theorem evRegister_par (n : Nat) (cb : Callback) (id : Nat) (s : State) : (evRegister n cb id s).par = s.par := rfl
@[simp] theorem evRegister_up (n : Nat) (cb : Callback) (id : Nat) (s : State) : (evRegister n cb id s).up = s.up := rfl
@[simp] theorem evRegister_chs (n : Nat) (cb : Callback) (id : Nat) (s : State) : (evRegister n cb id s).chs = s.chs := rfl
@[simp] theorem evRegister_outq (n : Nat) (cb : Callback) (id : Nat) (s : State) : (evRegister n cb id s).outq = s.outq := rfl
@[simp] theorem evRegister_acc (n : Nat) (cb : Callback) (id : Nat) (s : State) : (evRegister n cb id s).acc = s.acc := rfl
@[simp] theorem evRegister_ctl (n : Nat) (cb : Callback) (id : Nat) (s : State) : (evRegister n cb id s).ctl = s.ctl := rfl
@[simp] theorem evRegister_outOvf (n : Nat) (cb : Callback) (id : Nat) (s : State) : (evRegister n cb id s).outOvf = s.outOvf := rfl
@[simp] theorem evRegister_held (n : Nat) (cb : Callback) (id : Nat) (s : State) : (evRegister n cb id s).held = s.held := rfl
@[simp] theorem evRegister_freeCtr (n : Nat) (cb : Callback) (id : Nat) (s : State) : (evRegister n cb id s).freeCtr = s.freeCtr := rfl
@[simp] theorem evRegister_mem (n : Nat) (cb : Callback) (id : Nat) (s : State) : (evRegister n cb id s).mem = s.mem := rfl
@[simp] theorem evRegister_sched (n : Nat) (cb : Callback) (id : Nat) (s : State) : (evRegister n cb id s).sched = s.sched := rfl
@[simp] theorem evRegister_ev (n : Nat) (cb : Callback) (id : Nat) (s : State) : (evRegister n cb id s).ev = { s.ev with registered := cellsPut s.ev.registered n id, callbacks := cellsPut s.ev.callbacks id cb } := rfl
@[simp] theorem evRegister_queue (n : Nat) (cb : Callback) (id : Nat) (s : State) : (evRegister n cb id s).queue = s.queue := rfl
@[simp] theorem evRegister_sig (n : Nat) (cb : Callback) (id : Nat) (s : State) : (evRegister n cb id s).sig = s.sig := rfl
@[simp] theorem evRegister_resp (n : Nat) (cb : Callback) (id : Nat) (s : State) : (evRegister n cb id s).resp = s.resp := rfl
@[simp] theorem evRegister_snapOut (n : Nat) (cb : Callback) (id : Nat) (s : State) : (evRegister n cb id s).snapOut = s.snapOut := rfl
@[simp] theorem evRegister_calls (n : Nat) (cb : Callback) (id : Nat) (s : State) : (evRegister n cb id s).calls = s.calls ++ [Call.registerEvent n cb id] := rfl

/-! ## registerEvents -/

@[simp] theorem registerEvents_par (s : State) : (registerEvents s).par = s.par := rfl
@[simp] theorem registerEvents_up (s : State) : (registerEvents s).up = s.up := rfl
@[simp] theorem registerEvents_chs (s : State) : (registerEvents s).chs = s.chs := rfl
@[simp] theorem registerEvents_outq (s : State) : (registerEvents s).outq = s.outq := rfl
@[simp] theorem registerEvents_acc (s : State) : (registerEvents s).acc = s.acc := rfl
@[simp] theorem registerEvents_ctl (s : State) : (registerEvents s).ctl = { s.ctl with evAudio := s.sig.evIdAudio, evHost := s.sig.evIdHost } := rfl
@[simp] theorem registerEvents_outOvf (s : State) : (registerEvents s).outOvf = s.outOvf := rfl
@[simp] theorem registerEvents_held (s : State) : (registerEvents s).held = s.held := rfl
@[simp] theorem registerEvents_freeCtr (s : State) : (registerEvents s).freeCtr = s.freeCtr := rfl
@[simp] theorem registerEvents_mem (s : State) : (registerEvents s).mem = s.mem := rfl
@[simp] theorem registerEvents_sched (s : State) : (registerEvents s).sched = s.sched := rfl
@[simp] theorem registerEvents_ev (s : State) : (registerEvents s).ev = { s.ev with registered := cellsPut (cellsPut s.ev.registered s.par.evnameAudio s.sig.evIdAudio) s.par.evnameHost s.sig.evIdHost, callbacks := cellsPut (cellsPut s.ev.callbacks s.sig.evIdAudio .tick) s.sig.evIdHost .hostpoll } := rfl
@[simp] theorem registerEvents_queue (s : State) : (registerEvents s).queue = s.queue := rfl
@[simp] theorem registerEvents_sig (s : State) : (registerEvents s).sig = s.sig := rfl
@[simp] theorem registerEvents_resp (s : State) : (registerEvents s).resp = s.resp := rfl
@[simp] theorem registerEvents_snapOut (s : State) : (registerEvents s).snapOut = s.snapOut := rfl
@[simp] theorem registerEvents_calls (s : State) : (registerEvents s).calls = s.calls ++ [Call.registerEvent s.par.evnameAudio .tick s.sig.evIdAudio] ++ [Call.registerEvent s.par.evnameHost .hostpoll s.sig.evIdHost] := rfl

/-! ## registerClockChange -/

@[simp] theorem registerClockChange_par (s : State) : (registerClockChange s).par = s.par := rfl
@[simp] theorem registerClockChange_up (s : State) : (registerClockChange s).up = s.up := rfl
@[simp] theorem registerClockChange_chs (s : State) : (registerClockChange s).chs = s.chs := rfl
@[simp] theorem registerClockChange_outq (s : State) : (registerClockChange s).outq = s.outq := rfl
@[simp] theorem registerClockChange_acc (s : State) : (registerClockChange s).acc = s.acc := rfl
@[simp] theorem registerClockChange_ctl (s : State) : (registerClockChange s).ctl = s.ctl := rfl
@[simp] theorem registerClockChange_outOvf (s : State) : (registerClockChange s).outOvf = s.outOvf := rfl
@[simp] theorem registerClockChange_held (s : State) : (registerClockChange s).held = s.held := rfl
@[simp] theorem registerClockChange_freeCtr (s : State) : (registerClockChange s).freeCtr = s.freeCtr := rfl
@[simp] theorem registerClockChange_mem (s : State) : (registerClockChange s).mem = s.mem := rfl
@[simp] theorem registerClockChange_sched (s : State) : (registerClockChange s).sched = s.sched := rfl
@[simp] theorem registerClockChange_ev (s : State) : (registerClockChange s).ev = { s.ev with clockCallback := true } := rfl
@[simp] theorem registerClockChange_queue (s : State) : (registerClockChange s).queue = s.queue := rfl
@[simp] theorem registerClockChange_sig (s : State) : (registerClockChange s).sig = s.sig := rfl
@[simp] theorem registerClockChange_resp (s : State) : (registerClockChange s).resp = s.resp := rfl
@[simp] theorem registerClockChange_snapOut (s : State) : (registerClockChange s).snapOut = s.snapOut := rfl
@[simp] theorem registerClockChange_calls (s : State) : (registerClockChange s).calls = s.calls ++ [Call.registerClockChange] := rfl

/-! ## deriveIntervals -/

@[simp] theorem deriveIntervals_par (s : State) : (deriveIntervals s).par = s.par := rfl
@[simp] theorem deriveIntervals_up (s : State) : (deriveIntervals s).up = s.up := rfl
@[simp] theorem deriveIntervals_chs (s : State) : (deriveIntervals s).chs = s.chs := rfl
@[simp] theorem deriveIntervals_outq (s : State) : (deriveIntervals s).outq = s.outq := rfl
@[simp] theorem deriveIntervals_acc (s : State) : (deriveIntervals s).acc = s.acc := rfl
@[simp] theorem deriveIntervals_ctl (s : State) : (deriveIntervals s).ctl = { s.ctl with cps := s.sig.cpsIn, audioInterval := interval s.par s.sig.cpsIn s.ctl.hbs, hostInterval := interval s.par s.sig.cpsIn s.ctl.habs } := rfl
@[simp] theorem deriveIntervals_outOvf (s : State) : (deriveIntervals s).outOvf = s.outOvf := rfl
@[simp] theorem deriveIntervals_held (s : State) : (deriveIntervals s).held = s.held := rfl
@[simp] theorem deriveIntervals_freeCtr (s : State) : (deriveIntervals s).freeCtr = s.freeCtr := rfl
@[simp] theorem deriveIntervals_mem (s : State) : (deriveIntervals s).mem = s.mem := rfl
@[simp] theorem deriveIntervals_sched (s : State) : (deriveIntervals s).sched = s.sched := rfl
@[simp] theorem deriveIntervals_ev (s : State) : (deriveIntervals s).ev = s.ev := rfl
@[simp] theorem deriveIntervals_queue (s : State) : (deriveIntervals s).queue = s.queue := rfl
@[simp] theorem deriveIntervals_sig (s : State) : (deriveIntervals s).sig = s.sig := rfl
@[simp] theorem deriveIntervals_resp (s : State) : (deriveIntervals s).resp = s.resp := rfl
@[simp] theorem deriveIntervals_snapOut (s : State) : (deriveIntervals s).snapOut = s.snapOut := rfl
@[simp] theorem deriveIntervals_calls (s : State) : (deriveIntervals s).calls = s.calls := rfl

/-! ## selectProfile -/

@[simp] theorem selectProfile_par (p : Profile) (s : State) : (selectProfile p s).par = s.par := rfl
@[simp] theorem selectProfile_up (p : Profile) (s : State) : (selectProfile p s).up = s.up := rfl
@[simp] theorem selectProfile_chs (p : Profile) (s : State) : (selectProfile p s).chs = s.chs := rfl
@[simp] theorem selectProfile_outq (p : Profile) (s : State) : (selectProfile p s).outq = s.outq := rfl
@[simp] theorem selectProfile_acc (p : Profile) (s : State) : (selectProfile p s).acc = s.acc := rfl
@[simp] theorem selectProfile_ctl (p : Profile) (s : State) : (selectProfile p s).ctl = { s.ctl with profileSel := p, hbs := (s.par.profile p).hbs, habs := (s.par.profile p).habs, qmaxf := (s.par.profile p).qmaxf, qminf := (s.par.profile p).qminf } := rfl
@[simp] theorem selectProfile_outOvf (p : Profile) (s : State) : (selectProfile p s).outOvf = s.outOvf := rfl
@[simp] theorem selectProfile_held (p : Profile) (s : State) : (selectProfile p s).held = s.held := rfl
@[simp] theorem selectProfile_freeCtr (p : Profile) (s : State) : (selectProfile p s).freeCtr = s.freeCtr := rfl
@[simp] theorem selectProfile_mem (p : Profile) (s : State) : (selectProfile p s).mem = s.mem := rfl
@[simp] theorem selectProfile_sched (p : Profile) (s : State) : (selectProfile p s).sched = s.sched := rfl
@[simp] theorem selectProfile_ev (p : Profile) (s : State) : (selectProfile p s).ev = s.ev := rfl
@[simp] theorem selectProfile_queue (p : Profile) (s : State) : (selectProfile p s).queue = s.queue := rfl
@[simp] theorem selectProfile_sig (p : Profile) (s : State) : (selectProfile p s).sig = s.sig := rfl
@[simp] theorem selectProfile_resp (p : Profile) (s : State) : (selectProfile p s).resp = s.resp := rfl
@[simp] theorem selectProfile_snapOut (p : Profile) (s : State) : (selectProfile p s).snapOut = s.snapOut := rfl
@[simp] theorem selectProfile_calls (p : Profile) (s : State) : (selectProfile p s).calls = s.calls := rfl

/-! ## zeroAcc -/

@[simp] theorem zeroAcc_par (s : State) : (zeroAcc s).par = s.par := rfl
@[simp] theorem zeroAcc_up (s : State) : (zeroAcc s).up = s.up := rfl
@[simp] theorem zeroAcc_chs (s : State) : (zeroAcc s).chs = s.chs := rfl
@[simp] theorem zeroAcc_outq (s : State) : (zeroAcc s).outq = s.outq := rfl
@[simp] theorem zeroAcc_acc (s : State) : (zeroAcc s).acc = some (List.replicate (2 * s.ctl.hbs) 0#32) := rfl
@[simp] theorem zeroAcc_ctl (s : State) : (zeroAcc s).ctl = s.ctl := rfl
@[simp] theorem zeroAcc_outOvf (s : State) : (zeroAcc s).outOvf = s.outOvf := rfl
@[simp] theorem zeroAcc_held (s : State) : (zeroAcc s).held = s.held := rfl
@[simp] theorem zeroAcc_freeCtr (s : State) : (zeroAcc s).freeCtr = s.freeCtr := rfl
@[simp] theorem zeroAcc_mem (s : State) : (zeroAcc s).mem = s.mem := rfl
@[simp] theorem zeroAcc_sched (s : State) : (zeroAcc s).sched = s.sched := rfl
@[simp] theorem zeroAcc_ev (s : State) : (zeroAcc s).ev = s.ev := rfl
@[simp] theorem zeroAcc_queue (s : State) : (zeroAcc s).queue = s.queue := rfl
@[simp] theorem zeroAcc_sig (s : State) : (zeroAcc s).sig = s.sig := rfl
@[simp] theorem zeroAcc_resp (s : State) : (zeroAcc s).resp = s.resp := rfl
@[simp] theorem zeroAcc_snapOut (s : State) : (zeroAcc s).snapOut = s.snapOut := rfl
@[simp] theorem zeroAcc_calls (s : State) : (zeroAcc s).calls = s.calls := rfl

/-! ## addToAcc -/

@[simp] theorem addToAcc_par (vs : List S16) (s : State) : (addToAcc vs s).par = s.par := rfl
@[simp] theorem addToAcc_up (vs : List S16) (s : State) : (addToAcc vs s).up = s.up := rfl
@[simp] theorem addToAcc_chs (vs : List S16) (s : State) : (addToAcc vs s).chs = s.chs := rfl
@[simp] theorem addToAcc_outq (vs : List S16) (s : State) : (addToAcc vs s).outq = s.outq := rfl
@[simp] theorem addToAcc_acc (vs : List S16) (s : State) : (addToAcc vs s).acc = s.acc.map (addInto vs) := rfl
@[simp] theorem addToAcc_ctl (vs : List S16) (s : State) : (addToAcc vs s).ctl = s.ctl := rfl
@[simp] theorem addToAcc_outOvf (vs : List S16) (s : State) : (addToAcc vs s).outOvf = s.outOvf := rfl
@[simp] theorem addToAcc_held (vs : List S16) (s : State) : (addToAcc vs s).held = s.held := rfl
@[simp] theorem addToAcc_freeCtr (vs : List S16) (s : State) : (addToAcc vs s).freeCtr = s.freeCtr := rfl
@[simp] theorem addToAcc_mem (vs : List S16) (s : State) : (addToAcc vs s).mem = s.mem := rfl
@[simp] theorem addToAcc_sched (vs : List S16) (s : State) : (addToAcc vs s).sched = s.sched := rfl
@[simp] theorem addToAcc_ev (vs : List S16) (s : State) : (addToAcc vs s).ev = s.ev := rfl
@[simp] theorem addToAcc_queue (vs : List S16) (s : State) : (addToAcc vs s).queue = s.queue := rfl
@[simp] theorem addToAcc_sig (vs : List S16) (s : State) : (addToAcc vs s).sig = s.sig := rfl
@[simp] theorem addToAcc_resp (vs : List S16) (s : State) : (addToAcc vs s).resp = s.resp := rfl
@[simp] theorem addToAcc_snapOut (vs : List S16) (s : State) : (addToAcc vs s).snapOut = s.snapOut := rfl
@[simp] theorem addToAcc_calls (vs : List S16) (s : State) : (addToAcc vs s).calls = s.calls := rfl

/-! ## allocAcc -/

@[simp] theorem allocAcc_par (s : State) : (allocAcc s).par = s.par := rfl
@[simp] theorem allocAcc_up (s : State) : (allocAcc s).up = s.up := rfl
@[simp] theorem allocAcc_chs (s : State) : (allocAcc s).chs = s.chs := rfl
@[simp] theorem allocAcc_outq (s : State) : (allocAcc s).outq = s.outq := rfl
@[simp] theorem allocAcc_ctl (s : State) : (allocAcc s).ctl = s.ctl := rfl
@[simp] theorem allocAcc_outOvf (s : State) : (allocAcc s).outOvf = s.outOvf := rfl
@[simp] theorem allocAcc_held (s : State) : (allocAcc s).held = s.held := rfl
@[simp] theorem allocAcc_freeCtr (s : State) : (allocAcc s).freeCtr = s.freeCtr + 1 := rfl
@[simp] theorem allocAcc_mem (s : State) : (allocAcc s).mem = s.mem := rfl
@[simp] theorem allocAcc_sched (s : State) : (allocAcc s).sched = s.sched := rfl
@[simp] theorem allocAcc_ev (s : State) : (allocAcc s).ev = s.ev := rfl
@[simp] theorem allocAcc_queue (s : State) : (allocAcc s).queue = s.queue := rfl
@[simp] theorem allocAcc_sig (s : State) : (allocAcc s).sig = s.sig := rfl
@[simp] theorem allocAcc_resp (s : State) : (allocAcc s).resp = s.resp := rfl
@[simp] theorem allocAcc_snapOut (s : State) : (allocAcc s).snapOut = s.snapOut := rfl
@[simp] theorem allocAcc_calls (s : State) : (allocAcc s).calls = s.calls := rfl

/-! ## hostWrites -/

@[simp] theorem hostWrites_par (vs : List S16) (s : State) : (hostWrites vs s).par = s.par := rfl
@[simp] theorem hostWrites_up (vs : List S16) (s : State) : (hostWrites vs s).up = s.up := rfl
@[simp] theorem hostWrites_chs (vs : List S16) (s : State) : (hostWrites vs s).chs = s.chs := rfl
@[simp] theorem hostWrites_outq (vs : List S16) (s : State) : (hostWrites vs s).outq = s.outq := rfl
@[simp] theorem hostWrites_acc (vs : List S16) (s : State) : (hostWrites vs s).acc = s.acc := rfl
@[simp] theorem hostWrites_ctl (vs : List S16) (s : State) : (hostWrites vs s).ctl = s.ctl := rfl
@[simp] theorem hostWrites_outOvf (vs : List S16) (s : State) : (hostWrites vs s).outOvf = s.outOvf := rfl
@[simp] theorem hostWrites_held (vs : List S16) (s : State) : (hostWrites vs s).held = s.held := rfl
@[simp] theorem hostWrites_freeCtr (vs : List S16) (s : State) : (hostWrites vs s).freeCtr = s.freeCtr := rfl
@[simp] theorem hostWrites_mem (vs : List S16) (s : State) : (hostWrites vs s).mem = s.mem := rfl
@[simp] theorem hostWrites_sched (vs : List S16) (s : State) : (hostWrites vs s).sched = s.sched := rfl
@[simp] theorem hostWrites_ev (vs : List S16) (s : State) : (hostWrites vs s).ev = s.ev := rfl
@[simp] theorem hostWrites_queue (vs : List S16) (s : State) : (hostWrites vs s).queue = s.queue := rfl
@[simp] theorem hostWrites_sig (vs : List S16) (s : State) : (hostWrites vs s).sig = { s.sig with hostBuf := vs ++ s.sig.hostBuf.drop vs.length } := rfl
@[simp] theorem hostWrites_resp (vs : List S16) (s : State) : (hostWrites vs s).resp = s.resp := rfl
@[simp] theorem hostWrites_snapOut (vs : List S16) (s : State) : (hostWrites vs s).snapOut = s.snapOut := rfl
@[simp] theorem hostWrites_calls (vs : List S16) (s : State) : (hostWrites vs s).calls = s.calls ++ [Call.hostWrite vs] := rfl

/-! ## park -/

@[simp] theorem park_par (c : Nat) (r : Int) (v : U32) (s : State) : (park c r v s).par = s.par := rfl
@[simp] theorem park_up (c : Nat) (r : Int) (v : U32) (s : State) : (park c r v s).up = s.up := rfl
@[simp] theorem park_chs (c : Nat) (r : Int) (v : U32) (s : State) : (park c r v s).chs = s.chs.set c { getCh s c with waiting := (getCh s c).waiting ++ [{ thread := s.sig.currentThread, remaining := r }] } := rfl
@[simp] theorem park_outq (c : Nat) (r : Int) (v : U32) (s : State) : (park c r v s).outq = s.outq := rfl
@[simp] theorem park_acc (c : Nat) (r : Int) (v : U32) (s : State) : (park c r v s).acc = s.acc := rfl
@[simp] theorem park_ctl (c : Nat) (r : Int) (v : U32) (s : State) : (park c r v s).ctl = s.ctl := rfl
@[simp] theorem park_outOvf (c : Nat) (r : Int) (v : U32) (s : State) : (park c r v s).outOvf = s.outOvf := rfl
@[simp] theorem park_held (c : Nat) (r : Int) (v : U32) (s : State) : (park c r v s).held = s.held := rfl
@[simp] theorem park_freeCtr (c : Nat) (r : Int) (v : U32) (s : State) : (park c r v s).freeCtr = s.freeCtr := rfl
@[simp] theorem park_mem (c : Nat) (r : Int) (v : U32) (s : State) : (park c r v s).mem = s.mem := rfl
@[simp] theorem park_sched (c : Nat) (r : Int) (v : U32) (s : State) : (park c r v s).sched = { s.sched with waits := cellsPut s.sched.waits s.sig.currentThread { category := s.par.waitAudio, key := c + 1, payload := v } } := rfl
@[simp] theorem park_ev (c : Nat) (r : Int) (v : U32) (s : State) : (park c r v s).ev = s.ev := rfl
@[simp] theorem park_queue (c : Nat) (r : Int) (v : U32) (s : State) : (park c r v s).queue = s.queue := rfl
@[simp] theorem park_sig (c : Nat) (r : Int) (v : U32) (s : State) : (park c r v s).sig = s.sig := rfl
@[simp] theorem park_resp (c : Nat) (r : Int) (v : U32) (s : State) : (park c r v s).resp = s.resp := rfl
@[simp] theorem park_snapOut (c : Nat) (r : Int) (v : U32) (s : State) : (park c r v s).snapOut = s.snapOut := rfl
@[simp] theorem park_calls (c : Nat) (r : Int) (v : U32) (s : State) : (park c r v s).calls = s.calls ++ [Call.park s.sig.currentThread s.par.waitAudio (c + 1) v false] := rfl

/-! ## wakeThreads -/

@[simp] theorem wakeThreads_par (c : Nat) (r : U32) (st : WakeStep) (s : State) : (wakeThreads c r st s).par = s.par := rfl
@[simp] theorem wakeThreads_up (c : Nat) (r : U32) (st : WakeStep) (s : State) : (wakeThreads c r st s).up = s.up := rfl
@[simp] theorem wakeThreads_chs (c : Nat) (r : U32) (st : WakeStep) (s : State) : (wakeThreads c r st s).chs = s.chs.set c { getCh s c with waiting := (wakeList s.par c r st (getCh s c).waiting s.sched).1 } := rfl
@[simp] theorem wakeThreads_outq (c : Nat) (r : U32) (st : WakeStep) (s : State) : (wakeThreads c r st s).outq = s.outq := rfl
@[simp] theorem wakeThreads_acc (c : Nat) (r : U32) (st : WakeStep) (s : State) : (wakeThreads c r st s).acc = s.acc := rfl
@[simp] theorem wakeThreads_ctl (c : Nat) (r : U32) (st : WakeStep) (s : State) : (wakeThreads c r st s).ctl = s.ctl := rfl
@[simp] theorem wakeThreads_outOvf (c : Nat) (r : U32) (st : WakeStep) (s : State) : (wakeThreads c r st s).outOvf = s.outOvf := rfl
@[simp] theorem wakeThreads_held (c : Nat) (r : U32) (st : WakeStep) (s : State) : (wakeThreads c r st s).held = s.held := rfl
@[simp] theorem wakeThreads_freeCtr (c : Nat) (r : U32) (st : WakeStep) (s : State) : (wakeThreads c r st s).freeCtr = s.freeCtr := rfl
@[simp] theorem wakeThreads_mem (c : Nat) (r : U32) (st : WakeStep) (s : State) : (wakeThreads c r st s).mem = s.mem := rfl
@[simp] theorem wakeThreads_sched (c : Nat) (r : U32) (st : WakeStep) (s : State) : (wakeThreads c r st s).sched = (wakeList s.par c r st (getCh s c).waiting s.sched).2.1 := rfl
@[simp] theorem wakeThreads_ev (c : Nat) (r : U32) (st : WakeStep) (s : State) : (wakeThreads c r st s).ev = s.ev := rfl
@[simp] theorem wakeThreads_queue (c : Nat) (r : U32) (st : WakeStep) (s : State) : (wakeThreads c r st s).queue = s.queue := rfl
@[simp] theorem wakeThreads_sig (c : Nat) (r : U32) (st : WakeStep) (s : State) : (wakeThreads c r st s).sig = s.sig := rfl
@[simp] theorem wakeThreads_resp (c : Nat) (r : U32) (st : WakeStep) (s : State) : (wakeThreads c r st s).resp = s.resp := rfl
@[simp] theorem wakeThreads_snapOut (c : Nat) (r : U32) (st : WakeStep) (s : State) : (wakeThreads c r st s).snapOut = s.snapOut := rfl
@[simp] theorem wakeThreads_calls (c : Nat) (r : U32) (st : WakeStep) (s : State) : (wakeThreads c r st s).calls = s.calls ++ wakeCalls (wakeList s.par c r st (getCh s c).waiting s.sched).2.2 := rfl

/-! ## channelReset -/

@[simp] theorem channelReset_par (c : Nat) (s : State) : (channelReset c s).par = s.par := rfl
@[simp] theorem channelReset_up (c : Nat) (s : State) : (channelReset c s).up = s.up := rfl
@[simp] theorem channelReset_chs (c : Nat) (s : State) : (channelReset c s).chs = s.chs.set c (resetChannel (getCh s c)) := rfl
@[simp] theorem channelReset_outq (c : Nat) (s : State) : (channelReset c s).outq = s.outq := rfl
@[simp] theorem channelReset_acc (c : Nat) (s : State) : (channelReset c s).acc = s.acc := rfl
@[simp] theorem channelReset_ctl (c : Nat) (s : State) : (channelReset c s).ctl = s.ctl := rfl
@[simp] theorem channelReset_outOvf (c : Nat) (s : State) : (channelReset c s).outOvf = s.outOvf := rfl
@[simp] theorem channelReset_held (c : Nat) (s : State) : (channelReset c s).held = s.held := rfl
@[simp] theorem channelReset_freeCtr (c : Nat) (s : State) : (channelReset c s).freeCtr = s.freeCtr := rfl
@[simp] theorem channelReset_mem (c : Nat) (s : State) : (channelReset c s).mem = s.mem := rfl
@[simp] theorem channelReset_sched (c : Nat) (s : State) : (channelReset c s).sched = s.sched := rfl
@[simp] theorem channelReset_ev (c : Nat) (s : State) : (channelReset c s).ev = s.ev := rfl
@[simp] theorem channelReset_queue (c : Nat) (s : State) : (channelReset c s).queue = s.queue := rfl
@[simp] theorem channelReset_sig (c : Nat) (s : State) : (channelReset c s).sig = s.sig := rfl
@[simp] theorem channelReset_resp (c : Nat) (s : State) : (channelReset c s).resp = s.resp := rfl
@[simp] theorem channelReset_snapOut (c : Nat) (s : State) : (channelReset c s).snapOut = s.snapOut := rfl
@[simp] theorem channelReset_calls (c : Nat) (s : State) : (channelReset c s).calls = s.calls := rfl

/-! ## channelClear -/

@[simp] theorem channelClear_par (c : Nat) (s : State) : (channelClear c s).par = s.par := rfl
@[simp] theorem channelClear_up (c : Nat) (s : State) : (channelClear c s).up = s.up := rfl
@[simp] theorem channelClear_outq (c : Nat) (s : State) : (channelClear c s).outq = s.outq := rfl
@[simp] theorem channelClear_acc (c : Nat) (s : State) : (channelClear c s).acc = s.acc := rfl
@[simp] theorem channelClear_ctl (c : Nat) (s : State) : (channelClear c s).ctl = s.ctl := rfl
@[simp] theorem channelClear_outOvf (c : Nat) (s : State) : (channelClear c s).outOvf = s.outOvf := rfl
@[simp] theorem channelClear_held (c : Nat) (s : State) : (channelClear c s).held = s.held := rfl
@[simp] theorem channelClear_freeCtr (c : Nat) (s : State) : (channelClear c s).freeCtr = s.freeCtr := rfl
@[simp] theorem channelClear_mem (c : Nat) (s : State) : (channelClear c s).mem = s.mem := rfl
@[simp] theorem channelClear_sched (c : Nat) (s : State) : (channelClear c s).sched = (wakeList s.par c s.par.errNotReserved .infinity (getCh s c).waiting s.sched).2.1 := rfl
@[simp] theorem channelClear_ev (c : Nat) (s : State) : (channelClear c s).ev = s.ev := rfl
@[simp] theorem channelClear_queue (c : Nat) (s : State) : (channelClear c s).queue = s.queue := rfl
@[simp] theorem channelClear_sig (c : Nat) (s : State) : (channelClear c s).sig = s.sig := rfl
@[simp] theorem channelClear_resp (c : Nat) (s : State) : (channelClear c s).resp = s.resp := rfl
@[simp] theorem channelClear_snapOut (c : Nat) (s : State) : (channelClear c s).snapOut = s.snapOut := rfl
@[simp] theorem channelClear_calls (c : Nat) (s : State) : (channelClear c s).calls = s.calls ++ wakeCalls (wakeList s.par c s.par.errNotReserved .infinity (getCh s c).waiting s.sched).2.2 := rfl

/-! ## forgetPersisted -/

@[simp] theorem forgetPersisted_par (s : State) : (forgetPersisted s).par = s.par := rfl
@[simp] theorem forgetPersisted_up (s : State) : (forgetPersisted s).up = s.up := rfl
@[simp] theorem forgetPersisted_chs (s : State) : (forgetPersisted s).chs = (List.range s.par.nch).map (freeChannel s.freeCtr s.par.cqCap) := rfl
@[simp] theorem forgetPersisted_outq (s : State) : (forgetPersisted s).outq = freeOutq s.freeCtr s.par.oqCap := rfl
@[simp] theorem forgetPersisted_acc (s : State) : (forgetPersisted s).acc = s.acc := rfl
@[simp] theorem forgetPersisted_ctl (s : State) : (forgetPersisted s).ctl = s.ctl := rfl
@[simp] theorem forgetPersisted_outOvf (s : State) : (forgetPersisted s).outOvf = s.outOvf := rfl
@[simp] theorem forgetPersisted_held (s : State) : (forgetPersisted s).held = false := rfl
@[simp] theorem forgetPersisted_freeCtr (s : State) : (forgetPersisted s).freeCtr = s.freeCtr + 1 := rfl
@[simp] theorem forgetPersisted_mem (s : State) : (forgetPersisted s).mem = s.mem := rfl
@[simp] theorem forgetPersisted_sched (s : State) : (forgetPersisted s).sched = s.sched := rfl
@[simp] theorem forgetPersisted_ev (s : State) : (forgetPersisted s).ev = s.ev := rfl
@[simp] theorem forgetPersisted_queue (s : State) : (forgetPersisted s).queue = s.queue := rfl
@[simp] theorem forgetPersisted_sig (s : State) : (forgetPersisted s).sig = s.sig := rfl
@[simp] theorem forgetPersisted_resp (s : State) : (forgetPersisted s).resp = s.resp := rfl
@[simp] theorem forgetPersisted_snapOut (s : State) : (forgetPersisted s).snapOut = s.snapOut := rfl
@[simp] theorem forgetPersisted_calls (s : State) : (forgetPersisted s).calls = s.calls := rfl

/-! ## forgetAll -/

@[simp] theorem forgetAll_par (s : State) : (forgetAll s).par = s.par := rfl
@[simp] theorem forgetAll_up (s : State) : (forgetAll s).up = s.up := rfl
@[simp] theorem forgetAll_chs (s : State) : (forgetAll s).chs = (List.range s.par.nch).map (freeChannel s.freeCtr s.par.cqCap) := rfl
@[simp] theorem forgetAll_outq (s : State) : (forgetAll s).outq = freeOutq s.freeCtr s.par.oqCap := rfl
@[simp] theorem forgetAll_acc (s : State) : (forgetAll s).acc = none := rfl
@[simp] theorem forgetAll_ctl (s : State) : (forgetAll s).ctl = freeControl s.freeCtr := rfl
@[simp] theorem forgetAll_held (s : State) : (forgetAll s).held = false := rfl
@[simp] theorem forgetAll_freeCtr (s : State) : (forgetAll s).freeCtr = s.freeCtr + 1 := rfl
@[simp] theorem forgetAll_mem (s : State) : (forgetAll s).mem = s.mem := rfl
@[simp] theorem forgetAll_sched (s : State) : (forgetAll s).sched = s.sched := rfl
@[simp] theorem forgetAll_ev (s : State) : (forgetAll s).ev = s.ev := rfl
@[simp] theorem forgetAll_queue (s : State) : (forgetAll s).queue = s.queue := rfl
@[simp] theorem forgetAll_sig (s : State) : (forgetAll s).sig = s.sig := rfl
@[simp] theorem forgetAll_resp (s : State) : (forgetAll s).resp = s.resp := rfl
@[simp] theorem forgetAll_snapOut (s : State) : (forgetAll s).snapOut = s.snapOut := rfl
@[simp] theorem forgetAll_calls (s : State) : (forgetAll s).calls = s.calls := rfl

/-! ## blockPowerOn -/

@[simp] theorem blockPowerOn_par (s : State) : (blockPowerOn s).par = s.par := rfl
@[simp] theorem blockPowerOn_up (s : State) : (blockPowerOn s).up = false := rfl
@[simp] theorem blockPowerOn_chs (s : State) : (blockPowerOn s).chs = List.replicate s.par.nch (Channel.powerOn s.par.cqCap) := rfl
@[simp] theorem blockPowerOn_outq (s : State) : (blockPowerOn s).outq = Ring.powerOn s.par.oqCap := rfl
@[simp] theorem blockPowerOn_acc (s : State) : (blockPowerOn s).acc = none := rfl
@[simp] theorem blockPowerOn_ctl (s : State) : (blockPowerOn s).ctl = Control.powerOn := rfl
@[simp] theorem blockPowerOn_outOvf (s : State) : (blockPowerOn s).outOvf = false := rfl
@[simp] theorem blockPowerOn_held (s : State) : (blockPowerOn s).held = false := rfl
@[simp] theorem blockPowerOn_freeCtr (s : State) : (blockPowerOn s).freeCtr = s.freeCtr := rfl
@[simp] theorem blockPowerOn_mem (s : State) : (blockPowerOn s).mem = s.mem := rfl
@[simp] theorem blockPowerOn_sched (s : State) : (blockPowerOn s).sched = s.sched := rfl
@[simp] theorem blockPowerOn_ev (s : State) : (blockPowerOn s).ev = s.ev := rfl
@[simp] theorem blockPowerOn_queue (s : State) : (blockPowerOn s).queue = s.queue := rfl
@[simp] theorem blockPowerOn_sig (s : State) : (blockPowerOn s).sig = s.sig := rfl
@[simp] theorem blockPowerOn_resp (s : State) : (blockPowerOn s).resp = s.resp := rfl
@[simp] theorem blockPowerOn_snapOut (s : State) : (blockPowerOn s).snapOut = s.snapOut := rfl
@[simp] theorem blockPowerOn_calls (s : State) : (blockPowerOn s).calls = s.calls := rfl

/-! ## present -/

@[simp] theorem present_par (p : Signals) (s : State) : (present p s).par = s.par := rfl
@[simp] theorem present_up (p : Signals) (s : State) : (present p s).up = s.up := rfl
@[simp] theorem present_chs (p : Signals) (s : State) : (present p s).chs = s.chs := rfl
@[simp] theorem present_outq (p : Signals) (s : State) : (present p s).outq = s.outq := rfl
@[simp] theorem present_acc (p : Signals) (s : State) : (present p s).acc = s.acc := rfl
@[simp] theorem present_ctl (p : Signals) (s : State) : (present p s).ctl = s.ctl := rfl
@[simp] theorem present_outOvf (p : Signals) (s : State) : (present p s).outOvf = s.outOvf := rfl
@[simp] theorem present_held (p : Signals) (s : State) : (present p s).held = s.held := rfl
@[simp] theorem present_freeCtr (p : Signals) (s : State) : (present p s).freeCtr = s.freeCtr := rfl
@[simp] theorem present_mem (p : Signals) (s : State) : (present p s).mem = s.mem := rfl
@[simp] theorem present_sched (p : Signals) (s : State) : (present p s).sched = s.sched := rfl
@[simp] theorem present_ev (p : Signals) (s : State) : (present p s).ev = s.ev := rfl
@[simp] theorem present_queue (p : Signals) (s : State) : (present p s).queue = s.queue := rfl
@[simp] theorem present_sig (p : Signals) (s : State) : (present p s).sig = p := rfl
@[simp] theorem present_resp (p : Signals) (s : State) : (present p s).resp = none := rfl
@[simp] theorem present_snapOut (p : Signals) (s : State) : (present p s).snapOut = none := rfl
@[simp] theorem present_calls (p : Signals) (s : State) : (present p s).calls = [] := rfl

/-! ## initEvents, from the lemmas above -/

@[simp] theorem initEvents_par (p : Profile) (s : State) : (initEvents p s).par = s.par := by simp [initEvents]
@[simp] theorem initEvents_up (p : Profile) (s : State) : (initEvents p s).up = s.up := by simp [initEvents]
@[simp] theorem initEvents_chs (p : Profile) (s : State) : (initEvents p s).chs = s.chs := by simp [initEvents]
@[simp] theorem initEvents_outq (p : Profile) (s : State) : (initEvents p s).outq = s.outq := by simp [initEvents]
@[simp] theorem initEvents_acc (p : Profile) (s : State) : (initEvents p s).acc = s.acc := by simp [initEvents]
@[simp] theorem initEvents_ctl (p : Profile) (s : State) : (initEvents p s).ctl = { profileSel := p, hbs := (s.par.profile p).hbs, habs := (s.par.profile p).habs, qmaxf := (s.par.profile p).qmaxf, qminf := (s.par.profile p).qminf, cps := s.sig.cpsIn, audioInterval := interval s.par s.sig.cpsIn (s.par.profile p).hbs, hostInterval := interval s.par s.sig.cpsIn (s.par.profile p).habs, outfreq := s.ctl.outfreq, evAudio := s.sig.evIdAudio, evHost := s.sig.evIdHost } := by simp [initEvents]
@[simp] theorem initEvents_outOvf (p : Profile) (s : State) : (initEvents p s).outOvf = s.outOvf := by simp [initEvents]
@[simp] theorem initEvents_held (p : Profile) (s : State) : (initEvents p s).held = s.held := by simp [initEvents]
@[simp] theorem initEvents_freeCtr (p : Profile) (s : State) : (initEvents p s).freeCtr = s.freeCtr := by simp [initEvents]
@[simp] theorem initEvents_mem (p : Profile) (s : State) : (initEvents p s).mem = s.mem := by simp [initEvents]
@[simp] theorem initEvents_sched (p : Profile) (s : State) : (initEvents p s).sched = s.sched := by simp [initEvents]
@[simp] theorem initEvents_ev (p : Profile) (s : State) : (initEvents p s).ev = { registered := cellsPut (cellsPut s.ev.registered s.par.evnameAudio s.sig.evIdAudio) s.par.evnameHost s.sig.evIdHost, callbacks := cellsPut (cellsPut s.ev.callbacks s.sig.evIdAudio .tick) s.sig.evIdHost .hostpoll, clockCallback := true, pending := s.ev.pending ++ [{ delay := interval s.par s.sig.cpsIn (s.par.profile p).hbs, id := s.sig.evIdAudio, userdata := 0 }] ++ [{ delay := interval s.par s.sig.cpsIn (s.par.profile p).habs, id := s.sig.evIdHost, userdata := 0 }] } := by simp [initEvents]
@[simp] theorem initEvents_queue (p : Profile) (s : State) : (initEvents p s).queue = s.queue := by simp [initEvents]
@[simp] theorem initEvents_sig (p : Profile) (s : State) : (initEvents p s).sig = s.sig := by simp [initEvents]
@[simp] theorem initEvents_resp (p : Profile) (s : State) : (initEvents p s).resp = s.resp := by simp [initEvents]
@[simp] theorem initEvents_snapOut (p : Profile) (s : State) : (initEvents p s).snapOut = s.snapOut := by simp [initEvents]
@[simp] theorem initEvents_calls (p : Profile) (s : State) : (initEvents p s).calls = s.calls ++ [Call.registerEvent s.par.evnameAudio .tick s.sig.evIdAudio] ++ [Call.registerEvent s.par.evnameHost .hostpoll s.sig.evIdHost] ++ [Call.registerClockChange] ++ [Call.schedule (interval s.par s.sig.cpsIn (s.par.profile p).hbs) s.sig.evIdAudio 0] ++ [Call.schedule (interval s.par s.sig.cpsIn (s.par.profile p).habs) s.sig.evIdHost 0] := by simp [initEvents]

end Sys2Proof.Machine
end

