-- ==== Sys2Proof/Laws/Ops.lean ====
section
/-! SUPPORT. What each shared operation of Machine/Ops.lean can do, said once. -/

namespace Sys2Proof.Machine

open Sys2Proof

/-! ## Sequencing and checks -/

@[simp] theorem andThen_next (s : State) (f : State → Out) : andThen (.next s) f = f s := rfl
@[simp] theorem andThen_fault (r : Fault) (f : State → Out) : andThen (.fault r) f = .fault r := rfl
@[simp] theorem andThen_refused (r : Refusal) (f : State → Out) : andThen (.refused r) f = .refused r := rfl

theorem andThen_eq_next {o : Out} {f : State → Out} {t : State} (h : andThen o f = .next t) :
    ∃ s, o = .next s ∧ f s = .next t := by
  cases o with
  | next s => exact ⟨s, rfl, h⟩
  | fault r => cases h
  | refused r => cases h

/-- The three outcomes of the checks (R97 to R99). -/
theorem checked_cases (i : Instr) (body : State → Out) (s : State) :
    (legal i s = false ∧ checked i body s = .next (answer .illegal false 0#32 s))
    ∨ (legal i s = true ∧ acceptedDown i = false ∧ s.up = false
        ∧ checked i body s = .next (answer .down false 0#32 s))
    ∨ (legal i s = true ∧ (acceptedDown i = true ∨ s.up = true) ∧ checked i body s = body s) := by
  unfold checked respond
  cases hl : legal i s <;> cases ha : acceptedDown i <;> cases hu : s.up <;> simp

theorem checked_of_illegal {i : Instr} {s : State} (body : State → Out) (h : legal i s = false) :
    checked i body s = .next (answer .illegal false 0#32 s) := by
  simp [checked, h, respond]

theorem checked_of_down {i : Instr} {s : State} (body : State → Out) (h : legal i s = true)
    (ha : acceptedDown i = false) (hu : s.up = false) : checked i body s = .next (answer .down false 0#32 s) := by
  simp [checked, h, ha, hu, respond]

theorem checked_of_up {i : Instr} {s : State} (body : State → Out) (h : legal i s = true) (hu : s.up = true) :
    checked i body s = body s := by
  simp [checked, h, hu]

theorem checked_of_accepted {i : Instr} {s : State} (body : State → Out) (h : legal i s = true)
    (ha : acceptedDown i = true) : checked i body s = body s := by
  simp [checked, h, ha]

/-- A next state of a checked command: turned away with a response and nothing else changed, or the body's. -/
theorem checked_eq_next {i : Instr} {body : State → Out} {s t : State} (h : checked i body s = .next t) :
    (∃ st, t = answer st false 0#32 s ∧ (st = .illegal ∨ st = .down))
    ∨ (legal i s = true ∧ (acceptedDown i = true ∨ s.up = true) ∧ body s = .next t) := by
  rcases checked_cases i body s with ⟨-, hc⟩ | ⟨-, -, -, hc⟩ | ⟨hl, hu, hc⟩
  · rw [hc] at h; exact .inl ⟨.illegal, by cases h; rfl, .inl rfl⟩
  · rw [hc] at h; exact .inl ⟨.down, by cases h; rfl, .inr rfl⟩
  · rw [hc] at h; exact .inr ⟨hl, hu, h⟩

theorem needHeld_of_held {s : State} (body : State → Out) (h : s.held = true) : needHeld body s = body s := by
  simp [needHeld, h]

theorem needHeld_of_unspec {s : State} (body : State → Out) (h : s.held = false) :
    needHeld body s = .fault (.stateUnspec s.calls) := by
  simp [needHeld, h]

theorem needHeld_eq_next {body : State → Out} {s t : State} (h : needHeld body s = .next t) :
    s.held = true ∧ body s = .next t := by
  unfold needHeld at h
  split at h
  · exact ⟨by assumption, h⟩
  · cases h

/-- What a legal command on a channel says of its index (R97 (d)). -/
theorem legal_channel {i : Instr} {s : State} {ch : BitVec 8} (h : legal i s = true) (hc : channelOf i = some ch) :
    ch.toNat ≤ s.par.chMax := by
  simp [legal, hc] at h
  exact h.2

theorem legal_wellFormed {i : Instr} {s : State} (h : legal i s = true) : i.wellFormed = true := by
  simp [legal] at h
  exact h.1.1

theorem legal_port {i : Instr} {s : State} (h : legal i s = true) : s.sig.port = portOf i := by
  simp [legal] at h
  exact h.1.2

/-- A channel command is legal when its value, its port and its channel are. -/
theorem legal_of_channel {i : Instr} {s : State} {ch : BitVec 8} (hw : i.wellFormed = true)
    (hp : s.sig.port = portOf i) (hc : channelOf i = some ch) (hm : ch.toNat ≤ s.par.chMax) : legal i s = true := by
  simp [legal, hw, hp, hc, hm]

theorem legal_of_plain {i : Instr} {s : State} (hw : i.wellFormed = true) (hp : s.sig.port = portOf i)
    (hc : channelOf i = none) : legal i s = true := by
  simp [legal, hw, hp, hc]

/-! ## Channels -/

theorem getCh_eq_getElem {s : State} {c : Nat} (h : c < s.chs.length) : getCh s c = s.chs[c] := by
  simp [getCh, List.getD_eq_getElem?_getD, h]

theorem getCh_mem {s : State} {c : Nat} (h : c < s.chs.length) : getCh s c ∈ s.chs := by
  rw [getCh_eq_getElem h]; exact List.getElem_mem h

/-- The channel read depends on the channel list only. -/
theorem getCh_congr {s t : State} (h : s.chs = t.chs) (c : Nat) : getCh s c = getCh t c := by
  simp [getCh, h]

theorem getCh_setCh (s : State) (c d : Nat) (k : Channel) :
    getCh (setCh s c k) d = if c = d ∧ c < s.chs.length then k else getCh s d := by
  unfold getCh
  simp only [setCh_chs, List.getD_eq_getElem?_getD, List.getElem?_set]
  by_cases h : c = d
  · subst h
    by_cases hc : c < s.chs.length
    · simp [hc]
    · simp [hc]
  · simp [h]

theorem getCh_setCh_self {s : State} {c : Nat} (k : Channel) (h : c < s.chs.length) :
    getCh (setCh s c k) c = k := by
  rw [getCh_setCh, if_pos ⟨rfl, h⟩]

theorem getCh_setCh_ne (s : State) {c d : Nat} (k : Channel) (h : c ≠ d) : getCh (setCh s c k) d = getCh s d := by
  rw [getCh_setCh, if_neg (fun h' => h h'.1)]

/-- A channel of the updated list is the new one or an old one. -/
theorem mem_setCh {s : State} {c : Nat} {k x : Channel} (h : x ∈ (setCh s c k).chs) : x = k ∨ x ∈ s.chs := by
  rw [setCh_chs] at h
  rcases List.mem_or_eq_of_mem_set h with h | h
  · exact .inr h
  · exact .inl h

/-- What holds before and is kept for each channel holds after all of them. -/
theorem forChannels_induct {f : Nat → State → State} {P : State → Prop} {s : State} (h0 : P s)
    (hf : ∀ c t, c < s.par.nch → P t → P (f c t)) : P (forChannels f s) := by
  have main : ∀ (l : List Nat) (t : State), (∀ c ∈ l, c < s.par.nch) → P t → P (l.foldl (fun s c => f c s) t) := by
    intro l
    induction l with
    | nil => intro t _ ht; exact ht
    | cons c l ih =>
      intro t hl ht
      exact ih _ (fun d hd => hl d (List.mem_cons_of_mem _ hd)) (hf c t (hl c (by simp)) ht)
  exact main _ s (fun c hc => List.mem_range.mp hc) h0

/-- A field that `f` leaves alone on every channel is left alone by all of them. -/
theorem forChannels_frame {β : Type} {f : Nat → State → State} (g : State → β) (hg : ∀ c t, g (f c t) = g t)
    (s : State) : g (forChannels f s) = g s :=
  forChannels_induct (P := fun t => g t = g s) rfl fun c t _ ht => by rw [hg, ht]

/-- The channel list after one independent update of every channel. -/
theorem forChannels_chs {f : Nat → State → State} {g : Channel → Channel}
    (hf : ∀ c t, (f c t).chs = t.chs.set c (g (getCh t c))) {s : State} (hl : s.chs.length = s.par.nch) :
    (forChannels f s).chs = s.chs.map g := by
  have main : ∀ n, n ≤ s.par.nch →
      ((List.range n).foldl (fun s c => f c s) s).chs.length = s.chs.length ∧
      ∀ c, ((List.range n).foldl (fun s c => f c s) s).chs[c]? = if c < n then (s.chs[c]?).map g else s.chs[c]? := by
    intro n
    induction n with
    | zero => intro _; simp
    | succ n ih =>
      intro hn
      obtain ⟨hlen, hget⟩ := ih (by omega)
      rw [List.range_succ, List.foldl_append]
      simp only [List.foldl_cons, List.foldl_nil, hf]
      refine ⟨by simp [hlen], fun c => ?_⟩
      rw [List.getElem?_set]
      have hnl : n < ((List.range n).foldl (fun s c => f c s) s).chs.length := by omega
      by_cases hc : n = c
      · subst hc
        have hx := hget n
        rw [if_neg (by omega)] at hx
        have hns : n < s.chs.length := by omega
        rw [if_pos rfl, if_pos hnl, if_pos (by omega), getCh, List.getD_eq_getElem?_getD, hx,
          List.getElem?_eq_getElem hns]
        rfl
      · rw [if_neg hc, hget c]
        by_cases h1 : c < n
        · rw [if_pos h1, if_pos (by omega)]
        · rw [if_neg h1, if_neg (by omega)]
  obtain ⟨hlen, hget⟩ := main s.par.nch (Nat.le_refl _)
  refine List.ext_getElem? fun c => ?_
  unfold forChannels
  rw [hget c, List.getElem?_map]
  by_cases hc : c < s.par.nch
  · rw [if_pos hc]
  · rw [if_neg hc, List.getElem?_eq_none (by omega)]; rfl

@[simp] theorem channelReset_all_chs {s : State} (hl : s.chs.length = s.par.nch) :
    (forChannels channelReset s).chs = s.chs.map resetChannel :=
  forChannels_chs (fun _ _ => rfl) hl

/-- Resetting every channel touches the channel list and nothing else (R222). -/
theorem channelReset_all {s : State} (hl : s.chs.length = s.par.nch) :
    forChannels channelReset s = { s with chs := s.chs.map resetChannel } := by
  rw [← channelReset_all_chs hl]
  exact forChannels_induct (P := fun t => t = { s with chs := t.chs }) rfl fun c t _ ht => by rw [ht]; rfl

/-- Clearing every channel touches the channel list, the scheduler and the calls, and nothing else (R148). -/
theorem channelClear_all_frame (s : State) : forChannels channelClear s =
    { s with chs := (forChannels channelClear s).chs, sched := (forChannels channelClear s).sched,
             calls := (forChannels channelClear s).calls } := by
  refine forChannels_induct (P := fun t => t = { s with chs := t.chs, sched := t.sched, calls := t.calls }) rfl ?_
  intro c t _ ht
  have h : channelClear c t =
      { t with chs := (channelClear c t).chs, sched := (channelClear c t).sched, calls := (channelClear c t).calls } := rfl
  rw [h]
  generalize (channelClear c t).chs = k
  generalize (channelClear c t).sched = w
  generalize (channelClear c t).calls = x
  rw [ht]

/-! ## The thread scheduler -/

theorem waitId_zero_or {W : Scheduler} {t cat : Nat} (h : waitId W t cat ≠ 0) :
    ∃ r, cellsGet W.waits t = some r ∧ r.category = cat ∧ waitId W t cat = r.key := by
  unfold waitId at h ⊢
  cases hg : cellsGet W.waits t with
  | none => rw [hg] at h; exact absurd rfl h
  | some r =>
    rw [hg] at h
    by_cases hc : r.category = cat
    · exact ⟨r, rfl, hc, by simp [hc]⟩
    · simp [hc] at h

/-- A resumed thread waits no longer; every other wait stands. -/
theorem resumeThread_waits {W : Scheduler} (hs : cellsSorted W.waits) (t u : Nat) (v : U32) :
    cellsGet (resumeThread W t v).waits u = if u = t then none else cellsGet W.waits u :=
  cellsGet_erase hs t u

theorem resumeThread_delivered (W : Scheduler) (t u : Nat) (v : U32) :
    cellsGet (resumeThread W t v).delivered u = if u = t then some v else cellsGet W.delivered u :=
  cellsGet_put _ _ _ _

theorem resumeThread_sorted {W : Scheduler} (t : Nat) (v : U32) (hw : cellsSorted W.waits)
    (hd : cellsSorted W.delivered) :
    cellsSorted (resumeThread W t v).waits ∧ cellsSorted (resumeThread W t v).delivered :=
  ⟨cellsSorted_erase hw t, cellsSorted_put hd t v⟩

/-! ## WakeThreads -/

theorem wakeList_sorted (P : Params) (c : Nat) (r : U32) (st : WakeStep) (es : List WaitEntry) (W : Scheduler)
    (hw : cellsSorted W.waits) (hd : cellsSorted W.delivered) :
    cellsSorted (wakeList P c r st es W).2.1.waits ∧ cellsSorted (wakeList P c r st es W).2.1.delivered := by
  induction es generalizing W with
  | nil => exact ⟨hw, hd⟩
  | cons e es ih =>
    simp only [wakeList]
    split
    · split
      · exact ih _ (cellsSorted_erase hw _) (cellsSorted_put hd _ _)
      · exact ih _ hw hd
    · exact ih _ hw hd

/-- With `step = +inf` no entry stays (R181). -/
theorem wakeList_infinity (P : Params) (c : Nat) (r : U32) (es : List WaitEntry) (W : Scheduler) :
    (wakeList P c r .infinity es W).1 = [] := by
  induction es generalizing W with
  | nil => rfl
  | cons e es ih =>
    simp only [wakeList, WakeStep.reached, if_true]
    split
    · exact ih _
    · exact ih _

/-- Every call of the loop resumes a thread of the list, with its payload or with ERR_NOT_RESERVED (R181). -/
theorem wakeList_calls (P : Params) (c : Nat) (r : U32) (st : WakeStep) (es : List WaitEntry) (W : Scheduler) :
    ∀ x ∈ (wakeList P c r st es W).2.2, ∃ e ∈ es, ∃ v, x = .resume e.thread v := by
  induction es generalizing W with
  | nil => intro x hx; cases hx
  | cons e es ih =>
    intro x hx
    simp only [wakeList] at hx
    split at hx
    · split at hx
      · rcases List.mem_cons.mp hx with hx | hx
        · exact ⟨e, by simp, _, hx⟩
        · obtain ⟨d, hd, v, hv⟩ := ih _ x hx
          exact ⟨d, List.mem_cons_of_mem _ hd, v, hv⟩
      · obtain ⟨d, hd, v, hv⟩ := ih _ x hx
        exact ⟨d, List.mem_cons_of_mem _ hd, v, hv⟩
    · obtain ⟨d, hd, v, hv⟩ := ih _ x hx
      exact ⟨d, List.mem_cons_of_mem _ hd, v, hv⟩

/-- A wake touches one channel's wait list and nothing else of any channel. -/
theorem getCh_wakeThreads (c d : Nat) (r : U32) (st : WakeStep) (s : State) :
    getCh (wakeThreads c r st s) d =
      if c = d ∧ c < s.chs.length then
        { getCh s c with waiting := (wakeList s.par c r st (getCh s c).waiting s.sched).1 }
      else getCh s d := by
  rw [← getCh_setCh]
  exact getCh_congr (by simp) d

/-- ChannelClear leaves the record ChannelReset leaves (R148, R222). -/
theorem channelClear_chs (c : Nat) (s : State) :
    (channelClear c s).chs = s.chs.set c (resetChannel (getCh s c)) := by
  have h : resetChannel (getCh (wakeThreads c s.par.errNotReserved .infinity s) c) = resetChannel (getCh s c) := by
    rw [getCh_wakeThreads]
    split <;> rfl
  unfold channelClear
  rw [channelReset_chs, h, wakeThreads_chs, List.set_set]

theorem channelClear_all_chs {s : State} (hl : s.chs.length = s.par.nch) :
    (forChannels channelClear s).chs = s.chs.map resetChannel :=
  forChannels_chs channelClear_chs hl

@[simp] theorem resetChannel_wf {cap : Nat} {k : Channel} (hcap : 0 < cap) (h : k.queue.storage.length = cap) :
    channelWf cap (resetChannel k) = true := by
  simp [channelWf, resetChannel, ringClear_wf hcap h, ringClear_even]

/-! ## Events -/

/-- A firing takes its occurrence away, or does nothing where nothing is called back. -/
theorem fireOccurrence_cases (n : Nat) (e : Events) :
    (calledBack e n = none ∧ fireOccurrence n e = e)
    ∨ (∃ cb, calledBack e n = some cb ∧ fireOccurrence n e = { e with pending := e.pending.eraseIdx n }) := by
  unfold fireOccurrence; cases h : calledBack e n <;> simp

theorem calledBack_of_pending {e : Events} {n : Nat} {o : Occurrence} (h : e.pending[n]? = some o) :
    calledBack e n = cellsGet e.callbacks o.id := by
  simp [calledBack, h]

/-- The words a callback presents are read back as its commands. -/
theorem decode_callbackCommand (cb : Callback) : decode (encode (callbackCommand cb)) = .ok (callbackCommand cb) := by
  cases cb <;> decide +kernel

theorem decode_clkchg : decode (encode .clkchg) = .ok .clkchg := by decide +kernel

@[simp] theorem fireOccurrence_registered (n : Nat) (e : Events) : (fireOccurrence n e).registered = e.registered := by
  rcases fireOccurrence_cases n e with ⟨-, h⟩ | ⟨_, -, h⟩ <;> rw [h]

@[simp] theorem fireOccurrence_callbacks (n : Nat) (e : Events) : (fireOccurrence n e).callbacks = e.callbacks := by
  rcases fireOccurrence_cases n e with ⟨-, h⟩ | ⟨_, -, h⟩ <;> rw [h]

@[simp] theorem fireOccurrence_clockCallback (n : Nat) (e : Events) :
    (fireOccurrence n e).clockCallback = e.clockCallback := by
  rcases fireOccurrence_cases n e with ⟨-, h⟩ | ⟨_, -, h⟩ <;> rw [h]

/-! ## Free values have the shape of what they stand for -/

theorem forgetPersisted_shape (s : State) :
    (forgetPersisted s).chs.length = s.par.nch
    ∧ (∀ k ∈ (forgetPersisted s).chs, k.queue.storage.length = s.par.cqCap)
    ∧ (forgetPersisted s).outq.storage.length = s.par.oqCap := by
  refine ⟨by simp, fun k hk => ?_, by simp [freeOutq]⟩
  rw [forgetPersisted_chs, List.mem_map] at hk
  obtain ⟨c, -, rfl⟩ := hk
  simp [freeChannel]

theorem allocAcc_length (s : State) : ∃ a, (allocAcc s).acc = some a ∧ a.length = 2 * s.ctl.hbs :=
  ⟨_, rfl, by simp⟩

end Sys2Proof.Machine
end

