-- ==== Sys2Proof/Laws/Exec.lean ====
section
/-! SUPPORT. What each meaning can do, said once: the command's own rule behind the checks, and for every body what a
next state of it looks like. -/

namespace Sys2Proof.Machine

open Sys2Proof

/-! ## The checks in the words of Safety.lean -/

theorem legal_iff (i : Instr) (s : State) : legal i s = true ↔ Accepted i s := by
  unfold legal Accepted
  cases hc : channelOf i <;> simp [and_comm, and_left_comm]

theorem legal_of_ready {i : Instr} {s : State} (h : Ready i s) : legal i s = true := (legal_iff i s).mpr h.1

/-- The rule of a command behind the checks of R97 to R99. -/
def bodyOf : Instr → State → Out
  | .init p, s      => match profileOf p with
                       | none   => illegalWord s
                       | some v => initBody v s
  | .shutdown, s    => needHeld (fun s =>
                         respond .ok 0#32 { forgetAll (forChannels channelClear s) with up := false }) s
  | .clkchg, s      => respond .ok 0#32 (deriveIntervals s)
  | .setfreq f, s   => respond .ok 0#32 { s with ctl := { s.ctl with outfreq := f } }
  | .save, s        => needHeld (fun s => respond .ok 0#32 { s with snapOut := some (snapshotOf s) }) s
  | .load, s        => loadBody s
  | .rdstat, s      => respond .ok (statusWord s) s
  | .setrsv ch v, s => respond .ok 0#32 (setCh s ch.toNat { getCh s ch.toNat with reserved := v })
  | .setfmt ch f, s => respond .ok 0#32 (setCh s ch.toNat { getCh s ch.toNat with format := f })
  | .setaddr ch a, s => respond .ok 0#32 (setCh s ch.toNat { getCh s ch.toNat with sampleAddress := a })
  | .setcnt ch n, s => respond .ok 0#32 (setCh s ch.toNat { getCh s ch.toNat with sampleCount := n })
  | .setvoll ch g, s => respond .ok 0#32 (setCh s ch.toNat { getCh s ch.toNat with leftVolume := g })
  | .setvolr ch g, s => respond .ok 0#32 (setCh s ch.toNat { getCh s ch.toNat with rightVolume := g })
  | .enq ch b, s    => needHeld (enqBody ch.toNat b) s
  | .chclr ch, s    => needHeld (fun s => respond .ok 0#32 (channelClear ch.toNat s)) s
  | .tick, s        => tickBody s
  | .hostpoll, s    => respond .ok 0#32 (addCall .pollDevice
                         (evSchedule ((s.ctl.hostInterval : Int) - s.sig.lateIn) s.ctl.evHost s))
  | .pull n, s      => if s.sig.during.isSome then .fault (.race s.calls) else needHeld (pullBody n) s

/-- Every meaning is its rule behind the same checks. -/
theorem exec_eq_checked (i : Instr) (s : State) : exec i s = checked i (bodyOf i) s := by
  cases i <;> rfl

theorem exec_of_ready {i : Instr} {s : State} (h : Ready i s) : exec i s = bodyOf i s := by
  rw [exec_eq_checked, checked_of_up _ (legal_of_ready h) h.2]

theorem exec_of_not_accepted {i : Instr} {s : State} (h : ¬ Accepted i s) :
    exec i s = .next (answer .illegal false 0#32 s) := by
  rw [exec_eq_checked, checked_of_illegal]
  rw [← legal_iff] at h
  simpa using h

/-- A next state of a command: turned away with a response and nothing else, or its rule's. -/
theorem exec_eq_next {i : Instr} {s t : State} (h : exec i s = .next t) :
    (∃ st, t = answer st false 0#32 s ∧ (st = .illegal ∨ st = .down))
    ∨ (Accepted i s ∧ (acceptedDown i = true ∨ s.up = true) ∧ bodyOf i s = .next t) := by
  rw [exec_eq_checked] at h
  rcases checked_eq_next h with h | ⟨h1, h2⟩
  · exact .inl h
  · exact .inr ⟨(legal_iff i s).mp h1, h2⟩

/-- A fault of a command is its rule's. -/
theorem exec_eq_fault {i : Instr} {s : State} {r : Fault} (h : exec i s = .fault r) :
    Accepted i s ∧ (acceptedDown i = true ∨ s.up = true) ∧ bodyOf i s = .fault r := by
  rw [exec_eq_checked] at h
  rcases checked_cases i (bodyOf i) s with ⟨-, hc⟩ | ⟨-, -, -, hc⟩ | ⟨hl, hu, hc⟩ <;> rw [hc] at h
  · cases h
  · cases h
  · exact ⟨(legal_iff i s).mp hl, hu, h⟩

theorem needHeld_eq_fault {body : State → Out} {s : State} {r : Fault} (h : needHeld body s = .fault r) :
    (s.held = false ∧ r = .stateUnspec s.calls) ∨ (s.held = true ∧ body s = .fault r) := by
  unfold needHeld at h
  split at h
  · next hh => exact .inr ⟨hh, h⟩
  · next hh => cases h; exact .inl ⟨by simpa using hh, rfl⟩

theorem respond_eq_next {st : Status} {v : U32} {s t : State} (h : respond st v s = .next t) :
    t = answer st false v s := by cases h; rfl

/-! ## WakeThreads, thread by thread -/

/-- A thread's wait id after another was resumed. -/
theorem waitId_resumeThread {W : Scheduler} (hs : cellsSorted W.waits) (t u cat : Nat) (v : U32) :
    waitId (resumeThread W t v) u cat = if u = t then 0 else waitId W u cat := by
  unfold waitId
  rw [resumeThread_waits hs]
  by_cases h : u = t <;> simp [h]

theorem waitValue_resumeThread {W : Scheduler} (hs : cellsSorted W.waits) {t u : Nat} (v : U32) (h : u ≠ t) :
    waitValue (resumeThread W t v) u = waitValue W u := by
  unfold waitValue
  rw [resumeThread_waits hs, if_neg h]

theorem resumeValue_resumeThread {W : Scheduler} (hs : cellsSorted W.waits) (P : Params) (r : U32) {t u : Nat} (v : U32)
    (h : u ≠ t) : resumeValue P r (resumeThread W t v) u = resumeValue P r W u := by
  unfold resumeValue
  rw [waitValue_resumeThread hs v h]

/-- The threads one pass resumes (R181): parked on this wait, with an entry whose threshold is reached. -/
def Due (P : Params) (c : Nat) (st : WakeStep) (es : List WaitEntry) (W : Scheduler) (u : Nat) : Prop :=
  waitId W u P.waitAudio = c + 1 ∧ ∃ e ∈ es, e.thread = u ∧ st.reached e.remaining = true

/-- The loop of WakeThreads (R181): a due thread is resumed once, with what it receives, and waits no longer; no
other thread is touched. -/
theorem wakeList_spec (P : Params) (c : Nat) (r : U32) (st : WakeStep) (es : List WaitEntry) (W : Scheduler)
    (hs : cellsSorted W.waits) (u : Nat) :
    (Due P c st es W u → cellsGet (wakeList P c r st es W).2.1.waits u = none
        ∧ cellsGet (wakeList P c r st es W).2.1.delivered u = some (resumeValue P r W u)
        ∧ (wakeList P c r st es W).2.2.count (.resume u (resumeValue P r W u)) = 1)
    ∧ (¬ Due P c st es W u → cellsGet (wakeList P c r st es W).2.1.waits u = cellsGet W.waits u
        ∧ cellsGet (wakeList P c r st es W).2.1.delivered u = cellsGet W.delivered u
        ∧ ∀ v, .resume u v ∉ (wakeList P c r st es W).2.2) := by
  induction es generalizing W with
  | nil => exact ⟨fun h => absurd h.2 (by simp), fun _ => ⟨rfl, rfl, by simp [wakeList]⟩⟩
  | cons e es ih =>
    simp only [wakeList]
    by_cases hh : waitId W e.thread P.waitAudio = c + 1
    · rw [if_pos hh]
      by_cases hd : st.reached e.remaining = true
      · rw [if_pos hd]
        obtain ⟨ih1, ih2⟩ := ih (resumeThread W e.thread (resumeValue P r W e.thread)) (cellsSorted_erase hs _)
        by_cases hu : u = e.thread
        · subst hu
          have hn : ¬ Due P c st es (resumeThread W e.thread (resumeValue P r W e.thread)) e.thread := by
            intro h; have := h.1; rw [waitId_resumeThread hs, if_pos rfl] at this; omega
          obtain ⟨a, b, d⟩ := ih2 hn
          refine ⟨fun _ => ⟨?_, ?_, ?_⟩, fun h => absurd ⟨hh, e, by simp, rfl, hd⟩ h⟩
          · rw [a, resumeThread_waits hs, if_pos rfl]
          · rw [b, resumeThread_delivered, if_pos rfl]
          · rw [List.count_cons_self, List.count_eq_zero_of_not_mem (d _)]
        · have hiff : Due P c st es (resumeThread W e.thread (resumeValue P r W e.thread)) u ↔ Due P c st (e :: es) W u := by
            unfold Due
            rw [waitId_resumeThread hs, if_neg hu]
            simp [Ne.symm hu]
          rw [hiff, resumeValue_resumeThread hs P r _ hu] at ih1
          rw [hiff, resumeThread_waits hs, if_neg hu, resumeThread_delivered, if_neg hu] at ih2
          refine ⟨fun h => ?_, fun h => ?_⟩
          · obtain ⟨a, b, d⟩ := ih1 h
            exact ⟨a, b, by rw [List.count_cons_of_ne (by simp [Ne.symm hu]), d]⟩
          · obtain ⟨a, b, d⟩ := ih2 h
            exact ⟨a, b, fun v hv => by
              rcases List.mem_cons.mp hv with hv | hv
              · cases hv; exact hu rfl
              · exact d v hv⟩
      · rw [if_neg hd]
        have hiff : Due P c st es W u ↔ Due P c st (e :: es) W u := by
          unfold Due; simp [hd]
        rw [← hiff]; exact ih W hs
    · rw [if_neg hh]
      have hiff : Due P c st es W u ↔ Due P c st (e :: es) W u := by
        unfold Due
        constructor
        · rintro ⟨h1, d, h2, h3⟩; exact ⟨h1, d, List.mem_cons_of_mem _ h2, h3⟩
        · rintro ⟨h1, d, h2, h3, h4⟩
          refine ⟨h1, d, ?_, h3, h4⟩
          rcases List.mem_cons.mp h2 with rfl | h2
          · rw [h3] at hh; exact absurd h1 hh
          · exact h2
      rw [← hiff]; exact ih W hs

/-- Every call of a pass resumes a due thread with what it receives. -/
theorem mem_wakeList_calls {P : Params} {c : Nat} {r : U32} {st : WakeStep} {es : List WaitEntry} {W : Scheduler}
    (hs : cellsSorted W.waits) {x : Call} (h : x ∈ (wakeList P c r st es W).2.2) :
    ∃ u, Due P c st es W u ∧ x = .resume u (resumeValue P r W u) := by
  induction es generalizing W with
  | nil => cases h
  | cons e es ih =>
    have weaken : ∀ {u}, Due P c st es W u → Due P c st (e :: es) W u :=
      fun ⟨h1, d, h2, h3⟩ => ⟨h1, d, List.mem_cons_of_mem _ h2, h3⟩
    simp only [wakeList] at h
    split at h
    · next hh =>
      split at h
      · next hd =>
        rcases List.mem_cons.mp h with h | h
        · exact ⟨e.thread, ⟨hh, e, by simp, rfl, hd⟩, h⟩
        · obtain ⟨u, ⟨h1, h2⟩, h3⟩ := ih (cellsSorted_erase hs _) h
          have hu : u ≠ e.thread := by
            rintro rfl; rw [waitId_resumeThread hs, if_pos rfl] at h1; omega
          rw [waitId_resumeThread hs, if_neg hu] at h1
          rw [resumeValue_resumeThread hs P r _ hu] at h3
          exact ⟨u, weaken ⟨h1, h2⟩, h3⟩
      · obtain ⟨u, h1, h2⟩ := ih hs h
        exact ⟨u, weaken h1, h2⟩
    · obtain ⟨u, h1, h2⟩ := ih hs h
      exact ⟨u, weaken h1, h2⟩

/-- A pass that resumes nobody makes no call. -/
theorem wakeList_calls_nil_iff (P : Params) (c : Nat) (r : U32) (st : WakeStep) (es : List WaitEntry) (W : Scheduler)
    (hs : cellsSorted W.waits) :
    (wakeList P c r st es W).2.2 = [] ↔ ∀ u, ¬ Due P c st es W u := by
  constructor
  · intro h u hu
    have := ((wakeList_spec P c r st es W hs u).1 hu).2.2
    rw [h] at this; simp at this
  · intro h
    refine List.eq_nil_iff_forall_not_mem.mpr fun x hx => ?_
    obtain ⟨e, -, v, rfl⟩ := wakeList_calls P c r st es W x hx
    exact ((wakeList_spec P c r st es W hs e.thread).2 (h _)).2.2 v hx

/-- A pass looks at the scheduler only through who is parked on its own wait, and what those threads receive. -/
theorem wakeList_congr (P : Params) (c : Nat) (r : U32) (st : WakeStep) (es : List WaitEntry) {W W' : Scheduler}
    (hs : cellsSorted W.waits) (hs' : cellsSorted W'.waits)
    (hid : ∀ u, waitId W u P.waitAudio = c + 1 ↔ waitId W' u P.waitAudio = c + 1)
    (hv : ∀ u, waitId W u P.waitAudio = c + 1 → waitValue W u = waitValue W' u) :
    (wakeList P c r st es W).1 = (wakeList P c r st es W').1
    ∧ (wakeList P c r st es W).2.2 = (wakeList P c r st es W').2.2 := by
  induction es generalizing W W' with
  | nil => exact ⟨rfl, rfl⟩
  | cons e es ih =>
    simp only [wakeList]
    by_cases hh : waitId W e.thread P.waitAudio = c + 1
    · rw [if_pos hh, if_pos ((hid _).mp hh)]
      by_cases hd : st.reached e.remaining = true
      · rw [if_pos hd, if_pos hd]
        have hr : resumeValue P r W e.thread = resumeValue P r W' e.thread := by
          simp only [resumeValue, hv _ hh]
        have := ih (W := resumeThread W e.thread (resumeValue P r W e.thread))
          (W' := resumeThread W' e.thread (resumeValue P r W' e.thread)) (cellsSorted_erase hs _)
          (cellsSorted_erase hs' _) (fun u => by
            rw [waitId_resumeThread hs, waitId_resumeThread hs']
            split
            · rfl
            · exact hid u) (fun u hu => by
            rw [waitId_resumeThread hs] at hu
            split at hu
            · omega
            · next hne => rw [waitValue_resumeThread hs _ hne, waitValue_resumeThread hs' _ hne]; exact hv u hu)
        rw [← hr] at this ⊢
        exact ⟨this.1, by rw [this.2]⟩
      · rw [if_neg hd, if_neg hd]
        have := ih hs hs' hid hv
        exact ⟨by simp only [this.1], this.2⟩
    · rw [if_neg hh, if_neg (fun h' => hh ((hid _).mpr h'))]; exact ih hs hs' hid hv

/-- A pass over channel `c` leaves alone who is parked on another channel, with what payload. -/
theorem wakeList_other (P : Params) {c d : Nat} (hcd : c ≠ d) (r : U32) (st : WakeStep) (es : List WaitEntry)
    {W : Scheduler} (hs : cellsSorted W.waits) (u : Nat) :
    (waitId (wakeList P c r st es W).2.1 u P.waitAudio = d + 1 ↔ waitId W u P.waitAudio = d + 1)
    ∧ (waitId W u P.waitAudio = d + 1 → waitValue (wakeList P c r st es W).2.1 u = waitValue W u) := by
  have := wakeList_spec P c r st es W hs u
  by_cases h : Due P c st es W u
  · have h1 := (this.1 h).1
    have h2 := h.1
    have h0 : waitId (wakeList P c r st es W).2.1 u P.waitAudio = 0 := by simp [waitId, h1]
    exact ⟨⟨fun h => by omega, fun h => by omega⟩, fun h => by omega⟩
  · have h1 := (this.2 h).1
    unfold waitId waitValue; rw [h1]
    exact ⟨Iff.rfl, fun _ => rfl⟩

/-! ## ENQ -/

/-- The end of ENQ cannot fail at the push: the room was tested (R122, R166). -/
theorem enqData_cases (c : Nat) (ret : U32) (parked : Bool) (s : State) :
    ((getCh s c).sampleAddress = 0#32 ∧ enqData c ret parked s = .next (answer .ok parked ret s))
    ∨ ((getCh s c).sampleAddress ≠ 0#32 ∧ s.par.cqCap - (getCh s c).queue.count < 2 * (getCh s c).sampleCount.toNat
        ∧ enqData c ret parked s = .fault (.cqOverflow s.calls))
    ∨ ((getCh s c).sampleAddress ≠ 0#32 ∧ 2 * (getCh s c).sampleCount.toNat ≤ s.par.cqCap - (getCh s c).queue.count
        ∧ ∃ a, scaledSamples s.mem (getCh s c) = .error a
          ∧ enqData c ret parked s = .fault (.mem a s.calls))
    ∨ ((getCh s c).sampleAddress ≠ 0#32 ∧ 2 * (getCh s c).sampleCount.toNat ≤ s.par.cqCap - (getCh s c).queue.count
        ∧ ∃ q, scaledSamples s.mem (getCh s c) = .ok (specSamples s.mem (getCh s c))
          ∧ pushN s.par.cqCap (getCh s c).queue (specSamples s.mem (getCh s c)) = .ok q
          ∧ enqData c ret parked s = .next (answer .ok parked ret (setCh s c { getCh s c with queue := q }))) := by
  unfold enqData ringFree
  simp only []
  by_cases ha : (getCh s c).sampleAddress = 0#32
  · exact .inl ⟨ha, by simp [ha]⟩
  right
  by_cases hr : s.par.cqCap - (getCh s c).queue.count < 2 * (getCh s c).sampleCount.toNat
  · exact .inl ⟨ha, hr, by simp [ha, hr]⟩
  right
  rw [if_neg ha, if_neg hr]
  cases hs : scaledSamples s.mem (getCh s c) with
  | error a => exact .inl ⟨ha, by omega, a, rfl, rfl⟩
  | ok vs =>
    right
    obtain ⟨-, rfl⟩ := scaledSamples_ok hs
    obtain ⟨q, hq⟩ := (pushN_ok_iff s.par.cqCap (getCh s c).queue (specSamples s.mem (getCh s c))).mpr
      (by rw [specSamples_length]; unfold ringFree; omega)
    refine ⟨ha, by omega, q, rfl, hq, ?_⟩
    simp only [hq]

/-- The ways ENQ can go (R161): busy, parked, cannot wait, or an empty queue. -/
theorem enqBody_cases (c : Nat) (b : Bool) (s : State) :
    ((getCh s c).queue.count = 0 ∧ enqBody c b s = enqData c (enqReturn s.par c (getCh s c)) false s)
    ∨ (0 < (getCh s c).queue.count ∧ b = false ∧ enqBody c b s = respond .ok s.par.errBusy s)
    ∨ (0 < (getCh s c).queue.count ∧ b = true ∧ s.sig.dispatchEnabled = true
        ∧ enqBody c b s = enqData c (enqReturn s.par c (getCh s c)) true
            (park c (blockSamples s.ctl.qminf (getCh s c).queue.count) (enqReturn s.par c (getCh s c)) s))
    ∨ (0 < (getCh s c).queue.count ∧ b = true ∧ s.sig.dispatchEnabled = false
        ∧ enqBody c b s = enqData c s.par.errCannotWait false s) := by
  unfold enqBody
  by_cases hc : (getCh s c).queue.count = 0
  · exact .inl ⟨hc, by simp [hc]⟩
  · cases b <;> cases hd : s.sig.dispatchEnabled <;> simp [hc] <;> omega

/-- The channel as the data path sees it after the park: the queue and the registers are as before. -/
theorem getCh_park (c d : Nat) (r : Int) (v : U32) (s : State) :
    getCh (park c r v s) d =
      if c = d ∧ c < s.chs.length then
        { getCh s c with waiting := (getCh s c).waiting ++ [{ thread := s.sig.currentThread, remaining := r }] }
      else getCh s d := by
  rw [← getCh_setCh]
  exact getCh_congr (by simp) d

/-- The samples of an ENQ depend on the registers of the channel alone. -/
theorem specSamples_congr (m : Memory) {k k' : Channel} (h : SameRegisters k k') : specSamples m k' = specSamples m k := by
  rw [h]; rfl

/-- What ENQ's rule can do to the state, whichever way it goes: the channel's queue stays as it is where the rule does
not reach the data path, and else gains the samples of R166. -/
theorem enqBody_eq_next {c : Nat} {b : Bool} {s t : State} (h : enqBody c b s = .next t) :
    t = { s with chs := t.chs, sched := t.sched, calls := t.calls, resp := t.resp }
    ∧ (∃ k, t.chs = s.chs.set c k ∧ SameRegisters (getCh s c) k
        ∧ (k.queue = (getCh s c).queue
            ∧ ((getCh s c).sampleAddress = 0#32 ∨ (0 < (getCh s c).queue.count ∧ b = false) ∨ ¬ c < s.chs.length)
          ∨ pushN s.par.cqCap (getCh s c).queue (specSamples s.mem (getCh s c)) = .ok k.queue))
    ∧ (t.sched = s.sched
        ∨ ∃ r, t.sched = { s.sched with waits := cellsPut s.sched.waits s.sig.currentThread r })
    ∧ (∃ p v, t.resp = some { status := .ok, parked := p, value := v } ∧ (p = true → b = true)) := by
  have hself : s.chs = s.chs.set c (getCh s c) := by
    by_cases hc : c < s.chs.length
    · rw [getCh_eq_getElem hc]; simp
    · rw [List.set_eq_of_length_le (by omega)]
  have main : ∀ (ret : U32) (p : Bool) (u : State), (p = true → b = true) →
      u = { s with chs := u.chs, sched := u.sched, calls := u.calls } →
      (∃ k, u.chs = s.chs.set c k ∧ SameRegisters (getCh s c) k ∧ k.queue = (getCh s c).queue
        ∧ (c < s.chs.length → getCh u c = k) ∧ (¬ c < s.chs.length → getCh u c = getCh s c)) →
      (u.sched = s.sched ∨ ∃ r, u.sched = { s.sched with waits := cellsPut s.sched.waits s.sig.currentThread r }) →
      enqData c ret p u = .next t →
      t = { s with chs := t.chs, sched := t.sched, calls := t.calls, resp := t.resp }
      ∧ (∃ k, t.chs = s.chs.set c k ∧ SameRegisters (getCh s c) k
          ∧ (k.queue = (getCh s c).queue
              ∧ ((getCh s c).sampleAddress = 0#32 ∨ (0 < (getCh s c).queue.count ∧ b = false) ∨ ¬ c < s.chs.length)
            ∨ pushN s.par.cqCap (getCh s c).queue (specSamples s.mem (getCh s c)) = .ok k.queue))
      ∧ (t.sched = s.sched
          ∨ ∃ r, t.sched = { s.sched with waits := cellsPut s.sched.waits s.sig.currentThread r })
      ∧ (∃ p v, t.resp = some { status := .ok, parked := p, value := v } ∧ (p = true → b = true)) := by
    intro ret p u hp hu ⟨k, hk1, hk2, hk3, hk4, hk5⟩ hσ he
    have hpar : u.par = s.par := by rw [hu]
    have hmem : u.mem = s.mem := by rw [hu]
    rcases enqData_cases c ret p u with ⟨ha, e⟩ | ⟨-, -, e⟩ | ⟨-, -, a, -, e⟩ | ⟨-, -, q, -, hq, e⟩ <;> rw [e] at he
    · cases he
      refine ⟨?_, ⟨k, hk1, hk2, .inl ⟨hk3, ?_⟩⟩, hσ, ⟨p, ret, rfl, hp⟩⟩
      · rw [hu]; rfl
      · by_cases hc : c < s.chs.length
        · rw [hk4 hc, hk2] at ha; exact .inl ha
        · exact .inr (.inr hc)
    · cases he
    · cases he
    · cases he
      refine ⟨?_, ?_, hσ, ⟨p, ret, rfl, hp⟩⟩
      · rw [hu]; rfl
      · by_cases hc : c < s.chs.length
        · rw [hk4 hc, hpar, hmem, hk3, specSamples_congr s.mem hk2] at hq
          refine ⟨{ k with queue := q }, ?_, ?_, .inr hq⟩
          · simp [hk1, hk4 hc]
          · rw [SameRegisters, hk2]
        · refine ⟨getCh s c, ?_, rfl, .inl ⟨rfl, .inr (.inr hc)⟩⟩
          rw [List.set_eq_of_length_le (by omega)]
          simp only [answer_chs, setCh_chs, hk1]
          rw [List.set_eq_of_length_le (by simp; omega), List.set_eq_of_length_le (by omega)]
  have triv : ∃ k, s.chs = s.chs.set c k ∧ SameRegisters (getCh s c) k ∧ k.queue = (getCh s c).queue
      ∧ (c < s.chs.length → getCh s c = k) ∧ (¬ c < s.chs.length → getCh s c = getCh s c) :=
    ⟨getCh s c, hself, rfl, rfl, fun _ => rfl, fun _ => rfl⟩
  rcases enqBody_cases c b s with ⟨-, e⟩ | ⟨hn, hb, e⟩ | ⟨-, hb, -, e⟩ | ⟨-, -, -, e⟩ <;> rw [e] at h
  · exact main _ _ s (by simp) rfl triv (.inl rfl) h
  · rw [respond_eq_next h]
    exact ⟨rfl, ⟨getCh s c, hself, rfl, .inl ⟨rfl, .inr (.inl ⟨hn, hb⟩)⟩⟩, .inl rfl, ⟨false, _, rfl, by simp⟩⟩
  · refine main _ _ _ (fun _ => hb) rfl ⟨_, park_chs .., ?_, ?_, ?_, ?_⟩ (.inr ⟨_, park_sched ..⟩) h
    · rfl
    · rfl
    · intro hc; rw [getCh_park, if_pos ⟨rfl, hc⟩]
    · intro hc; rw [getCh_park, if_neg (fun h' => hc h'.2)]
  · exact main _ _ s (by simp) rfl triv (.inl rfl) h

/-! ## TICK -/

theorem getCh_addToAcc (vs : List S16) (c : Nat) (s : State) : getCh (addToAcc vs s) c = getCh s c := rfl

/-- What one channel of a tick can do; it never fails (R123, R184). -/
theorem mixChannel_cases (c : Nat) (s : State) :
    ((getCh s c).reserved = false ∧ mixChannel c s = .next s)
    ∨ ((getCh s c).reserved = true
        ∧ (getCh (wakeThreads c 0#32 (.frames s.ctl.hbs) s) c).queue.count = 0
        ∧ mixChannel c s = .next (wakeThreads c 0#32 (.frames s.ctl.hbs) s))
    ∨ ((getCh s c).reserved = true ∧ ∃ vs q,
        popN s.par.cqCap (getCh (wakeThreads c 0#32 (.frames s.ctl.hbs) s) c).queue
          (min (getCh (wakeThreads c 0#32 (.frames s.ctl.hbs) s) c).queue.count (2 * s.ctl.hbs)) = .ok (vs, q)
        ∧ mixChannel c s = .next
            (addToAcc vs (setCh (wakeThreads c 0#32 (.frames s.ctl.hbs) s) c
              { getCh (wakeThreads c 0#32 (.frames s.ctl.hbs) s) c with queue := q }))) := by
  by_cases hr : (getCh s c).reserved = false
  · exact .inl ⟨hr, by simp only [mixChannel, if_pos hr]⟩
  right
  have hr' : (getCh s c).reserved = true := by simpa using hr
  have hm : mixChannel c s =
      if (getCh (wakeThreads c 0#32 (.frames s.ctl.hbs) s) c).queue.count = 0 then
        .next (wakeThreads c 0#32 (.frames s.ctl.hbs) s)
      else
        match popN s.par.cqCap (getCh (wakeThreads c 0#32 (.frames s.ctl.hbs) s) c).queue
          (min (getCh (wakeThreads c 0#32 (.frames s.ctl.hbs) s) c).queue.count (2 * s.ctl.hbs)) with
        | .error _    => .fault (.ringUnderflow (wakeThreads c 0#32 (.frames s.ctl.hbs) s).calls)
        | .ok (vs, q) => .next (addToAcc vs (setCh (wakeThreads c 0#32 (.frames s.ctl.hbs) s) c
            { getCh (wakeThreads c 0#32 (.frames s.ctl.hbs) s) c with queue := q })) := by
    simp only [mixChannel, if_neg hr, wakeThreads_par]
    rfl
  rw [hm]
  by_cases hc : (getCh (wakeThreads c 0#32 (.frames s.ctl.hbs) s) c).queue.count = 0
  · exact .inl ⟨hr', hc, by rw [if_pos hc]⟩
  right
  obtain ⟨⟨vs, q⟩, hp⟩ := (popN_ok_iff s.par.cqCap (getCh (wakeThreads c 0#32 (.frames s.ctl.hbs) s) c).queue
    (min (getCh (wakeThreads c 0#32 (.frames s.ctl.hbs) s) c).queue.count (2 * s.ctl.hbs))).mpr (Nat.min_le_left _ _)
  exact ⟨hr', vs, q, hp, by rw [if_neg hc, hp]⟩

/-- The channels of a tick always go through. -/
theorem mixChannels_total (cs : List Nat) (s : State) : ∃ t, mixChannels cs s = .next t := by
  induction cs generalizing s with
  | nil => exact ⟨s, rfl⟩
  | cons c cs ih =>
    simp only [mixChannels]
    rcases mixChannel_cases c s with ⟨-, h⟩ | ⟨-, -, h⟩ | ⟨-, vs, q, -, h⟩ <;> rw [h, andThen_next] <;> exact ih _

/-- What holds before and is kept by each channel of a tick holds after all of them. -/
theorem mixChannels_induct {P : State → Prop} {cs : List Nat} {s t : State} (h : mixChannels cs s = .next t)
    (h0 : P s) (hstep : ∀ c ∈ cs, ∀ u v, P u → mixChannel c u = .next v → P v) : P t := by
  induction cs generalizing s with
  | nil => cases h; exact h0
  | cons c cs ih =>
    obtain ⟨u, hu, ht⟩ := andThen_eq_next (f := mixChannels cs) (o := mixChannel c s) h
    exact ih ht (hstep c (by simp) s u h0 hu) fun d hd => hstep d (List.mem_cons_of_mem _ hd)

/-- One channel of a tick touches the channel list, the scheduler, the calls and ACC; registers stay, and queues only
shrink at the front. -/
theorem mixChannel_eq_next {c : Nat} {s t : State} (h : mixChannel c s = .next t) :
    t = { s with chs := t.chs, sched := t.sched, calls := t.calls, acc := t.acc }
    ∧ t.chs.length = s.chs.length
    ∧ (∀ d, d ≠ c → getCh t d = getCh s d)
    ∧ SameRegisters (getCh s c) (getCh t c)
    ∧ (t.acc = s.acc ∨ ∃ vs, t.acc = s.acc.map (addInto vs)) := by
  rcases mixChannel_cases c s with ⟨-, e⟩ | ⟨-, -, e⟩ | ⟨-, vs, q, -, e⟩ <;> rw [e] at h <;> cases h
  · exact ⟨rfl, rfl, fun _ _ => rfl, rfl, .inl rfl⟩
  · refine ⟨rfl, by simp, fun d hd => ?_, ?_, .inl rfl⟩
    · rw [getCh_wakeThreads, if_neg (fun h => hd h.1.symm)]
    · rw [getCh_wakeThreads]; split <;> rfl
  · refine ⟨rfl, by simp, fun d hd => ?_, ?_, .inr ⟨vs, rfl⟩⟩
    · rw [getCh_addToAcc, getCh_setCh_ne _ _ (fun h => hd h.symm), getCh_wakeThreads, if_neg (fun h => hd h.1.symm)]
    · rw [getCh_addToAcc, getCh_setCh, getCh_wakeThreads]
      split <;> split <;> rfl

theorem mixBlock_length {s : State} {a : List S32} (h : s.acc = some a) : (mixBlock s).length = a.length := by
  simp [mixBlock, h]

/-- The end of a tick: the block is pushed whole or dropped whole (R186); with ACC of `2 * HBS` slots it cannot
fail. -/
theorem pushBlock_cases {s : State} {a : List S32} (ha : s.acc = some a) (hl : a.length = 2 * s.ctl.hbs) :
    (2 * s.ctl.hbs ≤ s.par.oqCap - s.outq.count ∧ ∃ q, pushN s.par.oqCap s.outq (a.map clampSlot) = .ok q
      ∧ pushBlock s = .next (answer .ok false 0#32 { s with outq := q }))
    ∨ (s.par.oqCap - s.outq.count < 2 * s.ctl.hbs
      ∧ pushBlock s = .next (answer .ok false 0#32 (setOutOvf s))) := by
  have hb : mixBlock s = a.map clampSlot := by simp [mixBlock, ha]
  unfold pushBlock ringFree
  by_cases hr : 2 * s.ctl.hbs ≤ s.par.oqCap - s.outq.count
  · left
    obtain ⟨q, hq⟩ := (pushN_ok_iff s.par.oqCap s.outq (a.map clampSlot)).mpr
      (by rw [List.length_map, hl]; exact hr)
    refine ⟨hr, q, hq, ?_⟩
    rw [if_pos hr, hb, hq]; rfl
  · right
    exact ⟨by omega, by rw [if_neg hr]; rfl⟩

/-- ACC keeps its slots through the channels of a tick, and everything but the channels, the scheduler, the calls
and ACC is as it was. -/
theorem mixChannels_eq_next {cs : List Nat} {s t : State} (h : mixChannels cs s = .next t) :
    t = { s with chs := t.chs, sched := t.sched, calls := t.calls, acc := t.acc }
    ∧ t.chs.length = s.chs.length ∧ (∀ c, SameRegisters (getCh s c) (getCh t c))
    ∧ (∀ a, s.acc = some a → ∃ b, t.acc = some b ∧ b.length = a.length) := by
  refine mixChannels_induct h (P := fun t =>
    t = { s with chs := t.chs, sched := t.sched, calls := t.calls, acc := t.acc }
    ∧ t.chs.length = s.chs.length ∧ (∀ c, SameRegisters (getCh s c) (getCh t c))
    ∧ (∀ a, s.acc = some a → ∃ b, t.acc = some b ∧ b.length = a.length))
    ⟨rfl, rfl, fun _ => rfl, fun a ha => ⟨a, ha, rfl⟩⟩ ?_
  intro c _ u v ⟨hu1, hu2, hu3, hu4⟩ huv
  obtain ⟨h1, h2, h3, h4, h5⟩ := mixChannel_eq_next huv
  refine ⟨by rw [h1, hu1], h2.trans hu2, fun d => ?_, fun a ha => ?_⟩
  · by_cases hd : d = c
    · subst hd
      have e1 := hu3 d
      unfold SameRegisters at e1 h4 ⊢
      rw [h4, e1]
    · rw [h3 d hd]; exact hu3 d
  · obtain ⟨b, hb, hl⟩ := hu4 a ha
    rcases h5 with h5 | ⟨vs, h5⟩
    · exact ⟨b, by rw [h5, hb], hl⟩
    · exact ⟨addInto vs b, by rw [h5, hb]; rfl, by rw [addInto_length, hl]⟩

/-- The wake of one channel of a tick (R184): none where the channel is not reserved. -/
theorem mixChannel_wakes {c : Nat} {s t : State} (hc : c < s.chs.length) (h : mixChannel c s = .next t) :
    ((getCh s c).reserved = false ∧ t = s)
    ∨ ((getCh s c).reserved = true
      ∧ t.sched = (wakeList s.par c 0#32 (.frames s.ctl.hbs) (getCh s c).waiting s.sched).2.1
      ∧ t.calls = s.calls ++ wakeCalls (wakeList s.par c 0#32 (.frames s.ctl.hbs) (getCh s c).waiting s.sched).2.2
      ∧ (getCh t c).waiting = (wakeList s.par c 0#32 (.frames s.ctl.hbs) (getCh s c).waiting s.sched).1) := by
  have hw : getCh (wakeThreads c 0#32 (.frames s.ctl.hbs) s) c = { getCh s c with
      waiting := (wakeList s.par c 0#32 (.frames s.ctl.hbs) (getCh s c).waiting s.sched).1 } := by
    rw [getCh_wakeThreads, if_pos ⟨rfl, hc⟩]
  rcases mixChannel_cases c s with ⟨hr, e⟩ | ⟨hr, -, e⟩ | ⟨hr, vs, q, -, e⟩ <;> rw [e] at h <;> cases h
  · exact .inl ⟨hr, rfl⟩
  · exact .inr ⟨hr, by simp, by simp, by rw [hw]⟩
  · refine .inr ⟨hr, by simp, by simp, ?_⟩
    rw [getCh_addToAcc, getCh_setCh_self _ (by simp [hc]), hw]

/-- What holds before channel `k` and is kept by each channel holds after the last. -/
theorem mixChannels_range_induct {P : Nat → State → Prop} {n : Nat} {s t : State} (h0 : P 0 s)
    (hstep : ∀ c u v, c < n → P c u → mixChannel c u = .next v → P (c + 1) v)
    (h : mixChannels (List.range n) s = .next t) : P n t := by
  have main : ∀ m k, k + m = n → ∀ u, P k u → mixChannels (List.range' k m) u = .next t → P n t := by
    intro m
    induction m with
    | zero =>
      intro k hk u hu h; cases h
      obtain rfl : k = n := by omega
      exact hu
    | succ m ih =>
      intro k hk u hu h
      rw [List.range'_succ] at h
      obtain ⟨v, hv, ht⟩ := andThen_eq_next (f := mixChannels (List.range' (k+1) m)) (o := mixChannel k u) h
      exact ih (k+1) (by omega) v (hstep k u v (by omega) hu hv) ht
  rw [List.range_eq_range'] at h
  exact main n 0 (by omega) s h0 h

theorem dueOn_iff (s : State) (c u : Nat) : DueOn s c u ↔
    (getCh s c).reserved = true ∧ Due s.par c (.frames s.ctl.hbs) (getCh s c).waiting s.sched u := by
  simp [DueOn, Due, ParkedHere, WakeStep.reached]

/-- Where a tick from `s` stands after its first `n` channels (R181, R184, R185). -/
structure TickUpTo (s : State) (n : Nat) (t : State) : Prop where
  par     : t.par = s.par
  ctl     : t.ctl = s.ctl
  ev      : t.ev = s.ev
  len     : t.chs.length = s.chs.length
  rest    : ∀ c, n ≤ c → getCh t c = getCh s c
  sorted  : cellsSorted t.sched.waits ∧ cellsSorted t.sched.delivered
  waiting : ∀ c, c < n → (getCh s c).reserved = true →
    (getCh t c).waiting = (wakeList s.par c 0#32 (.frames s.ctl.hbs) (getCh s c).waiting s.sched).1
  calls   : t.calls = s.calls ++ (List.range n).flatMap (tickWakeCalls s)
  due     : ∀ c u, c < n → DueOn s c u →
    cellsGet t.sched.waits u = none ∧ cellsGet t.sched.delivered u = some (waitValue s.sched u)
  other   : ∀ u, (∀ c, c < n → ¬ DueOn s c u) →
    cellsGet t.sched.waits u = cellsGet s.sched.waits u ∧ cellsGet t.sched.delivered u = cellsGet s.sched.delivered u

/-- A thread parked on the wait of a later channel was not touched by the earlier ones. -/
theorem TickUpTo.parked_later {s t : State} {n c u : Nat} (h : TickUpTo s n t) (hn : n ≤ c) :
    (waitId t.sched u s.par.waitAudio = c + 1 ↔ waitId s.sched u s.par.waitAudio = c + 1)
    ∧ (waitId t.sched u s.par.waitAudio = c + 1 → waitValue t.sched u = waitValue s.sched u) := by
  by_cases hd : ∃ d, d < n ∧ DueOn s d u
  · obtain ⟨d, hd, hu⟩ := hd
    have h1 := (h.due d u hd hu).1
    have h2 : waitId s.sched u s.par.waitAudio = d + 1 := hu.2.1
    have h0 : waitId t.sched u s.par.waitAudio = 0 := by simp [waitId, h1]
    exact ⟨⟨fun h => by omega, fun h => by omega⟩, fun h => by omega⟩
  · have h1 := (h.other u (fun c hc hu => hd ⟨c, hc, hu⟩)).1
    unfold waitId waitValue; rw [h1]
    exact ⟨Iff.rfl, fun _ => rfl⟩

/-- One more channel. -/
theorem TickUpTo.step {s u v : State} {c : Nat} (hc : c < s.chs.length) (hs : cellsSorted s.sched.waits)
    (h : TickUpTo s c u) (hm : mixChannel c u = .next v) : TickUpTo s (c + 1) v := by
  obtain ⟨g1, g2, g3, -, -⟩ := mixChannel_eq_next hm
  have hk := h.rest c (Nat.le_refl _)
  have hcong := wakeList_congr s.par c 0#32 (.frames s.ctl.hbs) (getCh s c).waiting h.sorted.1 hs
    (fun x => (h.parked_later (Nat.le_refl c)).1) (fun x hx => (h.parked_later (Nat.le_refl c)).2 hx)
  have hdue : ∀ x, Due s.par c (.frames s.ctl.hbs) (getCh s c).waiting u.sched x
      ↔ Due s.par c (.frames s.ctl.hbs) (getCh s c).waiting s.sched x := fun x => by
    unfold Due; rw [(h.parked_later (Nat.le_refl c)).1]
  have hw := mixChannel_wakes (by rw [h.len]; exact hc) hm
  rw [h.par, h.ctl, hk] at hw
  rcases hw with ⟨hr, rfl⟩ | ⟨hr, e1, e2, e3⟩
  · refine { h with rest := fun d hd => h.rest d (by omega), waiting := fun d hd hr' => ?_, calls := ?_, due := ?_, other := ?_ }
    · by_cases hdc : d = c
      · subst hdc; rw [hr] at hr'; cases hr'
      · exact h.waiting d (by omega) hr'
    · rw [h.calls, List.range_succ, List.flatMap_append]; simp [tickWakeCalls, hr]
    · intro d x hd hx
      by_cases hdc : d = c
      · subst hdc; have := hx.1; rw [hr] at this; cases this
      · exact h.due d x (by omega) hx
    · exact fun x hx => h.other x fun d hd => hx d (by omega)
  · have spec := wakeList_spec s.par c 0#32 (.frames s.ctl.hbs) (getCh s c).waiting u.sched h.sorted.1
    constructor
    · rw [g1]; exact h.par
    · rw [g1]; exact h.ctl
    · rw [g1]; exact h.ev
    · exact g2.trans h.len
    · intro d hd; rw [g3 d (by omega)]; exact h.rest d (by omega)
    · rw [e1]; exact wakeList_sorted _ _ _ _ _ _ h.sorted.1 h.sorted.2
    · intro d hd hr'
      by_cases hdc : d = c
      · subst hdc; rw [e3, hcong.1]
      · rw [g3 d hdc]; exact h.waiting d (by omega) hr'
    · rw [e2, h.calls, List.range_succ, List.flatMap_append, hcong.2]; simp [tickWakeCalls, hr]
    · intro d x hd hx
      rw [e1]
      by_cases hdc : d = c
      · subst hdc
        obtain ⟨a, b, -⟩ := (spec x).1 ((hdue x).mpr ((dueOn_iff s d x).mp hx).2)
        have hx2 := (h.parked_later (Nat.le_refl d)).1.mpr (show waitId s.sched x s.par.waitAudio = d + 1 from hx.2.1)
        exact ⟨a, by rw [b]; simp [resumeValue, (h.parked_later (Nat.le_refl d)).2 hx2]⟩
      · obtain ⟨a, b, -⟩ := (spec x).2 (fun hx' => by
          have h1 := ((hdue x).mp hx').1
          have h2 : waitId s.sched x s.par.waitAudio = d + 1 := hx.2.1
          omega)
        rw [a, b]; exact h.due d x (by omega) hx
    · intro x hx
      rw [e1]
      obtain ⟨a, b, -⟩ := (spec x).2 (fun hx' => hx c (by omega) ((dueOn_iff s c x).mpr ⟨hr, (hdue x).mp hx'⟩))
      rw [a, b]; exact h.other x fun d hd => hx d (by omega)

/-- After all channels of a tick. -/
theorem tickUpTo_all {s u : State} (hl : s.par.nch ≤ s.chs.length) (hs : cellsSorted s.sched.waits)
    (hd : cellsSorted s.sched.delivered)
    (h : mixChannels (List.range s.par.nch) s = .next u) : TickUpTo s s.par.nch u :=
  mixChannels_range_induct (P := TickUpTo s)
    ⟨rfl, rfl, rfl, rfl, fun _ _ => rfl, ⟨hs, hd⟩, fun _ h => by omega, by simp, fun _ _ h => by omega,
      fun _ _ => ⟨rfl, rfl⟩⟩
    (fun _ _ _ hc hP hm => hP.step (Nat.lt_of_lt_of_le hc hl) hs hm) h
/-- A tick that goes through: the event rescheduled and ACC zeroed, then the channels, then the block. -/
theorem tickBody_eq_next {s t : State} (h : tickBody s = .next t) :
    s.held = true ∧ ∃ u,
      mixChannels (List.range s.par.nch)
        (zeroAcc (evSchedule ((s.ctl.audioInterval : Int) - s.sig.lateIn) s.ctl.evAudio s)) = .next u
      ∧ pushBlock u = .next t := by
  obtain ⟨hh, h⟩ := needHeld_eq_next h
  obtain ⟨u, hu, ht⟩ := andThen_eq_next h
  exact ⟨hh, u, hu, ht⟩

/-- The end of a tick touches OUTQ, OUT_OVF and the response, and OUTQ only at its tail. -/
theorem pushBlock_eq_next {s t : State} (h : pushBlock s = .next t) :
    t = { s with outq := t.outq, outOvf := t.outOvf, resp := t.resp } ∧ t.outq.head = s.outq.head
      ∧ (s.outOvf = true → t.outOvf = true) ∧ t.resp = some { status := .ok, parked := false, value := 0#32 } := by
  unfold pushBlock at h
  split at h
  · split at h
    · cases h
    · next q hq => rw [respond_eq_next h]; exact ⟨rfl, (pushN_cursors hq).2.1, fun h => h, rfl⟩
  · rw [respond_eq_next h]; exact ⟨rfl, rfl, fun h => rfl, rfl⟩

/-- A tick touches the channels, OUTQ at its tail, ACC, OUT_OVF upward, the schedulers, the calls, the response. -/
theorem tickBody_frame {s t : State} (h : tickBody s = .next t) :
    t = { s with chs := t.chs, outq := t.outq, acc := t.acc, outOvf := t.outOvf, sched := t.sched, ev := t.ev,
                 calls := t.calls, resp := t.resp }
    ∧ t.outq.head = s.outq.head ∧ (s.outOvf = true → t.outOvf = true)
    ∧ t.resp = some { status := .ok, parked := false, value := 0#32 } := by
  obtain ⟨hh, u, hu, hp⟩ := tickBody_eq_next h
  obtain ⟨h1, -, -, -⟩ := mixChannels_eq_next hu
  obtain ⟨f1, f2, f3, f4⟩ := pushBlock_eq_next hp
  refine ⟨by rw [f1, h1]; rfl, by rw [f2, h1]; rfl, fun h => f3 (by rw [h1]; exact h), f4⟩

/-! ## PULL -/

/-- PULL's rule always answers (R201). -/
theorem pullBody_eq (n : U32) (s : State) : ∃ vs q,
    popN s.par.oqCap s.outq (min s.outq.count (2 * n.toNat)) = .ok (vs, q)
    ∧ pullBody n s = .next (answer .ok false (BitVec.ofNat 32 (min s.outq.count (2 * n.toNat) / 2))
        (hostWrites vs { s with outq := q })) := by
  obtain ⟨⟨vs, q⟩, hp⟩ := (popN_ok_iff s.par.oqCap s.outq (min s.outq.count (2 * n.toNat))).mpr
    (Nat.min_le_left _ _)
  exact ⟨vs, q, hp, by simp [pullBody, hp, respond]⟩

/-! ## Lifecycle -/

theorem profileOf_isSome {p : BitVec 2} (h : (Instr.init p).wellFormed = true) : ∃ v, profileOf p = some v := by
  have key : ∀ p : BitVec 2, (Instr.init p).wellFormed = true → (profileOf p).isSome = true := by decide
  exact Option.isSome_iff_exists.mp (key p h)

/-- INIT's rule answers, or faults where it would read wait lists that hold no value (R210, R219). -/
theorem initBody_cases (p : Profile) (s : State) :
    (s.up = false ∧ initBody p s = initFinish (forChannels channelReset (initEvents p s)))
    ∨ (s.up = true ∧ s.held = true ∧ initBody p s = initFinish (forChannels channelClear (initEvents p s)))
    ∨ (s.up = true ∧ s.held = false ∧ initBody p s = .fault (.stateUnspec (initEvents p s).calls)) := by
  have h1 : (initEvents p s).up = s.up := by simp [initEvents]
  unfold initBody
  cases hu : s.up <;> simp only [h1, hu]
  · exact .inl ⟨trivial, rfl⟩
  · right
    cases hh : s.held
    · exact .inr ⟨trivial, rfl, by simp [needHeld, hh]⟩
    · exact .inl ⟨trivial, rfl, by simp [needHeld, hh]⟩

/-- INIT's rule leaves guest memory, the parameters and the ports alone (R210). -/
theorem initBody_frame {p : Profile} {s t : State} (h : initBody p s = .next t) :
    t = { s with
      up := true, chs := t.chs, outq := t.outq, acc := t.acc, ctl := t.ctl, outOvf := false, held := true,
      freeCtr := t.freeCtr, sched := t.sched, ev := t.ev, calls := t.calls,
      resp := some { status := .ok, parked := false, value := 0#32 } } := by
  have fin : ∀ v : State,
      v = { s with chs := v.chs, acc := v.acc, ctl := v.ctl, sched := v.sched, ev := v.ev, calls := v.calls } →
      initFinish v = .next t →
      t = { s with
        up := true, chs := t.chs, outq := t.outq, acc := t.acc, ctl := t.ctl, outOvf := false, held := true,
        freeCtr := t.freeCtr, sched := t.sched, ev := t.ev, calls := t.calls,
        resp := some { status := .ok, parked := false, value := 0#32 } } := by
    intro v hv h
    cases h
    rw [hv]; rfl
  have e0 : initEvents p s =
      { s with ctl := (initEvents p s).ctl, ev := (initEvents p s).ev, calls := (initEvents p s).calls } := by
    apply State.eq_of_fields <;> simp
  rcases initBody_cases p s with ⟨hu, e⟩ | ⟨hu, hh, e⟩ | ⟨-, -, e⟩ <;> rw [e] at h
  · refine fin _ ?_ h
    refine forChannels_induct (P := fun t => t =
      { s with chs := t.chs, acc := t.acc, ctl := t.ctl, sched := t.sched, ev := t.ev, calls := t.calls }) ?_ ?_
    · rw [e0]
    · intro c t _ ht; rw [ht]; rfl
  · refine fin _ ?_ h
    rw [channelClear_all_frame]
    generalize (forChannels channelClear (initEvents p s)).chs = k
    generalize (forChannels channelClear (initEvents p s)).sched = w
    generalize (forChannels channelClear (initEvents p s)).calls = x
    rw [e0]
  · cases h

/-- PULL's rule, when it answers. -/
theorem pullBody_eq_next {n : U32} {s t : State} (h : pullBody n s = .next t) : ∃ vs q v,
    popN s.par.oqCap s.outq (min s.outq.count (2 * n.toNat)) = .ok (vs, q)
    ∧ t = answer .ok false v (hostWrites vs { s with outq := q }) := by
  obtain ⟨vs, q, h1, h2⟩ := pullBody_eq n s
  rw [h2] at h
  exact ⟨vs, q, _, h1, by cases h; rfl⟩

/-- LOAD's three outcomes (R218, R219). -/
theorem loadBody_cases (s : State) :
    (s.sig.snapIn.compatible s.par = false
      ∧ loadBody s = .next (answer .incompat false 0#32 (forgetPersisted s)))
    ∨ (s.sig.snapIn.compatible s.par = true ∧ s.sig.snapIn.wf s.par = false
      ∧ loadBody s = .fault (.badSnapshot s.calls))
    ∨ (s.sig.snapIn.compatible s.par = true ∧ s.sig.snapIn.wf s.par = true
      ∧ loadBody s = .next (answer .ok false 0#32 (registerEvents
          { s with chs := s.sig.snapIn.channels, outq := s.sig.snapIn.outq, held := true }))) := by
  cases hc : s.sig.snapIn.compatible s.par
  · exact .inl ⟨rfl, by simp only [loadBody, hc, if_true, respond]⟩
  right
  cases hw : s.sig.snapIn.wf s.par
  · exact .inl ⟨rfl, rfl, by simp only [loadBody, hc, hw, if_true, Bool.true_eq_false, if_false]⟩
  · exact .inr ⟨rfl, rfl, by simp only [loadBody, hc, hw, Bool.true_eq_false, if_false, respond]⟩

end Sys2Proof.Machine
end

