-- ==== Sys2Proof/Laws/Invariant.lean ====
section
/-! SUPPORT. The invariant of Safety.lean under each operation and each rule that is more than an assignment. -/

namespace Sys2Proof.Machine

open Sys2Proof

/-- What R6 says of the capacities, the event names and the block sizes. -/
theorem Params.wf_facts {P : Params} (h : P.wf = true) : 2 ≤ P.cqCap ∧ P.cqCap % 2 = 0 ∧ P.oqCap % 2 = 0 ∧
    2 ≤ P.oqCap ∧ P.evnameAudio ≠ P.evnameHost ∧ ∀ p, 1 ≤ (P.profile p).hbs ∧ 2 * (P.profile p).hbs ≤ P.oqCap := by
  simp [Params.wf, ProfileValues.wf] at h
  obtain ⟨⟨⟨⟨⟨⟨⟨⟨⟨⟨⟨⟨⟨-, -⟩, -⟩, h1⟩, h2⟩, h3⟩, h4⟩, h5⟩, h6⟩, -⟩, -⟩, -⟩, -⟩, h7⟩ := h
  refine ⟨h2, h1, h3, by omega, h7, ?_⟩
  intro p; cases p <;> simp [Params.profile] <;> omega

theorem channelWf_iff {cap : Nat} {k : Channel} : channelWf cap k = true ↔ ringWf cap k.queue = true ∧
    ringEven k.queue = true ∧ k.leftVolume.toNat ≤ 65536 ∧ k.rightVolume.toNat ≤ 65536 := by
  unfold channelWf volMax
  rw [Bool.and_eq_true, Bool.and_eq_true, Bool.and_eq_true, decide_eq_true_iff, decide_eq_true_iff, and_assoc,
    and_assoc]

/-- A channel record of the right shape may be put in place. -/
theorem inv_setCh {s : State} (hI : s.Inv) {c : Nat} {k : Channel} (h1 : k.queue.storage.length = s.par.cqCap)
    (h2 : s.held = true → channelWf s.par.cqCap k = true) :
   (setCh s c k).Inv := by
  refine { hI with channels := ?_, storage := ?_, heldChannel := ?_ }
  · simp [hI.channels]
  · intro x hx; rcases mem_setCh hx with rfl | hx
    · exact h1
    · exact hI.storage x hx
  · intro hh x hx; rcases mem_setCh hx with rfl | hx
    · exact h2 hh
    · exact hI.heldChannel hh x hx

/-- The response is no part of the invariant, nor are the calls, the snapshot answered and the pending occurrences. -/
theorem inv_answer {s : State} (hI : s.Inv) (st p v) : (answer st p v s).Inv := { hI with }
theorem inv_addCall {s : State} (hI : s.Inv) (x) : (addCall x s).Inv := { hI with }
theorem inv_snapOut {s : State} (hI : s.Inv) (x) : ({s with snapOut := x} : State).Inv := { hI with }
/-- The scheduler may change to one in canonical form. -/
theorem inv_scheduler {s : State} (hI : s.Inv) {w : Scheduler} (h1 : cellsSorted w.waits) (h2 :
    cellsSorted w.delivered) : ({s with sched := w} : State).Inv := { hI with waits := h1, delivered := h2 }
theorem inv_calls {s : State} (hI : s.Inv) (x) : ({s with calls := x} : State).Inv := { hI with }
theorem inv_evSchedule {s : State} (hI : s.Inv) (d i) : (evSchedule d i s).Inv := { hI with }
/-- Presenting a command. -/
theorem inv_present {s : State} (hI : s.Inv) (p) : (present p s).Inv := { hI with }
/-- The firing of an occurrence (R259). -/
theorem inv_fireOccurrence {s : State} (hI : s.Inv) (n) : ({ s with ev := fireOccurrence n s.ev } : State).Inv :=
  { hI with
    events := by intro h; simpa using hI.events h
    registered := by simpa using hI.registered
    callbacks := by simpa using hI.callbacks }

/-- A channel record with the old queue and legal or old gains may be put in place. -/
theorem inv_setCh_registers {s : State} (hI : s.Inv) {c : Nat} {k : Channel} (h : k.queue = (getCh s c).queue)
    (hl : k.leftVolume.toNat ≤ 65536 ∨ k.leftVolume = (getCh s c).leftVolume) (hr :
    k.rightVolume.toNat ≤ 65536 ∨ k.rightVolume = (getCh s c).rightVolume) : (setCh s c k).Inv := by
  by_cases hc : c < s.chs.length
  · apply inv_setCh hI
    · rw [h]; exact hI.storage _ (getCh_mem hc)
    · intro hh
      have := hI.heldChannel hh _ (getCh_mem hc)
      rw [channelWf_iff] at this ⊢
      rw [h]
      refine ⟨this.1, this.2.1, ?_, ?_⟩
      · rcases hl with h | h; exact h; rw [h]; exact this.2.2.1
      · rcases hr with h | h; exact h; rw [h]; exact this.2.2.2
  · have : setCh s c k = s := by
      apply State.eq_of_fields <;> simp
      exact List.set_eq_of_length_le (by omega)
    rw [this]; exact hI

/-- WakeThreads (R181). -/
theorem inv_wakeThreads {s : State} (hI : s.Inv) (c r st) : (wakeThreads c r st s).Inv := by
  obtain ⟨h1, h2⟩ := wakeList_sorted s.par c r st (getCh s c).waiting s.sched hI.waits hI.delivered
  have h3 : (setCh s c { getCh s c with waiting := (wakeList s.par c r st (getCh s c).waiting s.sched).1 }).Inv :=
    inv_setCh_registers hI rfl (.inr rfl) (.inr rfl)
  exact inv_calls (inv_scheduler h3 h1 h2) _

/-- ChannelReset (R222). -/
theorem inv_channelReset {s : State} (hI : s.Inv) (c) : (channelReset c s).Inv := by
  by_cases hc : c < s.chs.length
  · have hcap := Params.wf_facts hI.params
    apply inv_setCh hI
    · exact hI.storage (getCh s c) (getCh_mem hc)
    · intro _; exact resetChannel_wf (by omega) (hI.storage _ (getCh_mem hc))
  · have : channelReset c s = s := by
      apply State.eq_of_fields <;> simp
      exact List.set_eq_of_length_le (by omega)
    rw [this]; exact hI
/-- ChannelClear (R148). -/
theorem inv_channelClear {s : State} (hI : s.Inv) (c) :
    (channelClear c s).Inv := inv_channelReset (inv_wakeThreads hI _ _ _) c
/-- ChannelClear of every channel. -/
theorem inv_channelClear_all {s : State} (hI : s.Inv) :
    (forChannels channelClear s).Inv := forChannels_induct (P := State.Inv) hI fun c _ _ h => inv_channelClear h c

/-- Registering both events by name (R221). -/
theorem inv_registerEvents {s : State} (hI : s.Inv) : (registerEvents s).Inv := by
  have hp := Params.wf_facts hI.params
  refine { hI with events := ?_, registered := ?_, callbacks := ?_, .. }
  · intro h
    refine ⟨?_, ?_, (hI.events h).2.2.1, ?_, fun hne => ?_⟩
    · simp only [registerEvents_ev, registerEvents_ctl, registerEvents_par, cellsGet_put, if_neg hp.2.2.2.2.1, if_true]
    · simp only [registerEvents_ev, registerEvents_ctl, registerEvents_par, cellsGet_put, if_true]
    · simp only [registerEvents_ev, registerEvents_ctl, cellsGet_put, if_true]
    · rw [registerEvents_ctl] at hne
      simp only [registerEvents_ev, registerEvents_ctl, cellsGet_put, if_neg hne, if_true]
  · exact cellsSorted_put (cellsSorted_put hI.registered _ _) _ _
  · exact cellsSorted_put (cellsSorted_put hI.callbacks _ _) _ _

/-- Channels and OUTQ becoming unspecified (R219). -/
theorem inv_forgetPersisted {s : State} (hI : s.Inv) : (forgetPersisted s).Inv := by
  obtain ⟨a, b, c⟩ := forgetPersisted_shape s
  exact { hI with
    channels := a, storage := b, outStorage := c,
    heldChannel := (fun h => by cases h), heldOut := (fun h => by cases h) }

/-- The end of SHUTDOWN (R212). -/
theorem inv_shutdown {s : State} (hI : s.Inv) : ({ forgetAll s with up := false } : State).Inv := by
  obtain ⟨a, b, c⟩ := forgetPersisted_shape s
  exact { hI with
    channels := a, storage := b, outStorage := c,
    heldChannel := (fun h => by cases h), heldOut := (fun h => by cases h),
    accDown := fun _ => rfl, accUp := (fun h => by cases h), profile := (fun h => by cases h),
    intervals := (fun h => by cases h), events := (fun h => by cases h) }

/-- Power-on reset of the block (R280). -/
theorem inv_blockPowerOn {s : State} (hI : s.Inv) : (blockPowerOn s).Inv :=
  { hI with
    channels := by simp, storage := by simp [Channel.powerOn, Ring.powerOn],
    outStorage := by simp [Ring.powerOn],
    heldChannel := (fun h => by cases h), heldOut := (fun h => by cases h),
    accDown := fun _ => rfl, accUp := (fun h => by cases h), profile := (fun h => by cases h),
    intervals := (fun h => by cases h), events := (fun h => by cases h) }

/-- The collaborators' side of a stimulus (R256, R259, R69, R280). -/
theorem inv_environmentMove {s : State} (hI : s.Inv) (m : Stimulus) : (environmentMove m s).Inv := by
  cases m with
  | command _       => exact hI
  | fire n _        => exact inv_fireOccurrence hI n
  | clockChange _   => exact hI
  | threadLeft t    => exact inv_scheduler hI (cellsSorted_erase hI.waits _) hI.delivered
  | threadReparked t r =>
    unfold environmentMove repark
    simp only
    split
    · exact hI
    · exact inv_scheduler hI (cellsSorted_put hI.waits _ _) hI.delivered
  | guestStore a b  => exact { hI with memory := Memory.wf_store hI.memory a b }
  | guestUnmap a    => exact { hI with memory := Memory.wf_unmap hI.memory a }
  | powerOn         => exact inv_blockPowerOn hI

/-- INIT's rule (R210). -/
theorem inv_initBody {p : Profile} {s t : State} (hI : s.Inv) (h : initBody p s = .next t) : t.Inv := by
  have hp := Params.wf_facts hI.params
  have key : ∀ v : State, v.par = s.par → v.chs.length = s.par.nch →
      (∀ k ∈ v.chs, k.queue.storage.length = s.par.cqCap) → (∀ k ∈ v.chs, channelWf s.par.cqCap k = true) →
      v.outq = s.outq → v.mem = s.mem → cellsSorted v.sched.waits → cellsSorted v.sched.delivered →
      v.ctl = (initEvents p s).ctl → v.ev = (initEvents p s).ev → initFinish v = .next t → t.Inv := by
    intro v e1 e2 e3 e4 e5 e6 e7 e8 e9 e10 h
    cases h
    have hs : ringWf s.par.oqCap (ringClear s.outq) = true := ringClear_wf (by omega) hI.outStorage
    constructor
    · simp [e1, hI.params]
    · simpa [e1] using e2
    · simpa [e1] using e3
    · simp [e1, e5, hI.outStorage]
    · intro _; simpa [e1] using e4
    · intro _; simp [e1, e5, hs, ringClear_even]
    · intro h; cases h
    · intro _; obtain ⟨a, h1, h2⟩ := allocAcc_length v; exact ⟨a, h1, by simp [h2]⟩
    · intro _; simp [e1, e9]
    · intro _; simp [e1, e9]
    · intro _; simp +contextual [e1, e9, e10, cellsGet_put, hp.2.2.2.2.1]
    · simp [e6, hI.memory]
    · exact e7
    · exact e8
    · simp [e10]; exact cellsSorted_put (cellsSorted_put hI.registered _ _) _ _
    · simp [e10]; exact cellsSorted_put (cellsSorted_put hI.callbacks _ _) _ _
  have wfr : ∀ k ∈ s.chs.map resetChannel, channelWf s.par.cqCap k = true := by
    intro k hk; obtain ⟨x, hx, rfl⟩ := List.mem_map.mp hk
    exact resetChannel_wf (by omega) (hI.storage x hx)
  have str : ∀ k ∈ s.chs.map resetChannel, k.queue.storage.length = s.par.cqCap := by
    intro k hk; obtain ⟨x, hx, rfl⟩ := List.mem_map.mp hk
    exact hI.storage x hx
  rcases initBody_cases p s with ⟨hu, e⟩ | ⟨hu, hh, e⟩ | ⟨-, hh, e⟩ <;> rw [e] at h
  · rw [channelReset_all (by simp [hI.channels])] at h
    refine key { initEvents p s with chs := (initEvents p s).chs.map resetChannel } (by simp)
      (by simp [hI.channels]) (by simpa using str) (by simpa using wfr) (by simp) (by simp) (by simp [hI.waits])
      (by simp [hI.delivered]) rfl rfl h
  · have hc := channelClear_all_chs (s := initEvents p s) (by simp [hI.channels])
    have hf := channelClear_all_frame (initEvents p s)
    have hsch : cellsSorted (forChannels channelClear (initEvents p s)).sched.waits
        ∧ cellsSorted (forChannels channelClear (initEvents p s)).sched.delivered := by
      refine forChannels_induct (P := fun t => cellsSorted t.sched.waits ∧ cellsSorted t.sched.delivered)
        (by simp [hI.waits, hI.delivered]) ?_
      intro c t _ ⟨h1, h2⟩
      rw [channelClear_sched]; exact wakeList_sorted _ _ _ _ _ _ h1 h2
    generalize forChannels channelClear (initEvents p s) = v at *
    rw [initEvents_chs] at hc
    refine key v (by rw [hf]; simp) (by simp [hc, hI.channels]) (by simpa [hc] using str)
      (by simpa [hc] using wfr) (by rw [hf]; simp) (by rw [hf]; simp) hsch.1 hsch.2 (by rw [hf]) (by rw [hf]) h
  · cases h

/-- One channel of a tick (R184). -/
theorem inv_mixChannel {c : Nat} {s t : State} (hI : s.Inv) (hh : s.held = true) (h : mixChannel c s = .next t) :
    t.Inv ∧ t.held = true := by
  have hp := Params.wf_facts hI.params
  have hw := inv_wakeThreads hI c 0#32 (.frames s.ctl.hbs)
  rcases mixChannel_cases c s with ⟨-, e⟩ | ⟨-, -, e⟩ | ⟨-, vs, q, hq, e⟩ <;> rw [e] at h <;> cases h
  · exact ⟨hI, hh⟩
  · exact ⟨hw, hh⟩
  · refine ⟨?_, hh⟩
    generalize hwd : wakeThreads c 0#32 (.frames s.ctl.hbs) s = w at *
    have hwp : w.par = s.par := by rw [← hwd]; rfl
    have hwh : w.held = true := by rw [← hwd]; exact hh
    have hwa : w.acc = s.acc := by rw [← hwd]; rfl
    have : (setCh w c { getCh w c with queue := q }).Inv := by
      by_cases hc : c < w.chs.length
      · have hk := hw.heldChannel hwh _ (getCh_mem hc)
        rw [channelWf_iff, hwp] at hk
        have hq1 := popN_wf hk.1 hq
        have hq2 := popN_even hp.2.1 hk.2.1 (by have := hk.2.1; rw [ringEven_iff] at this; omega) hq
        apply inv_setCh hw
        · rw [hwp]; exact ((ringWf_iff _ _).mp hq1).1
        · intro _; rw [channelWf_iff, hwp]; exact ⟨hq1, hq2, hk.2.2⟩
      · have : setCh w c { getCh w c with queue := q } = w := by
          apply State.eq_of_fields <;> simp
          exact List.set_eq_of_length_le (by omega)
        rw [this]; exact hw
    refine { this with accDown := ?_, accUp := ?_, .. }
    · intro h; rw [addToAcc_acc, this.accDown h]; rfl
    · intro h; obtain ⟨a, h1, h2⟩ := this.accUp h
      have h3 : s.acc = some a := by rw [← hwa]; exact h1
      rw [addToAcc_acc]
      exact ⟨addInto vs a, by rw [h1]; rfl, by rw [addInto_length]; exact h2⟩

/-- The end of a tick (R186). -/
theorem inv_pushBlock {s t : State} (hI : s.Inv) (hh : s.held = true) (hu : s.up = true) (h :
    pushBlock s = .next t) : t.Inv := by
  have hp := Params.wf_facts hI.params
  obtain ⟨a, ha, hl⟩ := hI.accUp hu
  obtain ⟨o1, o2⟩ := hI.heldOut hh
  rcases pushBlock_cases ha hl with ⟨-, q, hq, e⟩ | ⟨-, e⟩ <;> rw [e] at h <;> cases h
  · have w1 := pushN_wf o1 hq
    have w2 := pushN_even hp.2.2.1 o2 (by simp [hl]) hq
    exact { hI with outStorage := ((ringWf_iff _ _).mp w1).1, heldOut := fun _ => ⟨w1, w2⟩ }
  · exact { hI with }

/-- ENQ's rule (R161). -/
theorem inv_enqBody {c b} {s t : State} (hI : s.Inv) (hh : s.held = true) (h : enqBody c b s = .next t) : t.Inv := by
  have hp := Params.wf_facts hI.params
  obtain ⟨h1, ⟨k, h2, h3, h4⟩, h5, h6⟩ := enqBody_eq_next h
  have h5' : cellsSorted t.sched.waits ∧ cellsSorted t.sched.delivered := by
    rcases h5 with h5 | ⟨r, h5⟩ <;> rw [h5]
    · exact ⟨hI.waits, hI.delivered⟩
    · exact ⟨cellsSorted_put hI.waits _ _, hI.delivered⟩
  have hset : (setCh s c k).Inv := by
    by_cases hc : c < s.chs.length
    · have hk := hI.heldChannel hh _ (getCh_mem hc)
      rw [channelWf_iff] at hk
      have hq : ringWf s.par.cqCap k.queue = true ∧ ringEven k.queue = true := by
        rcases h4 with ⟨h4, -⟩ | h4
        · rw [h4]; exact ⟨hk.1, hk.2.1⟩
        · exact ⟨pushN_wf hk.1 h4, pushN_even hp.2.1 hk.2.1 (by rw [specSamples_length]; omega) h4⟩
      apply inv_setCh hI
      · exact ((ringWf_iff _ _).mp hq.1).1
      · intro _; rw [channelWf_iff, h3]; exact ⟨hq.1, hq.2, hk.2.2⟩
    · have : setCh s c k = s := by
        apply State.eq_of_fields <;> simp
        exact List.set_eq_of_length_le (by omega)
      rw [this]; exact hI
  have : t = { setCh s c k with sched := t.sched, calls := t.calls, resp := t.resp } := by
    rw [h1, h2]; rfl
  rw [this]
  exact { hset with waits := h5'.1, delivered := h5'.2 }

end Sys2Proof.Machine
end

