-- ==== Sys2Proof/Laws/PerInstr.lean ====
section
/-! SUPPORT. Laws stated per instruction: the shape of its word (spec/30_encoding.md R90, R91). -/

namespace Sys2Proof.Laws.WordShape

open Sys2Proof

/-- The word of an instruction carries its `OP` in bits 63:56, and its reserved bits 47:41 and 39:32 are zero. -/
def Statement (i : Instr) : Prop :=
  (encode i).extractLsb' 56 8 = opcode i ∧ (encode i).extractLsb' 41 7 = 0#7 ∧ (encode i).extractLsb' 32 8 = 0#8

theorem shape (i : Instr) : Statement i := by simp [Statement, encode, encodeFields]

theorem init (p : BitVec 2) : Statement (.init p) := shape _
theorem shutdown : Statement .shutdown := shape _
theorem clkchg : Statement .clkchg := shape _
theorem setfreq (freq : U32) : Statement (.setfreq freq) := shape _
theorem save : Statement .save := shape _
theorem load : Statement .load := shape _
theorem rdstat : Statement .rdstat := shape _
theorem setrsv (ch : BitVec 8) (v : Bool) : Statement (.setrsv ch v) := shape _
theorem setfmt (ch : BitVec 8) (fmt : Format) : Statement (.setfmt ch fmt) := shape _
theorem setaddr (ch : BitVec 8) (addr : Addr) : Statement (.setaddr ch addr) := shape _
theorem setcnt (ch : BitVec 8) (n : U32) : Statement (.setcnt ch n) := shape _
theorem setvoll (ch : BitVec 8) (gain : Gain) : Statement (.setvoll ch gain) := shape _
theorem setvolr (ch : BitVec 8) (gain : Gain) : Statement (.setvolr ch gain) := shape _
theorem enq (ch : BitVec 8) (blocking : Bool) : Statement (.enq ch blocking) := shape _
theorem chclr (ch : BitVec 8) : Statement (.chclr ch) := shape _
theorem tick : Statement .tick := shape _
theorem hostpoll : Statement .hostpoll := shape _
theorem pull (numFrames : U32) : Statement (.pull numFrames) := shape _

end Sys2Proof.Laws.WordShape
end

