-- ==== Sys2Proof/Tests/Slice0.lean ====
section
/-! SUPPORT. Tests: ill-formed commands refused, words written out from spec/30_encoding.md decoded, the vectors of
spec/95_test_vectors.md section 2 (their numbers stand in the comments), and for every statement with hypotheses a
witness that meets them all. -/

/- One theorem after the other: as tasks of their own, all waiting for the kernel, they would need a thread each. -/
set_option Elab.async false

namespace Sys2Proof.Tests

open Sys2Proof Sys2Proof.Machine

/-! ## Well-formedness refuses -/

theorem test_wf_profile_three : (Instr.init 3#2).wellFormed = false := by decide
theorem test_wf_left_gain_above_unity : (Instr.setvoll 0#8 65537#17).wellFormed = false := by decide
theorem test_wf_right_gain_above_unity : (Instr.setvolr 0#8 65537#17).wellFormed = false := by decide
theorem test_wf_gain_at_unity : (Instr.setvolr 0#8 65536#17).wellFormed = true := by decide

/-! ## Decoding: one word per command, from the encodings in 41 to 45 and 95 section 2.8, 2.9, 3 -/

theorem test_decode_init : decode 0x0100000000000001#64 = .ok (.init 1#2) := by decide +kernel
theorem test_decode_shutdown : decode 0x0200000000000000#64 = .ok .shutdown := by decide +kernel
theorem test_decode_clkchg : decode 0x0300000000000000#64 = .ok .clkchg := by decide +kernel
theorem test_decode_setfreq : decode 0x040000000000BB80#64 = .ok (.setfreq 48000#32) := by decide +kernel
theorem test_decode_save : decode 0x0500000000000000#64 = .ok .save := by decide +kernel
theorem test_decode_load : decode 0x0600000000000000#64 = .ok .load := by decide +kernel
theorem test_decode_rdstat : decode 0x0700000000000000#64 = .ok .rdstat := by decide +kernel
theorem test_decode_setrsv : decode 0x1001000000000001#64 = .ok (.setrsv 1#8 true) := by decide +kernel
theorem test_decode_setfmt : decode 0x1102000000000001#64 = .ok (.setfmt 2#8 .mono) := by decide +kernel
theorem test_decode_setaddr : decode 0x1200000008800000#64 = .ok (.setaddr 0#8 0x08800000#32) := by decide +kernel
theorem test_decode_setcnt : decode 0x1300000000000040#64 = .ok (.setcnt 0#8 64#32) := by decide +kernel
theorem test_decode_setvoll : decode 0x1400000000010000#64 = .ok (.setvoll 0#8 65536#17) := by decide +kernel
theorem test_decode_setvolr : decode 0x1501000000010000#64 = .ok (.setvolr 1#8 65536#17) := by decide +kernel
theorem test_decode_enq : decode 0x1803010000000000#64 = .ok (.enq 3#8 true) := by decide +kernel
theorem test_decode_chclr : decode 0x1900000000000000#64 = .ok (.chclr 0#8) := by decide +kernel
theorem test_decode_tick : decode 0x2000000000000000#64 = .ok .tick := by decide +kernel
theorem test_decode_hostpoll : decode 0x2100000000000000#64 = .ok .hostpoll := by decide +kernel
theorem test_decode_pull : decode 0x3000000000000064#64 = .ok (.pull 100#32) := by decide +kernel

/-- The undecodable words of 95 section 2.9. -/
theorem test_decode_refuses :
    [0x0000000000000000#64, 0xFFFFFFFFFFFFFFFF#64, 0x1800020000000000#64, 0x1800000100000000#64,
     0x1800000000000001#64, 0x2000000000000001#64, 0x3001000000000040#64, 0x0200010000000000#64].all
      (fun w => (decode w).toOption.isNone) = true := by decide +kernel

theorem test_decode_table_word : decodeTableWord 64 0x1803010000000000 = some (.enq 3#8 true) := by decide +kernel

/-! ## The operations -/

/-- 2.2, steps 0 to 4 and 5 to 7: what is read, and head, tail, count. -/
theorem test_ring_steps :
    (match runRing 8 [.push [1#16, 2#16, 3#16, 4#16, 5#16, 6#16], .pop 4, .push [7#16, 8#16, 9#16, 10#16], .pop 6]
        (Ring.powerOn 8) with
     | some (q, _, popped) => (popped, q.head, q.tail, q.count)
     | none => ([], 0, 0, 0))
    = ([1#16, 2#16, 3#16, 4#16, 5#16, 6#16, 7#16, 8#16, 9#16, 10#16], 2, 2, 0) := by decide +kernel

/-- 2.2, steps 6 and 6'. -/
theorem test_ring_contract :
    (push 2 { storage := [1#16, 2#16], head := 1, tail := 1, count := 2 } 3#16,
     popN 2 { storage := [1#16, 2#16], head := 1, tail := 1, count := 2 } 3)
    = (.error .overflow, .error .underflow) := by decide +kernel

/-- 2.3, the rows where the floor or the clamp decides. -/
theorem test_adjust_volume :
    [(1000, 65536, 1000), (-32768, 65536, -32768), (1, 32768, 0), (-1, 32768, -1), (-1, 1, -1), (-1, 0, 0),
     (32767, 65535, 32766), (-32768, 65535, -32768), (-32768, 1, -1), (32767, 32768, 16383), (-32767, 32768, -16384),
     (-12345, 40000, -7535), (-10001, 32768, -5001), (32767, 131072, 32767), (-32768, 131072, -32768)].all
      (fun r : Int × Int × Int => (adjustVolume (BitVec.ofInt 16 r.1) r.2.1).toInt == r.2.2) = true := by decide +kernel

/-! ## States to run on: the configuration TC of 95 section 2.1 -/

/-- A ring that holds `vs` from index 0. -/
def ringOf (cap : Nat) (vs : List S16) : Ring where
  storage := vs ++ List.replicate (cap - vs.length) 0#16
  head := 0
  tail := vs.length % cap
  count := vs.length

/-- Bytes of guest memory from an address upward. -/
def bytesFrom : Nat → List Byte → Memory
  | _, []      => []
  | a, b :: bs => (a, b) :: bytesFrom (a + 1) bs

/-- A channel as INIT leaves it. -/
def plainChannel : Channel := resetChannel (Channel.powerOn 512)

/-- A reserved channel at unity gain whose queue holds `vs`. -/
def channelWith (vs : List S16) : Channel :=
  { plainChannel with reserved := true, leftVolume := 65536#17, rightVolume := 65536#17, queue := ringOf 512 vs }

/-- Up under TC and MEDIUM, with channel 0, OUTQ, the thread waits, guest memory and the port as given; thread 1
issues the command. -/
def st (k : Channel) (out : Ring) (W : List (Nat × WaitRecord)) (m : Memory) (p : Port) : State :=
  { State.reset with
    up := true
    held := true
    chs := [k, plainChannel, plainChannel, plainChannel]
    outq := out
    acc := some (List.replicate 128 0#32)
    ctl := { profileSel := .medium, hbs := 64, habs := 512, qmaxf := 2, qminf := 1, cps := 222000000,
             audioInterval := 322176, hostInterval := 2577414, outfreq := 0#32, evAudio := 1, evHost := 2 }
    ev := { registered := [(1, 1), (2, 2)], callbacks := [(1, .tick), (2, .hostpoll)], clockCallback := true,
            pending := [] }
    sched := { waits := W, delivered := [] }
    mem := m
    sig := { Signals.idle with port := p, currentThread := 1 } }

/-- An empty output ring. -/
def noOut : Ring := ringOf 8192 []

/-- Such a state, nothing enqueued and nobody waiting. -/
def idle (p : Port) : State := st plainChannel noOut [] [] p

/-- The outcome is a next state with the property. -/
def next (o : Out) (f : State → Bool) : Bool :=
  match o with
  | .next t    => f t
  | .fault _   => false
  | .refused _ => false

/-- The fault of an outcome. -/
def faultOf (o : Out) : Option Fault :=
  match o with
  | .next _    => none
  | .fault r   => some r
  | .refused _ => none

/-- A thread parked on channel 0 with a payload. -/
def parked0 (payload : U32) : WaitRecord := { category := 1, key := 1, payload := payload }

/-! ## The commands, one step each -/

/-- L1. -/
theorem test_init : next (exec (.init 1#2) { State.reset with up := false }) (fun t =>
    t.up && t.ctl.hbs == 64 && t.ctl.audioInterval == 322176 && t.ctl.hostInterval == 2577414 && !t.outOvf
      && t.calls == [.registerEvent 1 .tick 1, .registerEvent 2 .hostpoll 2, .registerClockChange,
                     .schedule 322176 1 0, .schedule 2577414 2 0]) = true := by decide +kernel

/-- 2.9: profile 3 is ST_ILLEGAL on a block that is down. -/
theorem test_init_profile_three : next (exec (.init 3#2) State.reset) (fun t =>
    t.resp == some { status := .illegal, parked := false, value := 0#32 } && !t.up) = true := by decide +kernel

/-- L6, with the threads on channel 0. -/
theorem test_shutdown : next (exec .shutdown
      (st { plainChannel with waiting := [{ thread := 5, remaining := 3 }, { thread := 6, remaining := 4 }] } noOut
        [(5, parked0 7#32), (6, parked0 8#32)] [] .g)) (fun t =>
    !t.up && t.calls == [.resume 5 0x80260008#32, .resume 6 0x80260008#32, .reschedule]) = true := by decide +kernel

/-- L2. -/
theorem test_clkchg : next (exec .clkchg { idle .t with sig := { (idle .t).sig with cpsIn := 333000000 } }) (fun t =>
    t.ctl.audioInterval == 483265 && t.ctl.hostInterval == 3866122 && t.ev.pending == []) = true := by decide +kernel

/-- L3. -/
theorem test_setfreq : next (exec (.setfreq 48000#32) (idle .g)) (fun t => t.ctl.outfreq == 48000#32) = true := by
  decide +kernel

/-- R216: the snapshot holds the ring. -/
theorem test_save : next (exec .save (st (channelWith [3#16, 4#16]) noOut [] [] .g)) (fun t =>
    match t.snapOut with
    | some x => x.cqCap == 512 && x.channels.length == 4
    | none   => false) = true := by decide +kernel

/-- L5: another queue capacity. -/
theorem test_load_incompatible : next (exec .load { idle .g with sig := { (idle .g).sig with
      snapIn := { snapshotOf (idle .g) with cqCap := 1024 } } }) (fun t =>
    t.resp == some { status := .incompat, parked := false, value := 0#32 } && !t.held) = true := by decide +kernel

/-- L5, the TICK that follows: STATE_UNSPEC. -/
theorem test_tick_unspecified : (faultOf (exec .tick { idle .t with held := false })).isSome = true := by decide +kernel

/-- R224: STATUS bit 0 is OUT_OVF. -/
theorem test_rdstat : next (exec .rdstat { idle .g with outOvf := true }) (fun t =>
    t.resp == some { status := .ok, parked := false, value := 1#32 } && t.outOvf) = true := by decide +kernel

/-- G1. -/
theorem test_setrsv : next (exec (.setrsv 0#8 true) (idle .g)) (fun t => (getCh t 0).reserved && !(getCh t 1).reserved)
    = true := by decide +kernel

/-- G2. -/
theorem test_setfmt : next (exec (.setfmt 2#8 .mono) (idle .g)) (fun t =>
    (getCh t 2).format == .mono && (getCh t 0).format == .stereo) = true := by decide +kernel

/-- G3. -/
theorem test_setaddr : next (exec (.setaddr 0#8 0x08800000#32) (idle .g)) (fun t =>
    (getCh t 0).sampleAddress == 0x08800000#32) = true := by decide +kernel

/-- G4. -/
theorem test_setcnt : next (exec (.setcnt 0#8 64#32) (idle .g)) (fun t => (getCh t 0).sampleCount == 64#32) = true := by
  decide +kernel

/-- G7: above 65536 the command is illegal and changes nothing. -/
theorem test_setvoll : next (exec (.setvoll 0#8 65537#17) (idle .g)) (fun t =>
    t.resp == some { status := .illegal, parked := false, value := 0#32 } && (getCh t 0).leftVolume == 0#17) = true := by decide +kernel

/-- G6. -/
theorem test_setvolr : next (exec (.setvolr 0#8 32768#17) (idle .g)) (fun t =>
    (getCh t 0).rightVolume == 32768#17 && (getCh t 0).leftVolume == 0#17) = true := by decide +kernel

/-- E4, on channel 0: 1000 and -1000, mono, gains 65536 and 32768. -/
theorem test_enq_mono : next (exec (.enq 0#8 false)
      (st { channelWith [] with format := .mono, rightVolume := 32768#17, sampleCount := 2#32,
                                sampleAddress := 0x100#32 } noOut []
        (bytesFrom 0x100 [0xE8#8, 0x03#8, 0x18#8, 0xFC#8]) .g)) (fun t =>
    t.resp == some { status := .ok, parked := false, value := 2#32 }
      && (ringContents 512 (getCh t 0).queue).map BitVec.toInt == [1000, 500, -1000, -500]) = true := by decide +kernel

/-- E16, on a queue of 508: the room is tested after the park. -/
theorem test_enq_overflow : faultOf (exec (.enq 0#8 true)
      (st { channelWith (List.replicate 508 9#16) with sampleCount := 3#32, sampleAddress := 0x100#32 } noOut [] [] .g))
    = some (.cqOverflow [.park 1 1 1 3#32 false]) := by decide +kernel

/-- G8. -/
theorem test_chclr : next (exec (.chclr 0#8)
      (st { channelWith [1#16, 2#16] with
              waiting := [{ thread := 2, remaining := 96 }, { thread := 3, remaining := 128 }] } noOut
        [(2, parked0 32#32), (3, parked0 32#32)] [] .g)) (fun t =>
    t.calls == [.resume 2 0x80260008#32, .resume 3 0x80260008#32, .reschedule] && t.sched.waits == []
      && (getCh t 0).queue.count == 0 && !(getCh t 0).reserved && (getCh t 0).leftVolume == 0#17) = true := by
  decide +kernel

/-- T2, channel 1 being reserved with the second queue, and T8's lateness. -/
theorem test_tick_mixes :
    (let s := st (channelWith [30000#16, 30000#16]) noOut [] [] .t
     next (exec .tick { s with
        chs := s.chs.set 1 (channelWith [10000#16, BitVec.ofInt 16 (-10000), 5#16, 6#16]),
        sig := { s.sig with lateIn := 176 } })
      (fun t => ((ringContents 8192 t.outq).map BitVec.toInt).take 5 == [32767, 20000, 5, 6, 0] && t.outq.count == 128
        && t.calls == [.schedule 322000 1 0] && (getCh t 0).queue.count == 0 && (getCh t 1).queue.count == 0))
    = true := by decide +kernel

/-- T7: no room: the wake and the pop happen, the block is lost. -/
theorem test_tick_overflow :
    next (exec .tick (st { channelWith (List.replicate 128 1#16) with waiting := [{ thread := 1, remaining := 64 }] }
        { noOut with tail := 8066, count := 8066 } [(1, parked0 64#32)] [] .t))
      (fun t => t.outOvf && t.outq.count == 8066 && (getCh t 0).queue.count == 0 && (getCh t 0).waiting == []
        && t.calls == [.schedule 322176 1 0, .resume 1 64#32, .reschedule]) = true := by decide +kernel

/-- R189. -/
theorem test_hostpoll : next (exec .hostpoll (idle .t)) (fun t => t.calls == [.schedule 2577414 2 0, .pollDevice])
    = true := by decide +kernel

/-- H3: more frames asked than held; the host's further elements stay. -/
theorem test_pull : next (exec (.pull 100#32)
      (let s := st plainChannel (ringOf 8192 [1#16, 2#16, 3#16, 4#16]) [] [] .h
       { s with sig := { s.sig with hostBuf := List.replicate 6 9#16 } })) (fun t =>
    t.resp == some { status := .ok, parked := false, value := 2#32 } && t.outq.count == 0
      && t.sig.hostBuf == [1#16, 2#16, 3#16, 4#16, 9#16, 9#16]) = true := by decide +kernel

/-- L7: TICK on a block that is down. -/
theorem test_tick_down : next (exec .tick { State.reset with sig := { Signals.idle with port := .t } }) (fun t =>
    t.resp == some { status := .down, parked := false, value := 0#32 } && t.calls == []) = true := by decide +kernel

/-- W7. -/
theorem test_wake : (fun t : State => (getCh t 0).waiting == [{ thread := 3, remaining := 136 }]
      && t.calls == [.resume 1 10#32, .resume 2 20#32, .reschedule])
    (wakeThreads 0 0#32 (.frames 64)
      (st { plainChannel with waiting := [{ thread := 1, remaining := 64 }, { thread := 2, remaining := 64 },
                                          { thread := 3, remaining := 200 }] } noOut
        [(1, parked0 10#32), (2, parked0 20#32), (3, parked0 30#32)] [] .t)) = true := by decide +kernel

/-- W6: a thread parked on another channel is dropped. -/
theorem test_wake_drops : (fun t : State => (getCh t 0).waiting == [] && t.calls == [])
    (wakeThreads 0 0#32 (.frames 64)
      (st { plainChannel with waiting := [{ thread := 1, remaining := 500 }] } noOut
        [(1, { category := 1, key := 2, payload := 7#32 })] [] .t)) = true := by decide +kernel

/-- E21: addresses wrap. -/
theorem test_read_wraps :
    (memRead16 [(0, 2#8), (1, 0#8), (0xFFFFFFFE, 1#8), (0xFFFFFFFF, 0#8)] 0xFFFFFFFF#32).toOption = some 0x0200#16 := by
  decide +kernel

theorem test_reset_memory : Memory.wf State.reset.mem = true := by decide

/-- The first command a program presents runs. -/
theorem test_first_command : next (step (State.reset.withFetchWord 64 0x0100000000000001)) (fun t => t.up) = true := by
  decide +kernel

/-- Up, with an occurrence of EV_HOST and one of EV_AUDIO pending, and `m` to come. -/
def scheduled (m : Stimulus) : State :=
  { idle .g with
    ev := { (idle .g).ev with pending := [{ delay := 9, id := 2, userdata := 0 }, { delay := 7, id := 1, userdata := 0 }] }
    queue := [m] }

/-- R259: the second occurrence fires as a TICK on port T, 5 cycles late; it is consumed and scheduled again. -/
theorem test_fire_audio : next (step (scheduled (.fire 1 { Signals.idle with lateIn := 5 }))) (fun t =>
    t.sig.port == .t && t.sig.word == 0x2000000000000000#64 && t.calls == [.schedule 322171 1 0]
      && t.ev.pending == [{ delay := 9, id := 2, userdata := 0 }, { delay := 322171, id := 1, userdata := 0 }]) = true
    := by decide +kernel

/-- R260: a clock change arrives as CLKCHG on port T once INIT has registered it, and as nothing before. -/
theorem test_clock_change :
    next (step (scheduled (.clockChange { Signals.idle with cpsIn := 111000000 }))) (fun t =>
      t.ctl.cps == 111000000 && t.ctl.audioInterval == 161088) = true
    ∧ step { State.reset with queue := [.clockChange Signals.idle] } = .next State.reset :=
  ⟨by decide +kernel, rfl⟩

/-! ## Witnesses: for every statement with hypotheses, a state and operands that meet them all -/

theorem ready_of {i : Instr} {s : State} (h : legal i s = true) (hu : s.up = true) : Ready i s :=
  ⟨(legal_iff i s).mp h, hu⟩

/-- The states above meet the invariant. -/
theorem inv_st {k : Channel} {out : Ring} {W : List (Nat × WaitRecord)} {m : Memory} {p : Port}
    (hk : channelWf 512 k = true) (ho : ringWf 8192 out = true) (he : ringEven out = true) (hw : cellsSorted W)
    (hm : Memory.wf m = true) : (st k out W m p).Inv := by
  have hall : ∀ x ∈ (st k out W m p).chs, channelWf 512 x = true := by
    intro x hx
    have hx : x ∈ [k, plainChannel, plainChannel, plainChannel] := hx
    have hp : channelWf 512 plainChannel = true := by decide +kernel
    simp only [List.mem_cons, List.not_mem_nil, or_false] at hx
    rcases hx with rfl | rfl | rfl | rfl <;> assumption
  constructor
  · exact (by decide : Config.resetParams.wf = true)
  · rfl
  · exact fun x hx => ((ringWf_iff _ _).mp (channelWf_iff.mp (hall x hx)).1).1
  · exact ((ringWf_iff _ _).mp ho).1
  · exact fun _ => hall
  · exact fun _ => ⟨ho, he⟩
  · intro h; cases h
  · exact fun _ => ⟨_, rfl, List.length_replicate⟩
  · exact fun _ => ⟨rfl, rfl, rfl, rfl⟩
  · exact fun _ => (by decide : 322176 = interval Config.resetParams 222000000 64
      ∧ 2577414 = interval Config.resetParams 222000000 512)
  · exact fun _ => ⟨rfl, rfl, rfl, rfl, fun _ => rfl⟩
  · exact hm
  · exact hw
  · exact List.Pairwise.nil
  · exact (by decide : cellsSorted [(1, 1), (2, 2)])
  · exact (by decide : cellsSorted [(1, Callback.tick), (2, Callback.hostpoll)])

theorem inv_idle (p : Port) : (idle p).Inv :=
  inv_st (by decide +kernel) (by decide +kernel) (by decide +kernel) List.Pairwise.nil (by decide)

theorem ready_idle (i : Instr) (h : legal i (idle (portOf i)) = true) : Ready i (idle (portOf i)) := ready_of h rfl

/-- EncodeOfDecodeIsIdentity, DecodeIsMatchAndMask, StepRunsDecodedCommand, FetchWordRunsNext. -/
theorem witness_decodes : decode 0x3000000000000040#64 = .ok (.pull 64#32) := by decide +kernel

/-- StepRunsDecodedCommand. -/
theorem witness_step :
    ({ idle .g with queue := [.command { Signals.idle with word := 0x0700000000000000#64 }] } : State).queue
      = .command { Signals.idle with word := 0x0700000000000000#64 } :: []
    ∧ decode ({ Signals.idle with word := 0x0700000000000000#64 } : Signals).word = .ok .rdstat :=
  ⟨rfl, by decide +kernel⟩

/-- StepAnswersIllegalWord. -/
theorem witness_illegal_word : decode 0x1800020000000000#64 = .error .reservedFlags := by decide +kernel

/-- StepRunsDecodedCommand, the firings: of EV_AUDIO and EV_HOST, of an id nobody registered, of a position with
nothing pending; and the clock change, registered and not. -/
theorem witness_fire :
    (scheduled (.fire 1 Signals.idle)).queue = [.fire 1 Signals.idle]
    ∧ (scheduled (.fire 1 Signals.idle)).Inv ∧ (scheduled (.fire 1 Signals.idle)).up = true
    ∧ (scheduled (.fire 1 Signals.idle)).ev.pending[1]? = some { delay := 7, id := 1, userdata := 0 }
    ∧ cellsGet (scheduled (.fire 1 Signals.idle)).ev.callbacks 1 = some .tick
    ∧ (scheduled (.fire 1 Signals.idle)).ctl.evAudio = 1 ∧ (1 : Nat) ≠ (scheduled (.fire 1 Signals.idle)).ctl.evHost
    ∧ (scheduled (.fire 0 Signals.idle)).ev.pending[0]? = some { delay := 9, id := 2, userdata := 0 }
    ∧ (scheduled (.fire 0 Signals.idle)).ctl.evHost = 2
    ∧ cellsGet (scheduled (.fire 0 Signals.idle)).ev.callbacks 3 = none
    ∧ (scheduled (.fire 2 Signals.idle)).ev.pending[2]? = none
    ∧ (scheduled (.clockChange Signals.idle)).queue = [.clockChange Signals.idle]
    ∧ (scheduled (.clockChange Signals.idle)).ev.clockCallback = true ∧ State.reset.ev.clockCallback = false :=
  ⟨rfl, { inv_idle .g with }, rfl, rfl, rfl, rfl, by decide, rfl, rfl, rfl, rfl, rfl, rfl, rfl⟩

/-- A state with one stimulus to come, thread 7 parked and four bytes admitted. -/
def moving (m : Stimulus) : State :=
  { st plainChannel noOut [(7, parked0 9#32)] (bytesFrom 0x100 [1#8, 2#8, 3#8, 4#8]) .g with queue := [m] }

/-- MovesBetweenCommands, clause by clause, each with its stimulus queued. -/
theorem witness_moves :
    (idle .g).queue = []
    ∧ (moving (.threadLeft 7)).queue = [.threadLeft 7] ∧ cellsSorted (moving (.threadLeft 7)).sched.waits
    ∧ (moving (.threadReparked 7 { category := 2, key := 0, payload := 0#32 })).queue
        = [.threadReparked 7 { category := 2, key := 0, payload := 0#32 }]
    ∧ 2 ≠ (moving (.threadReparked 7 { category := 2, key := 0, payload := 0#32 })).par.waitAudio
    ∧ (moving (.threadReparked 7 (parked0 1#32))).queue = [.threadReparked 7 (parked0 1#32)]
    ∧ (parked0 1#32).category = (moving (.threadReparked 7 (parked0 1#32))).par.waitAudio
    ∧ (moving (.guestStore 0xFFFFFFFF#32 5#8)).queue = [.guestStore 0xFFFFFFFF#32 5#8]
    ∧ (moving (.guestUnmap 0x103#32)).queue = [.guestUnmap 0x103#32]
    ∧ Memory.wf (moving (.guestUnmap 0x103#32)).mem = true
    ∧ (moving .powerOn).queue = [.powerOn] ∧ (moving .powerOn).up = true :=
  ⟨rfl, rfl, by decide, rfl, by decide, rfl, rfl, rfl, rfl, by decide +kernel, rfl, rfl⟩

/-- IllegalCommandChangesNothing: the wrong port, a channel above CH_MAX, an illegal value. -/
theorem witness_not_accepted :
    ¬ Accepted .tick (idle .g) ∧ ¬ Accepted (.enq 4#8 true) (idle .g) ∧ ¬ Accepted (.init 3#2) (idle .g) := by
  refine ⟨?_, ?_, ?_⟩ <;> rw [← legal_iff] <;> decide +kernel

/-- IllegalCommandChangesNothing, second clause: an undecodable word, and TICK's word on port G. -/
theorem witness_illegal_presented : (∀ i, decode 0x1800020000000000#64 = .ok i →
      ¬ Accepted i (presented { Signals.idle with word := 0x1800020000000000#64 } [] (idle .g)))
    ∧ (∀ i, decode 0x2000000000000000#64 = .ok i →
      ¬ Accepted i (presented { Signals.idle with word := 0x2000000000000000#64 } [] (idle .g))) := by
  refine ⟨fun i h => ?_, fun i h => ?_⟩
  · rw [witness_illegal_word] at h; cases h
  · rw [test_decode_tick] at h
    cases h
    rw [← legal_iff]; decide +kernel

/-- OutfreqIsReadByNoCommand, both clauses. -/
theorem witness_outfreq : next (exec .clkchg (idle .t)) (fun _ => true) = true ∧ Ready (.setfreq 1#32) (idle .g)
    ∧ Ready .shutdown (idle .g) :=
  ⟨by decide +kernel, ready_of (by decide +kernel) rfl, ready_of (by decide +kernel) rfl⟩

/-- DownCommandChangesNothing. -/
theorem witness_down :
    Accepted .rdstat State.reset ∧ (∀ p, Instr.rdstat ≠ .init p) ∧ State.reset.up = false :=
  ⟨(legal_iff _ _).mp (by decide +kernel), fun _ h => (by cases h), rfl⟩

/-- RingIsFifo. -/
theorem witness_ring_fifo : ringWf 8 (Ring.powerOn 8) = true ∧ (Ring.powerOn 8).count = 0
    ∧ (runRing 8 [.push [1#16, 2#16], .pop 1] (Ring.powerOn 8)).isSome = true := by decide +kernel

/-- RingPrimitivesMoveElements: a full ring whose head and tail meet at 2 (2.2, step 5). -/
theorem witness_ring_wf :
    ringWf 8 { storage := List.replicate 8 1#16, head := 2, tail := 2, count := 8 } = true := by decide

/-- AdjustVolumeOnTheGainRange, both ends of the range. -/
theorem witness_gain_range : (0 : Int) ≤ 0 ∧ (0 : Int) ≤ 65536 ∧ (0 : Int) ≤ 65536 ∧ (65536 : Int) ≤ 65536 := by decide

/-- RegisterWritesSetOneRegister, at the last channel. -/
theorem witness_register_writes :
    (idle .g).up = true ∧ (idle .g).sig.port = .g ∧ (3#8).toNat ≤ (idle .g).par.chMax := by decide

/-- RegisterWritesFrame. -/
theorem witness_register_frame : ∃ t, exec (.setcnt 3#8 5#32) (idle .g) = .next t :=
  ⟨_, exec_of_ready (ready_idle _ (by decide +kernel))⟩

/-- Channel 0 with a queue of four elements and one waiter. -/
def busy (p : Port) : State :=
  st { channelWith [1#16, 2#16, 3#16, 4#16] with
        sampleCount := 2#32, sampleAddress := 0x100#32, waiting := [{ thread := 7, remaining := 64 }] } noOut
    [(7, parked0 9#32)] (bytesFrom 0x100 (List.replicate 8 1#8)) p

theorem inv_busy (p : Port) : (busy p).Inv :=
  inv_st (by decide +kernel) (by decide +kernel) (by decide +kernel) (by decide) (by decide +kernel)

/-- ChannelClearForceWakes; its last clause has a waiter. -/
theorem witness_channel_clear : Ready (.chclr 0#8) (busy .g) ∧ (busy .g).held = true
    ∧ cellsSorted (busy .g).sched.waits ∧ Waits (busy .g) 0 7 ∧ ∀ u, ¬ Waits (idle .g) 0 u :=
  ⟨ready_of (by decide +kernel) rfl, rfl, by decide, ⟨⟨{ thread := 7, remaining := 64 }, by decide, rfl⟩, by unfold ParkedHere; decide⟩,
   fun u h => by obtain ⟨⟨e, he, -⟩, -⟩ := h; cases he⟩

/-- DrainWakesExactlyAtThreshold: R = 64, passes of 63: one before the threshold, the second reaches it. -/
theorem witness_drain : 0 < (busy .t).chs.length
    ∧ (getCh (busy .t) 0).waiting = [{ thread := 7, remaining := 64 }]
    ∧ cellsGet (busy .t).sched.waits 7 = some { category := (busy .t).par.waitAudio, key := 0 + 1, payload := 9#32 }
    ∧ cellsSorted (busy .t).sched.waits ∧ 0 < 63 ∧ (∀ k : Nat, 0 < k → k ≤ 1 → (k * 63 : Int) < 64)
    ∧ (64 : Int) ≤ ((1 + 1) * 63 : Int) :=
  ⟨by decide, rfl, rfl, by decide, by decide, fun k _ h => by omega, by decide⟩

/-- WakePassSortsEntries. -/
theorem witness_wake_pass : 0 < (busy .t).chs.length ∧ cellsSorted (busy .t).sched.waits
    ∧ ((getCh (busy .t) 0).waiting.map WaitEntry.thread).Nodup := ⟨by decide, by decide, by decide⟩

/-- SecondEntryOfAThreadIsDropped, as in W9. -/
theorem witness_second_entry :
    (let s := st { plainChannel with waiting := [{ thread := 1, remaining := 64 }, { thread := 1, remaining := 300 }] }
        noOut [(1, parked0 5#32)] [] .t
     0 < s.chs.length ∧ cellsSorted s.sched.waits ∧ (64 : Int) ≤ (64 : Nat)
      ∧ (getCh s 0).waiting = [{ thread := 1, remaining := 64 }, { thread := 1, remaining := 300 }]
      ∧ cellsGet s.sched.waits 1 = some { category := s.par.waitAudio, key := 0 + 1, payload := 5#32 }) :=
  ⟨by decide, by decide, by decide, rfl, rfl⟩

/-- NonBlockingEnqOnBusyChannel. -/
theorem witness_enq_busy : Ready (.enq 0#8 false) (busy .g) ∧ (busy .g).held = true
    ∧ 0 < (getCh (busy .g) 0).queue.count := ⟨ready_of (by decide +kernel) rfl, rfl, by decide⟩

/-- SilenceOnlyEnqOnEmptyQueue, on CH_SRC. -/
theorem witness_enq_silence : Ready (.enq 2#8 true) (idle .g) ∧ (idle .g).held = true
    ∧ (getCh (idle .g) 2).queue.count = 0 ∧ (getCh (idle .g) 2).sampleAddress = 0#32 :=
  ⟨ready_of (by decide +kernel) rfl, rfl, rfl, rfl⟩

/-- Channel 0 empty, two stereo frames in guest memory. -/
def filled : State :=
  st { channelWith [] with sampleCount := 2#32, sampleAddress := 0x100#32 } noOut []
    (bytesFrom 0x100 (List.replicate 8 1#8)) .g

/-- EnqOnEmptyQueueAppendsSamples. -/
theorem witness_enq_appends : Ready (.enq 0#8 false) filled ∧ filled.held = true
    ∧ ringWf filled.par.cqCap (getCh filled 0).queue = true ∧ (getCh filled 0).queue.count = 0
    ∧ (getCh filled 0).sampleAddress ≠ 0#32 ∧ 2 * (getCh filled 0).sampleCount.toNat ≤ filled.par.cqCap
    ∧ admitted filled.mem (getCh filled 0).sampleAddress (bytesRead (getCh filled 0)) :=
  ⟨ready_of (by decide +kernel) rfl, rfl, by decide +kernel, rfl, by decide, by decide,
   by unfold admitted; decide +kernel⟩

/-- UnityStereoIsACopy: an ENQ that completes on an empty queue, and a blocking one on a non-empty queue. -/
theorem witness_unity_stereo :
    (∃ t, exec (.enq 0#8 false) filled = .next t) ∧ (∃ t, exec (.enq 0#8 true) (busy .g) = .next t)
    ∧ Ready (.enq 0#8 true) (busy .g) ∧ 0 < filled.chs.length ∧ 0 < (busy .g).chs.length
    ∧ (getCh filled 0).format = .stereo ∧ (getCh filled 0).leftVolume = 65536#17
    ∧ (getCh filled 0).rightVolume = 65536#17 ∧ (getCh (busy .g) 0).format = .stereo
    ∧ (getCh (busy .g) 0).sampleAddress ≠ 0#32 := by
  refine ⟨?_, ?_, ready_of (by decide +kernel) rfl, by decide, by decide, rfl, rfl, rfl, rfl, by decide⟩
  · rw [exec_of_ready witness_enq_appends.1]; exact ⟨_, rfl⟩
  · rw [exec_of_ready (ready_of (by decide +kernel) rfl)]; exact ⟨_, rfl⟩

/-- The same guest memory read as four mono samples. -/
def filledMono : State :=
  st { channelWith [] with format := .mono, sampleCount := 4#32, sampleAddress := 0x100#32 } noOut []
    (bytesFrom 0x100 (List.replicate 8 1#8)) .g

/-- MonoExpandsToEqualPairs. -/
theorem witness_mono : Ready (.enq 0#8 false) filledMono ∧ (∃ t, exec (.enq 0#8 false) filledMono = .next t)
    ∧ 0 < filledMono.chs.length ∧ ringWf filledMono.par.cqCap (getCh filledMono 0).queue = true
    ∧ (getCh filledMono 0).sampleAddress ≠ 0#32 ∧ (getCh filledMono 0).queue.count = 0
    ∧ (getCh filledMono 0).format = .mono
    ∧ (getCh filledMono 0).leftVolume = (getCh filledMono 0).rightVolume := by
  have h : Ready (.enq 0#8 false) filledMono := ready_of (by decide +kernel) rfl
  refine ⟨h, ?_, by decide, by decide +kernel, by decide, rfl, rfl, rfl⟩
  rw [exec_of_ready h]; exact ⟨_, rfl⟩

/-- BlockingEnqParksAndAppends. -/
theorem witness_enq_parks : Ready (.enq 0#8 true) (busy .g) ∧ (busy .g).held = true
    ∧ (busy .g).sig.dispatchEnabled = true ∧ 0 < (busy .g).chs.length ∧ 0 < (getCh (busy .g) 0).queue.count
    ∧ ringWf (busy .g).par.cqCap (getCh (busy .g) 0).queue = true
    ∧ 2 * (getCh (busy .g) 0).sampleCount.toNat ≤ (busy .g).par.cqCap - (getCh (busy .g) 0).queue.count
    ∧ admitted (busy .g).mem (getCh (busy .g) 0).sampleAddress (bytesRead (getCh (busy .g) 0)) :=
  ⟨ready_of (by decide +kernel) rfl, rfl, rfl, by decide, by decide, by decide +kernel, by decide,
   by unfold admitted; decide +kernel⟩

/-- The same with dispatch disabled. -/
def noDispatch : State := { busy .g with sig := { (busy .g).sig with dispatchEnabled := false } }

/-- BlockingEnqWithDispatchDisabled. -/
theorem witness_enq_cannot_wait : Ready (.enq 0#8 true) noDispatch ∧ noDispatch.held = true
    ∧ noDispatch.sig.dispatchEnabled = false ∧ 0 < noDispatch.chs.length ∧ 0 < (getCh noDispatch 0).queue.count
    ∧ ringWf noDispatch.par.cqCap (getCh noDispatch 0).queue = true
    ∧ 2 * (getCh noDispatch 0).sampleCount.toNat ≤ noDispatch.par.cqCap - (getCh noDispatch 0).queue.count
    ∧ admitted noDispatch.mem (getCh noDispatch 0).sampleAddress (bytesRead (getCh noDispatch 0)) :=
  ⟨ready_of (by decide +kernel) rfl, rfl, rfl, by decide, by decide, by decide +kernel, by decide,
   by unfold admitted; decide +kernel⟩

/-- EnqBeyondRoomFaults, empty queue: one frame more than fits (E18), and a full queue for the other clauses. -/
theorem witness_enq_beyond_room :
    (let s := st { channelWith [] with sampleCount := 257#32, sampleAddress := 0x100#32 } noOut [] [] .g
     Ready (.enq 0#8 true) s ∧ s.held = true ∧ 0 < s.chs.length ∧ (getCh s 0).sampleAddress ≠ 0#32
      ∧ s.par.cqCap - (getCh s 0).queue.count < 2 * (getCh s 0).sampleCount.toNat ∧ (getCh s 0).queue.count = 0)
    ∧ (let s := st { channelWith (List.replicate 512 1#16) with sampleCount := 1#32, sampleAddress := 0x100#32 } noOut
          [] [] .g
       Ready (.enq 0#8 true) s ∧ s.par.cqCap - (getCh s 0).queue.count < 2 * (getCh s 0).sampleCount.toNat
        ∧ 0 < (getCh s 0).queue.count ∧ s.sig.dispatchEnabled = true) :=
  ⟨⟨ready_of (by decide +kernel) rfl, rfl, by decide, by decide, by decide, rfl⟩,
   ⟨ready_of (by decide +kernel) rfl, by decide +kernel, by decide +kernel, rfl⟩⟩

/-- Channel 0 with the queue `vs` and two frames to read, the last of whose eight bytes is not admitted. -/
def unadmitted (vs : List S16) (dispatch : Bool) : State :=
  let s := st { channelWith vs with sampleCount := 2#32, sampleAddress := 0x100#32 } noOut []
    (bytesFrom 0x100 (List.replicate 7 1#8)) .g
  { s with sig := { s.sig with dispatchEnabled := dispatch } }

/-- EnqOnUnadmittedAddressFaults: its premises on an empty queue, and with two elements held and dispatch disabled or
enabled. -/
theorem witness_enq_unadmitted :
    (∀ vs ∈ [[], [1#16, 2#16]], ∀ d ∈ [false, true],
      Ready (.enq 0#8 true) (unadmitted vs d) ∧ (unadmitted vs d).held = true ∧ 0 < (unadmitted vs d).chs.length
      ∧ (getCh (unadmitted vs d) 0).sampleAddress ≠ 0#32
      ∧ 2 * (getCh (unadmitted vs d) 0).sampleCount.toNat
          ≤ (unadmitted vs d).par.cqCap - (getCh (unadmitted vs d) 0).queue.count
      ∧ 7 < bytesRead (getCh (unadmitted vs d) 0)
      ∧ admitted (unadmitted vs d).mem (getCh (unadmitted vs d) 0).sampleAddress 7
      ∧ byteAt (unadmitted vs d).mem ((getCh (unadmitted vs d) 0).sampleAddress + BitVec.ofNat 32 7) = none
      ∧ (getCh (unadmitted vs d) 0).queue.count = vs.length ∧ (unadmitted vs d).sig.dispatchEnabled = d) := by
  intro vs hv d _
  have hadm : admitted (bytesFrom 0x100 (List.replicate 7 1#8)) 0x100#32 7 := by unfold admitted; decide +kernel
  have hlen : vs.length ≤ 2 := by
    simp only [List.mem_cons, List.not_mem_nil, or_false] at hv
    rcases hv with rfl | rfl <;> decide
  have hnone : byteAt (bytesFrom 0x100 (List.replicate 7 1#8)) (0x100#32 + BitVec.ofNat 32 7) = none := by
    decide +kernel
  refine ⟨⟨⟨rfl, rfl, fun ch h => ?_⟩, rfl⟩, rfl, (by decide : 0 < 4), (by decide : (0x100#32 : Addr) ≠ 0#32), ?_,
    (by decide : 7 < 8), hadm, hnone, rfl, rfl⟩
  · cases h; exact (by decide : 0 ≤ 3)
  · show 2 * 2 ≤ 512 - vs.length
    omega

/-- What the three clauses of EnqOnUnadmittedAddressFaults say of those states (R247). -/
theorem test_enq_unadmitted :
    faultOf (exec (.enq 0#8 false) (unadmitted [] true)) = some (.mem 0x107#32 [])
    ∧ faultOf (exec (.enq 0#8 true) (unadmitted [1#16, 2#16] false)) = some (.mem 0x107#32 [])
    ∧ faultOf (exec (.enq 0#8 true) (unadmitted [1#16, 2#16] true))
        = some (.mem 0x107#32 [.park 1 1 1 2#32 false]) :=
  ⟨by decide +kernel, by decide +kernel, by decide +kernel⟩

/-- EnqFrame. -/
theorem witness_enq_frame : ∃ t, exec (.enq 0#8 false) (busy .g) = .next t := by
  rw [exec_of_ready witness_enq_busy.1]
  exact ⟨_, rfl⟩

/-- TickAppendsMixedBlock at the last room that suffices (T6), TickReschedulesThenWakes, TickFrame. -/
theorem witness_tick_room :
    (let s := st (channelWith [1#16, 2#16]) { noOut with tail := 8064, count := 8064 } [] [] .t
     Ready .tick s ∧ s.held = true ∧ s.Inv ∧ 2 * s.ctl.hbs ≤ s.par.oqCap - s.outq.count) :=
  ⟨ready_of (by decide +kernel) rfl, rfl,
   inv_st (by decide +kernel) (by decide +kernel) (by decide +kernel) List.Pairwise.nil (by decide), by decide⟩

/-- TickWithoutRoomDropsBlock at the first room that does not suffice (T7). -/
theorem witness_tick_no_room :
    (let s := st (channelWith [1#16, 2#16]) { noOut with tail := 8066, count := 8066 } [] [] .t
     Ready .tick s ∧ s.held = true ∧ s.Inv ∧ s.par.oqCap - s.outq.count < 2 * s.ctl.hbs) :=
  ⟨ready_of (by decide +kernel) rfl, rfl,
   inv_st (by decide +kernel) (by decide +kernel) (by decide +kernel) List.Pairwise.nil (by decide), by decide⟩

/-- TickReschedulesThenWakes, TickFrame: a tick with a reserved channel answers a next state; thread 7 is due, thread
8 is not. -/
theorem witness_tick_next : Ready .tick (busy .t) ∧ (busy .t).Inv ∧ (getCh (busy .t) 0).reserved = true
    ∧ next (exec .tick (busy .t)) (fun _ => true) = true ∧ DueAtTick (busy .t) 7 ∧ ¬ DueAtTick (busy .t) 8 :=
  ⟨ready_of (by decide +kernel) rfl, inv_busy _, rfl, by decide +kernel,
   ⟨0, by decide, rfl, by unfold ParkedHere; decide, { thread := 7, remaining := 64 }, by decide, rfl, by decide⟩,
   fun ⟨_, _, _, h, _⟩ => by
     have h0 : waitId (busy .t).sched 8 (busy .t).par.waitAudio = 0 := by decide +kernel
     unfold ParkedHere at h; omega⟩

/-- What a tick does to the due thread (R181, R184): its own payload, once, and one reschedule. -/
theorem test_tick_wakes : next (exec .tick (busy .t)) (fun t =>
    t.calls == [.schedule 322176 1 0, .resume 7 9#32, .reschedule] && t.sched.waits == []
      && t.sched.delivered == [(7, 9#32)]) = true := by decide +kernel

/-- HostpollReschedulesAndPolls. -/
theorem witness_hostpoll : Ready .hostpoll (idle .t) := ready_of (by decide +kernel) rfl

/-- PullMovesOldestFrames (H6: more asked than there is), with a host buffer just long enough. -/
theorem witness_pull :
    (let s := { st plainChannel (ringOf 8192 [1#16, 2#16]) [] [] .h with
                sig := { Signals.idle with port := .h, hostBuf := List.replicate 128 5#16 } }
     Ready (.pull 64#32) s ∧ s.held = true ∧ s.sig.during = none ∧ ringWf s.par.oqCap s.outq = true
      ∧ 2 * (64#32).toNat ≤ s.sig.hostBuf.length) :=
  ⟨ready_of (by decide +kernel) rfl, rfl, rfl, by decide +kernel, by decide +kernel⟩

/-- PullFrame. -/
theorem witness_pull_frame : next (exec (.pull 1#32) (idle .h)) (fun _ => true) = true := by decide +kernel

/-- PullDuringLifecycleFaults. -/
theorem witness_pull_race :
    (let s := { idle .h with sig := { (idle .h).sig with during := some .save } }
     Ready (.pull 1#32) s ∧ s.sig.during = some .save) := ⟨ready_of (by decide +kernel) rfl, rfl⟩

/-- InitFromDown. -/
theorem witness_init_down : Accepted (.init 2#2) State.reset ∧ profileOf 2#2 = some .high ∧ State.reset.up = false
    ∧ State.reset.chs.length = State.reset.par.nch :=
  ⟨(legal_iff _ _).mp (by decide +kernel), rfl, rfl, rfl⟩

/-- InitWhileUpForceWakes; somebody waits. -/
theorem witness_init_up : Accepted (.init 0#2) (busy .g) ∧ profileOf 0#2 = some .low ∧ (busy .g).up = true
    ∧ (busy .g).held = true ∧ (busy .g).Inv ∧ Waits (busy .g) 0 7 :=
  ⟨(legal_iff _ _).mp (by decide +kernel), rfl, rfl, rfl, inv_busy _, witness_channel_clear.2.2.2.1⟩

/-- ShutdownForceWakesAndReleases; somebody waits. -/
theorem witness_shutdown : Ready .shutdown (busy .g) ∧ (busy .g).held = true ∧ (busy .g).Inv ∧ Waits (busy .g) 0 7 :=
  ⟨ready_of (by decide +kernel) rfl, rfl, inv_busy _, witness_channel_clear.2.2.2.1⟩

/-- ClockChangeRecomputesIntervals. -/
theorem witness_clkchg : Ready .clkchg (idle .t) := ready_of (by decide +kernel) rfl

/-- SetFreqStoresOutfreq. -/
theorem witness_setfreq : Ready (.setfreq 48000#32) (idle .g) := ready_of (by decide +kernel) rfl

/-- RdstatReadsStatus. -/
theorem witness_rdstat : Ready .rdstat (idle .g) := ready_of (by decide +kernel) rfl

/-- SaveSnapshotsPersistedState. -/
theorem witness_save : Ready .save (busy .g) ∧ (busy .g).held = true := ⟨ready_of (by decide +kernel) rfl, rfl⟩

/-- A state about to load the record `x`. -/
def loading (x : Snapshot) : State := { idle .g with sig := { (idle .g).sig with snapIn := x } }

/-- LoadRestoresPersistedState. -/
theorem witness_load : Ready .load (loading (snapshotOf (busy .g)))
    ∧ (loading (snapshotOf (busy .g))).sig.snapIn.compatible (loading (snapshotOf (busy .g))).par = true
    ∧ (loading (snapshotOf (busy .g))).sig.snapIn.wf (loading (snapshotOf (busy .g))).par = true :=
  ⟨ready_of (by decide +kernel) rfl, by decide +kernel, by decide +kernel⟩

/-- LoadOfImpossibleRecordFaults: a channel is missing. -/
theorem witness_load_impossible :
    (let s := loading { snapshotOf (busy .g) with channels := [] }
     Ready .load s ∧ s.sig.snapIn.compatible s.par = true ∧ s.sig.snapIn.wf s.par = false) :=
  ⟨ready_of (by decide +kernel) rfl, by decide +kernel, by decide +kernel⟩

/-- IncompatibleLoadLeavesUnspecified (L5). -/
theorem witness_load_incompatible :
    (let s := loading { snapshotOf (busy .g) with cqCap := 1024 }
     Ready .load s ∧ s.sig.snapIn.compatible s.par = false) := ⟨ready_of (by decide +kernel) rfl, by decide +kernel⟩

/-- UnspecifiedStateFaultsOnRead, both clauses. -/
theorem witness_unspecified :
    (let s := { idle .g with held := false }
     Ready .save s ∧ Ready .rdstat s ∧ s.held = false ∧ s.sig.during = none) :=
  ⟨ready_of (by decide +kernel) rfl, ready_of (by decide +kernel) rfl, rfl, rfl⟩

/-- SaveThenLoadRoundTrips. -/
theorem witness_round_trip : (busy .g).Inv ∧ (busy .g).up = true ∧ (busy .g).sig.port = .g
    ∧ exec .save (busy .g) = .next (answer .ok false 0#32 { busy .g with snapOut := some (snapshotOf (busy .g)) })
    ∧ ({ Signals.idle with snapIn := snapshotOf (busy .g) } : Signals).port = .g := by
  refine ⟨inv_busy _, rfl, rfl, ?_, rfl⟩
  rw [exec_of_ready witness_save.1]
  simp only [bodyOf]
  rw [needHeld_of_held _ (rfl : (busy .g).held = true)]
  rfl

/-- NoCommandWritesGuestMemory, OverflowFlagIsSticky, OutputRingHasOneProducerOneConsumer, OnlyInitSelectsProfile,
EveryCommandResponds: a command that answers. -/
theorem witness_exec_next : (∃ t, exec .rdstat (idle .g) = .next t) ∧ (∀ p, Instr.rdstat ≠ .init p)
    ∧ Instr.rdstat ≠ .shutdown ∧ Instr.rdstat ≠ .load ∧ Instr.rdstat ≠ .tick ∧ (∀ n, Instr.rdstat ≠ .pull n) := by
  have h : ∃ t, exec .rdstat (idle .g) = .next t := by
    rw [exec_of_ready witness_rdstat]
    exact ⟨_, rfl⟩
  refine ⟨h, ?_, ?_, ?_, ?_, ?_⟩
  · intro p h; cases h
  · intro h; cases h
  · intro h; cases h
  · intro h; cases h
  · intro n h; cases h

/-- FaultsOnlyWhereListed: a command that faults. -/
theorem witness_exec_fault :
    faultOf (exec (.pull 1#32) { idle .h with sig := { (idle .h).sig with during := some .save } }) = some (.race [])
    := by decide +kernel

/-- StepKeepsInvariant: a state with the invariant that steps. -/
theorem witness_step_inv : (idle .g).Inv ∧ step (idle .g) = .next (idle .g) := ⟨inv_idle _, rfl⟩

/-- PowerOnMeetsInvariant, RunsFromPowerOnKeepRingsSound: parameters that meet R6, and a run. -/
theorem witness_run : Config.resetParams.wf = true
    ∧ RunsTo 1 { State.powerOnWith Config.resetParams with queue := [.guestStore 0#32 1#8] }
        { State.powerOnWith Config.resetParams with mem := [(0, 1#8)] } := ⟨by decide, rfl⟩

end Sys2Proof.Tests
end

section
/-! Proofs of the obligations of spec/00_scope.md. First, what a step does with the stimulus at the head of the queue,
said once; then each kind of stimulus that presents a command. -/

namespace Sys2Proof.Machine

open Sys2Proof

/-! ## A step, by what its stimulus presents -/

/-- R95: a presented word that decodes is run on the presented signals, after the environment's own move. -/
theorem step_of_presents {s : State} {m : Stimulus} {rest : List Stimulus} {p : Signals} {i : Instr}
    (hq : s.queue = m :: rest) (hp : presentedBy m s.ev = some p) (hd : decode p.word = .ok i) :
    step s = exec i (present p (environmentMove m { s with queue := rest })) := by
  simp [step, hq, hp, hd]

/-- R11: with no command presented, a step is the environment's move alone. -/
theorem step_of_presents_none {s : State} {m : Stimulus} {rest : List Stimulus}
    (hq : s.queue = m :: rest) (hp : presentedBy m s.ev = none) :
    step s = .next (environmentMove m { s with queue := rest }) := by
  simp [step, hq, hp]

/-! ## The stimuli that present a command -/

theorem step_command {s : State} {p : Signals} {rest : List Stimulus} {i : Instr}
    (hq : s.queue = .command p :: rest) (hd : decode p.word = .ok i) :
    step s = exec i (presented p rest s) :=
  step_of_presents hq rfl hd

/-- R259: an occurrence whose id has a callback is consumed, and the callback's command runs on port T. -/
theorem step_fire {s : State} {n : Nat} {p : Signals} {rest : List Stimulus} {o : Occurrence} {cb : Callback}
    (hq : s.queue = .fire n p :: rest) (ho : s.ev.pending[n]? = some o)
    (hc : cellsGet s.ev.callbacks o.id = some cb) :
    step s = exec (callbackCommand cb)
      (presented (calledOnPortT (callbackCommand cb) p) rest (withoutOccurrence n s)) := by
  have hcb : calledBack s.ev n = some cb := (calledBack_of_pending ho).trans hc
  have hp : presentedBy (.fire n p) s.ev = some (calledOnPortT (callbackCommand cb) p) := by
    simp [presentedBy, hcb, onPortT, calledOnPortT]
  rw [step_of_presents hq hp (decode_callbackCommand cb)]
  simp [environmentMove, fireOccurrence, hcb, present, presented, withoutOccurrence]

/-- No pending occurrence, or one whose id nobody registered, calls nothing back (log 11). -/
theorem calledBack_eq_none {e : Events} {n : Nat}
    (h : ∀ o, e.pending[n]? = some o → cellsGet e.callbacks o.id = none) : calledBack e n = none := by
  unfold calledBack
  cases ho : e.pending[n]? with
  | none => rfl
  | some o => exact h o ho

/-- Log 11: an occurrence that calls nothing back is not consumed; only the stimulus is gone. -/
theorem step_fire_of_calledBack_none {s : State} {n : Nat} {p : Signals} {rest : List Stimulus}
    (hq : s.queue = .fire n p :: rest) (hc : calledBack s.ev n = none) :
    step s = .next { s with queue := rest } := by
  rw [step_of_presents_none hq (by simp [presentedBy, hc])]
  simp [environmentMove, fireOccurrence, hc]

/-- R260: a clock change with its callback registered runs CLKCHG on port T. -/
theorem step_clockChange {s : State} {p : Signals} {rest : List Stimulus}
    (hq : s.queue = .clockChange p :: rest) (hc : s.ev.clockCallback = true) :
    step s = exec .clkchg (presented (calledOnPortT .clkchg p) rest s) := by
  have hp : presentedBy (.clockChange p) s.ev = some (calledOnPortT .clkchg p) := by
    simp [presentedBy, hc, onPortT, calledOnPortT]
  exact step_of_presents hq hp decode_clkchg

theorem step_clockChange_unregistered {s : State} {p : Signals} {rest : List Stimulus}
    (hq : s.queue = .clockChange p :: rest) (hc : s.ev.clockCallback = false) :
    step s = .next { s with queue := rest } :=
  step_of_presents_none hq (by simp [presentedBy, hc])

/-- Settles O5. The firings of EV_HOST and EV_AUDIO are `step_fire` at the callbacks the invariant holds for their
ids. -/
theorem stepRunsDecodedCommand : Obligations.StepRunsDecodedCommand := by
  intro s p rest
  refine ⟨fun i hq hd => step_command hq hd, fun n hq => ⟨fun o cb ho hc => step_fire hq ho hc, fun h => ?_, ?_⟩,
    fun hq => ⟨step_clockChange hq, step_clockChange_unregistered hq⟩⟩
  · exact step_fire_of_calledBack_none hq (calledBack_eq_none h)
  · intro hI hup o ho
    obtain ⟨-, -, -, hhost, haudio⟩ := hI.events hup
    constructor
    · intro hid
      exact step_fire (cb := .hostpoll) hq ho (hid ▸ hhost)
    · intro hid hne
      exact step_fire (cb := .tick) hq ho (hid ▸ haudio hne)

end Sys2Proof.Machine
end

section
/-! Proofs of the invariants of spec/10_state.md: what a step keeps (R20 to R35) and where it starts (R38). First the
inversion of a step and the invariant under each rule not treated in Laws/Invariant.lean, then the obligations. -/

namespace Sys2Proof.Machine

open Sys2Proof

/-! ## What a step can do -/

/-- A next state: nothing presented to the machine at all, or the environment's move `u`, alone or followed by the
presented command or by the answer to a word that is none (R11, R95, R97). -/
theorem step_eq_next {s t : State} (h : step s = .next t) :
    t = s ∨ ∃ m rest u, s.queue = m :: rest ∧ u = environmentMove m { s with queue := rest }
      ∧ (t = u ∨ ∃ p, presentedBy m s.ev = some p
          ∧ ((∃ i, decode p.word = .ok i ∧ exec i (present p u) = .next t)
            ∨ t = answer .illegal false 0#32 (present p u))) := by
  cases hq : s.queue with
  | nil => simp only [step, hq] at h; cases h; exact .inl rfl
  | cons m rest =>
    refine .inr ⟨m, rest, _, rfl, rfl, ?_⟩
    cases hp : presentedBy m s.ev with
    | none => rw [step_of_presents_none hq hp] at h; cases h; exact .inl rfl
    | some p =>
      refine .inr ⟨p, rfl, ?_⟩
      cases hd : decode p.word with
      | ok i => rw [step_of_presents hq hp hd] at h; exact .inl ⟨i, rfl, h⟩
      | error e => simp only [step, hq, hp, hd] at h; exact .inr (respond_eq_next h)

/-! ## The invariant under the rules that are left -/

/-- CLKCHG's assignments (R213): both intervals follow the new clock. -/
theorem inv_deriveIntervals {s : State} (hI : s.Inv) : (deriveIntervals s).Inv :=
  { hI with intervals := fun _ => ⟨rfl, rfl⟩ }

/-- OUTFREQ is no part of the invariant (R34). -/
theorem inv_withOutfreq {s : State} (hI : s.Inv) (f : U32) : (withOutfreq f s).Inv := { hI with }

/-- A record SAVE could produce has this block's channels and rings (R218). -/
theorem Snapshot.wf_iff {x : Snapshot} {P : Params} : x.wf P = true ↔
    x.channels.length = P.nch ∧ (∀ k ∈ x.channels, channelWf P.cqCap k = true)
      ∧ ringWf P.oqCap x.outq = true ∧ ringEven x.outq = true := by
  simp [Snapshot.wf, and_assoc]

/-- The storage of a ring with R120's invariant has the ring's capacity. -/
theorem ringWf_storage {cap : Nat} {q : Ring} (h : ringWf cap q = true) : q.storage.length = cap :=
  ((ringWf_iff cap q).mp h).1

/-- The channels and OUTQ of a record SAVE could produce may be put in place (R218). -/
theorem inv_restore {s : State} (hI : s.Inv) {x : Snapshot} (hx : x.wf s.par = true) :
    ({ s with chs := x.channels, outq := x.outq, held := true } : State).Inv := by
  obtain ⟨hlen, hch, hout, heven⟩ := Snapshot.wf_iff.mp hx
  exact { hI with
    channels := hlen
    storage := fun k hk => ringWf_storage (channelWf_iff.mp (hch k hk)).1
    outStorage := ringWf_storage hout
    heldChannel := fun _ => hch
    heldOut := fun _ => ⟨hout, heven⟩ }

/-- LOAD's rule (R218, R219). -/
theorem inv_loadBody {s t : State} (hI : s.Inv) (h : loadBody s = .next t) : t.Inv := by
  rcases loadBody_cases s with ⟨-, e⟩ | ⟨-, -, e⟩ | ⟨-, hw, e⟩ <;> rw [e] at h <;> cases h
  · exact inv_answer (inv_forgetPersisted hI) _ _ _
  · exact inv_answer (inv_registerEvents (inv_restore hI hw)) _ _ _

/-- PULL's rule (R201): whole frames leave OUTQ, so it stays even. -/
theorem inv_pullBody {n : U32} {s t : State} (hI : s.Inv) (hh : s.held = true) (h : pullBody n s = .next t) :
    t.Inv := by
  obtain ⟨vs, q, v, hpop, rfl⟩ := pullBody_eq_next h
  obtain ⟨hwf, heven⟩ := hI.heldOut hh
  obtain ⟨-, -, hcap, -⟩ := Params.wf_facts hI.params
  have hn : min s.outq.count (2 * n.toNat) % 2 = 0 := by
    obtain ⟨-, -, hcount⟩ := (ringEven_iff _).mp heven
    omega
  have hq : ringWf s.par.oqCap q = true := popN_wf hwf hpop
  exact { hI with
    outStorage := ringWf_storage hq
    heldOut := fun _ => ⟨hq, popN_even hcap heven hn hpop⟩ }

/-- ACC zeroed while the block is up (R183). -/
theorem inv_zeroAcc {s : State} (hI : s.Inv) (hu : s.up = true) : (zeroAcc s).Inv :=
  { hI with
    accDown := fun h => absurd (hu.symm.trans h) (by decide)
    accUp := fun _ => ⟨_, rfl, List.length_replicate⟩ }

/-- TICK's rule (R182): ACC zeroed, each channel mixed, the block pushed or dropped. -/
theorem inv_tickBody {s t : State} (hI : s.Inv) (hu : s.up = true) (h : tickBody s = .next t) : t.Inv := by
  obtain ⟨hh, u, hmix, hpush⟩ := tickBody_eq_next h
  have hstart := inv_zeroAcc (inv_evSchedule hI ((s.ctl.audioInterval : Int) - s.sig.lateIn) s.ctl.evAudio) hu
  obtain ⟨huI, huh⟩ := mixChannels_induct (P := fun v => v.Inv ∧ v.held = true) hmix ⟨hstart, hh⟩
    fun _ _ _ _ hv hm => inv_mixChannel hv.1 hv.2 hm
  have huu : u.up = true := by rw [(mixChannels_eq_next hmix).1]; exact hu
  exact inv_pushBlock huI huh huu hpush

/-- An answer keeps the invariant of the state it is given in. -/
theorem inv_respond {st : Status} {v : U32} {s t : State} (h : respond st v s = .next t) (hI : s.Inv) : t.Inv := by
  rw [respond_eq_next h]; exact inv_answer hI _ _ _

/-- A register write (R140) that puts legal gains or the old ones. -/
theorem inv_respond_setCh {c : Nat} {k : Channel} {s t : State} (h : respond .ok 0#32 (setCh s c k) = .next t)
    (hI : s.Inv) (hq : k.queue = (getCh s c).queue)
    (hl : k.leftVolume.toNat ≤ 65536 ∨ k.leftVolume = (getCh s c).leftVolume)
    (hr : k.rightVolume.toNat ≤ 65536 ∨ k.rightVolume = (getCh s c).rightVolume) : t.Inv :=
  inv_respond h (inv_setCh_registers hI hq hl hr)

/-- Every command's own rule keeps the invariant, where the checks let it run. -/
theorem inv_bodyOf {i : Instr} {s t : State} (hI : s.Inv) (ha : Accepted i s)
    (hup : acceptedDown i = true ∨ s.up = true) (h : bodyOf i s = .next t) : t.Inv := by
  obtain ⟨-, hwf, -⟩ := ha
  cases i with
  | init p =>
    obtain ⟨v, hv⟩ := profileOf_isSome hwf
    simp only [bodyOf, hv] at h
    exact inv_initBody hI h
  | shutdown =>
    simp only [bodyOf] at h
    exact inv_respond (needHeld_eq_next h).2 (inv_shutdown (inv_channelClear_all hI))
  | clkchg       => exact inv_respond h (inv_deriveIntervals hI)
  | setfreq f    => exact inv_respond h (inv_withOutfreq hI f)
  | save =>
    simp only [bodyOf] at h
    exact inv_respond (needHeld_eq_next h).2 (inv_snapOut hI _)
  | load         => exact inv_loadBody hI h
  | rdstat       => exact inv_respond h hI
  | setrsv ch v  => exact inv_respond_setCh h hI rfl (.inr rfl) (.inr rfl)
  | setfmt ch f  => exact inv_respond_setCh h hI rfl (.inr rfl) (.inr rfl)
  | setaddr ch a => exact inv_respond_setCh h hI rfl (.inr rfl) (.inr rfl)
  | setcnt ch n  => exact inv_respond_setCh h hI rfl (.inr rfl) (.inr rfl)
  | setvoll ch g => exact inv_respond_setCh h hI rfl (.inl (of_decide_eq_true hwf)) (.inr rfl)
  | setvolr ch g => exact inv_respond_setCh h hI rfl (.inr rfl) (.inl (of_decide_eq_true hwf))
  | enq ch b =>
    obtain ⟨hh, h⟩ := needHeld_eq_next h
    exact inv_enqBody hI hh h
  | chclr ch =>
    simp only [bodyOf] at h
    exact inv_respond (needHeld_eq_next h).2 (inv_channelClear hI _)
  | tick         => exact inv_tickBody hI (hup.resolve_left (by decide)) h
  | hostpoll     => exact inv_respond h (inv_addCall (inv_evSchedule hI _ _) _)
  | pull n =>
    simp only [bodyOf] at h
    split at h
    · cases h
    · obtain ⟨hh, h⟩ := needHeld_eq_next h
      exact inv_pullBody hI hh h

/-- Every command keeps the invariant, turned away or not. -/
theorem inv_exec {i : Instr} {s t : State} (hI : s.Inv) (h : exec i s = .next t) : t.Inv := by
  rcases exec_eq_next h with ⟨st, rfl, -⟩ | ⟨ha, hup, hb⟩
  · exact inv_answer hI _ _ _
  · exact inv_bodyOf hI ha hup hb

/-- The stimuli still to come are no part of the invariant. -/
theorem inv_queue {s : State} (hI : s.Inv) (rest : List Stimulus) : ({ s with queue := rest } : State).Inv :=
  { hI with }

/-- Settles O58, over what a step can do: the environment's move, the presentation, the command. -/
theorem stepKeepsInvariant : Obligations.StepKeepsInvariant := by
  intro s t hI h
  rcases step_eq_next h with rfl | ⟨m, rest, u, -, rfl, ht⟩
  · exact hI
  have hu := inv_environmentMove (inv_queue hI rest) m
  rcases ht with rfl | ⟨p, -, ⟨i, -, hx⟩ | rfl⟩
  · exact hu
  · exact inv_exec (inv_present hu p) hx
  · exact inv_answer (inv_present hu p) _ _ _

/-! ## Power-on -/

/-- Right after power-on (R38): what the invariant asks of an up block or of held values is void, and the
collaborators hold nothing. -/
theorem inv_powerOnWith {P : Params} (h : P.wf = true) : (State.powerOnWith P).Inv where
  params := h
  channels := List.length_replicate
  storage k hk := by rw [List.eq_of_mem_replicate hk]; exact List.length_replicate
  outStorage := List.length_replicate
  heldChannel h := by cases h
  heldOut h := by cases h
  accDown _ := rfl
  accUp h := by cases h
  profile h := by cases h
  intervals h := by cases h
  events h := by cases h
  memory := Memory.wf_nil
  waits := .nil
  delivered := .nil
  registered := .nil
  callbacks := .nil

/-- Settles O59. -/
theorem powerOnMeetsInvariant : Obligations.PowerOnMeetsInvariant :=
  ⟨fun _ h => ⟨inv_powerOnWith h, rfl, rfl, rfl⟩, inv_powerOnWith (by decide)⟩

end Sys2Proof.Machine
end

section
/-! Proofs of the frame rules of spec/10_state.md: which command changes OUT_OVF (R29), OUTQ (R27), the profile
registers (R31, R32) and `up` (R30). One case split over the commands says it for all of them. -/

namespace Sys2Proof.Machine

open Sys2Proof

/-- The profile registers (R31, R32), everything of the control registers but the clock, the intervals, OUTFREQ and the
event ids. -/
def SameProfile (c c' : Control) : Prop :=
  c' = { c with cps := c'.cps, audioInterval := c'.audioInterval, hostInterval := c'.hostInterval,
                outfreq := c'.outfreq, evAudio := c'.evAudio, evHost := c'.evHost }

/-- What a command that neither brings the block up nor takes it down leaves of the lifecycle flag, the profile
registers, OUT_OVF and OUTQ (R27, R29 to R32). -/
structure KeepsBlock (i : Instr) (s t : State) : Prop where
  up        : t.up = s.up
  profile   : SameProfile s.ctl t.ctl
  sticky    : s.outOvf = true → t.outOvf = true
  overflow  : i ≠ .tick → t.outOvf = s.outOvf
  produced  : i ≠ .load → i ≠ .tick → t.outq.storage = s.outq.storage ∧ t.outq.tail = s.outq.tail
  consumed  : i ≠ .load → (∀ n, i ≠ .pull n) → t.outq.head = s.outq.head
  untouched : i ≠ .load → i ≠ .tick → (∀ n, i ≠ .pull n) → t.outq = s.outq

/-- A command that changes none of them. -/
theorem KeepsBlock.of_same {i : Instr} {s t : State} (hup : t.up = s.up)
    (hprofile : SameProfile s.ctl t.ctl) (hovf : t.outOvf = s.outOvf) (hout : t.outq = s.outq) :
    KeepsBlock i s t where
  up := hup
  profile := hprofile
  sticky h := hovf.trans h
  overflow _ := hovf
  produced _ _ := by rw [hout]; exact ⟨rfl, rfl⟩
  consumed _ _ := by rw [hout]
  untouched _ _ _ := hout

/-- A command that answers in a state `u` where none of them changed. -/
theorem KeepsBlock.of_respond {i : Instr} {st : Status} {v : U32} {s u t : State} (h : respond st v u = .next t)
    (hup : u.up = s.up) (hprofile : SameProfile s.ctl u.ctl) (hovf : u.outOvf = s.outOvf) (hout : u.outq = s.outq) :
    KeepsBlock i s t := by
  rw [respond_eq_next h]; exact .of_same hup hprofile hovf hout

/-- TICK touches OUTQ at its tail and OUT_OVF upward (R186). -/
theorem tickBody_keepsBlock {s t : State} (h : tickBody s = .next t) : KeepsBlock .tick s t := by
  obtain ⟨ht, hhead, hovf, -⟩ := tickBody_frame h
  exact {
    up := by rw [ht]
    profile := by rw [ht]; rfl
    sticky := hovf
    overflow := fun hne => absurd rfl hne
    produced := fun _ hne => absurd rfl hne
    consumed := fun _ _ => hhead
    untouched := fun _ hne => absurd rfl hne }

/-- PULL touches OUTQ at its head (R123, R201). -/
theorem pullBody_keepsBlock {n : U32} {s t : State} (h : pullBody n s = .next t) : KeepsBlock (.pull n) s t := by
  obtain ⟨vs, q, v, hpop, rfl⟩ := pullBody_eq_next h
  obtain ⟨-, -, hq⟩ := popN_cursors hpop
  have htail : q.tail = s.outq.tail := by rw [hq]
  exact {
    up := rfl
    profile := rfl
    sticky := id
    overflow := fun _ => rfl
    produced := fun _ _ => ⟨popN_storage hpop, htail⟩
    consumed := fun _ hne => absurd rfl (hne n)
    untouched := fun _ _ hne => absurd rfl (hne n) }

/-- LOAD replaces OUTQ, by what it restores or by what is unspecified, and nothing else of these (R218, R219). -/
theorem loadBody_keepsBlock {s t : State} (h : loadBody s = .next t) : KeepsBlock .load s t := by
  have main : t.up = s.up ∧ SameProfile s.ctl t.ctl ∧ t.outOvf = s.outOvf := by
    rcases loadBody_cases s with ⟨-, e⟩ | ⟨-, -, e⟩ | ⟨-, -, e⟩ <;> rw [e] at h <;> cases h
    · exact ⟨rfl, rfl, rfl⟩
    · exact ⟨rfl, rfl, rfl⟩
  obtain ⟨hup, hprofile, hovf⟩ := main
  exact {
    up := hup
    profile := hprofile
    sticky := fun h => hovf.trans h
    overflow := fun _ => hovf
    produced := fun hne => absurd rfl hne
    consumed := fun hne => absurd rfl hne
    untouched := fun hne => absurd rfl hne }

/-- Every command's own rule but INIT's and SHUTDOWN's. -/
theorem bodyOf_keepsBlock {i : Instr} {s t : State} (h : bodyOf i s = .next t) (hinit : ∀ p, i ≠ .init p)
    (hshut : i ≠ .shutdown) : KeepsBlock i s t := by
  cases i with
  | init p       => exact absurd rfl (hinit p)
  | shutdown     => exact absurd rfl hshut
  | clkchg       => exact .of_respond h rfl rfl rfl rfl
  | setfreq f    => exact .of_respond h rfl rfl rfl rfl
  | save =>
    simp only [bodyOf] at h
    exact .of_respond (needHeld_eq_next h).2 rfl rfl rfl rfl
  | load         => exact loadBody_keepsBlock h
  | rdstat       => exact .of_respond h rfl rfl rfl rfl
  | setrsv ch v  => exact .of_respond h rfl rfl rfl rfl
  | setfmt ch f  => exact .of_respond h rfl rfl rfl rfl
  | setaddr ch a => exact .of_respond h rfl rfl rfl rfl
  | setcnt ch n  => exact .of_respond h rfl rfl rfl rfl
  | setvoll ch g => exact .of_respond h rfl rfl rfl rfl
  | setvolr ch g => exact .of_respond h rfl rfl rfl rfl
  | enq ch b =>
    obtain ⟨ht, -⟩ := enqBody_eq_next (needHeld_eq_next h).2
    rw [ht]
    exact .of_same rfl rfl rfl rfl
  | chclr ch =>
    simp only [bodyOf] at h
    exact .of_respond (needHeld_eq_next h).2 rfl rfl rfl rfl
  | tick         => exact tickBody_keepsBlock h
  | hostpoll     => exact .of_respond h rfl rfl rfl rfl
  | pull n =>
    simp only [bodyOf] at h
    split at h
    · cases h
    · exact pullBody_keepsBlock (needHeld_eq_next h).2

/-- Every command but INIT and SHUTDOWN, turned away or not. -/
theorem exec_keepsBlock {i : Instr} {s t : State} (h : exec i s = .next t) (hinit : ∀ p, i ≠ .init p)
    (hshut : i ≠ .shutdown) : KeepsBlock i s t := by
  rcases exec_eq_next h with ⟨st, rfl, -⟩ | ⟨-, -, hb⟩
  · exact .of_same rfl rfl rfl rfl
  · exact bodyOf_keepsBlock hb hinit hshut

/-- Settles O53. -/
theorem overflowFlagIsSticky : Obligations.OverflowFlagIsSticky := by
  intro i s t h hinit hshut
  have hk := exec_keepsBlock h hinit hshut
  exact ⟨hk.sticky, hk.overflow⟩

/-- Settles O54. -/
theorem outputRingHasOneProducerOneConsumer : Obligations.OutputRingHasOneProducerOneConsumer := by
  intro i s t h hinit hshut hload
  have hk := exec_keepsBlock h hinit hshut
  exact ⟨hk.produced hload, hk.consumed hload, hk.untouched hload⟩

/-- Settles O55. -/
theorem onlyInitSelectsProfile : Obligations.OnlyInitSelectsProfile := by
  intro i s t h hinit hshut
  have hk := exec_keepsBlock h hinit hshut
  rw [hk.profile]
  exact ⟨rfl, rfl, rfl, rfl, rfl, hk.up⟩

end Sys2Proof.Machine
end

section
/-! Proof that OUTFREQ influences nothing (spec/10_state.md R34): every rule but SETFREQ's and SHUTDOWN's commutes with
replacing OUTFREQ, operation by operation; the two that replace it forget the old value. The proofs bring a rule's
tests on both sides to the same terms with `rw`, which also rewrites their decision procedures, and then split them. -/

namespace Sys2Proof.Machine

open Sys2Proof

/-! ## Replacing OUTFREQ, field by field -/

@[simp] theorem withOutfreq_par (f : U32) (s : State) : (withOutfreq f s).par = s.par := rfl
@[simp] theorem withOutfreq_up (f : U32) (s : State) : (withOutfreq f s).up = s.up := rfl
@[simp] theorem withOutfreq_outq (f : U32) (s : State) : (withOutfreq f s).outq = s.outq := rfl
@[simp] theorem withOutfreq_mem (f : U32) (s : State) : (withOutfreq f s).mem = s.mem := rfl
@[simp] theorem withOutfreq_sig (f : U32) (s : State) : (withOutfreq f s).sig = s.sig := rfl
@[simp] theorem withOutfreq_hbs (f : U32) (s : State) : (withOutfreq f s).ctl.hbs = s.ctl.hbs := rfl
@[simp] theorem getCh_withOutfreq (f : U32) (s : State) (c : Nat) : getCh (withOutfreq f s) c = getCh s c := rfl
@[simp] theorem mixBlock_withOutfreq (f : U32) (s : State) : mixBlock (withOutfreq f s) = mixBlock s := rfl
@[simp] theorem legal_withOutfreq (i : Instr) (f : U32) (s : State) : legal i (withOutfreq f s) = legal i s := rfl

theorem wakeThreads_withOutfreq (c : Nat) (r : U32) (st : WakeStep) (f : U32) (s : State) :
    wakeThreads c r st (withOutfreq f s) = withOutfreq f (wakeThreads c r st s) := rfl

theorem initEvents_withOutfreq (p : Profile) (f : U32) (s : State) :
    initEvents p (withOutfreq f s) = withOutfreq f (initEvents p s) := rfl

/-! ## Rules that ignore it -/

/-- Change the next state of an outcome, if there is one. -/
def mapNext (g : State → State) : Out → Out
  | .next s    => .next (g s)
  | .fault r   => .fault r
  | .refused r => .refused r

/-- A rule that answers alike whatever OUTFREQ holds, and passes it on. -/
def IgnoresOutfreq (body : State → Out) : Prop :=
  ∀ (f : U32) (s : State), body (withOutfreq f s) = mapNext (withOutfreq f) (body s)

/-! ## Sequencing and checks -/

theorem andThen_mapNext {F : State → Out} (hF : IgnoresOutfreq F) (f : U32) (o : Out) :
    andThen (mapNext (withOutfreq f) o) F = mapNext (withOutfreq f) (andThen o F) := by
  cases o with
  | next s => exact hF f s
  | fault r => rfl
  | refused r => rfl

theorem IgnoresOutfreq.needHeld {body : State → Out} (h : IgnoresOutfreq body) : IgnoresOutfreq (needHeld body) := by
  intro f s
  cases hh : s.held with
  | false => rw [needHeld_of_unspec body hh, needHeld_of_unspec (s := withOutfreq f s) body hh]; rfl
  | true => rw [needHeld_of_held body hh, needHeld_of_held (s := withOutfreq f s) body hh]; exact h f s

/-- The checks look at the presentation, the parameters and `up` (R97 to R99). -/
theorem IgnoresOutfreq.checked {body : State → Out} (h : IgnoresOutfreq body) (i : Instr) :
    IgnoresOutfreq (checked i body) := by
  intro f s
  simp only [Machine.checked]
  rw [legal_withOutfreq, withOutfreq_up]
  split
  · rfl
  · split
    · rfl
    · exact h f s

/-- Channel by channel, an update that commutes with replacing OUTFREQ. -/
theorem forChannels_withOutfreq {F : Nat → State → State} (f : U32)
    (hF : ∀ c s, F c (withOutfreq f s) = withOutfreq f (F c s)) (s : State) :
    forChannels F (withOutfreq f s) = withOutfreq f (forChannels F s) :=
  List.foldl_hom (withOutfreq f) fun t c => hF c t

theorem channelClear_all_withOutfreq (f : U32) (s : State) :
    forChannels channelClear (withOutfreq f s) = withOutfreq f (forChannels channelClear s) :=
  forChannels_withOutfreq (F := channelClear) f (fun _ _ => rfl) s

theorem channelReset_all_withOutfreq (f : U32) (s : State) :
    forChannels channelReset (withOutfreq f s) = withOutfreq f (forChannels channelReset s) :=
  forChannels_withOutfreq (F := channelReset) f (fun _ _ => rfl) s

/-! ## ENQ -/

theorem enqData_ignoresOutfreq (c : Nat) (ret : U32) (parked : Bool) : IgnoresOutfreq (enqData c ret parked) := by
  intro f s
  simp only [enqData]
  rw [getCh_withOutfreq, withOutfreq_par, withOutfreq_mem]
  split
  · rfl
  split
  · rfl
  split
  · rfl
  split
  · rfl
  · rfl

theorem enqBody_ignoresOutfreq (c : Nat) (b : Bool) : IgnoresOutfreq (enqBody c b) := by
  intro f s
  simp only [enqBody]
  rw [getCh_withOutfreq, withOutfreq_par, withOutfreq_sig]
  split
  · exact enqData_ignoresOutfreq _ _ _ f s
  split
  · rfl
  split
  · exact enqData_ignoresOutfreq _ _ _ f (park c (blockSamples s.ctl.qminf (getCh s c).queue.count)
      (enqReturn s.par c (getCh s c)) s)
  · exact enqData_ignoresOutfreq _ _ _ f s

/-! ## TICK and PULL -/

theorem mixChannel_ignoresOutfreq (c : Nat) : IgnoresOutfreq (mixChannel c) := by
  intro f s
  simp only [mixChannel]
  rw [getCh_withOutfreq, withOutfreq_hbs, wakeThreads_withOutfreq, getCh_withOutfreq, withOutfreq_par, withOutfreq_hbs]
  split
  · rfl
  split
  · rfl
  split
  · rfl
  · rfl

theorem mixChannels_ignoresOutfreq (cs : List Nat) : IgnoresOutfreq (mixChannels cs) := by
  induction cs with
  | nil => exact fun _ _ => rfl
  | cons c cs ih =>
    intro f s
    simp only [mixChannels, mixChannel_ignoresOutfreq c f s]
    exact andThen_mapNext ih f _

theorem pushBlock_ignoresOutfreq : IgnoresOutfreq pushBlock := by
  intro f s
  simp only [pushBlock]
  rw [withOutfreq_par, withOutfreq_hbs, withOutfreq_outq, mixBlock_withOutfreq]
  split
  · split
    · rfl
    · rfl
  · rfl

theorem tickBody_ignoresOutfreq : IgnoresOutfreq tickBody := by
  have h : IgnoresOutfreq fun s => andThen (mixChannels (List.range s.par.nch) s) pushBlock := by
    intro f s
    show andThen (mixChannels (List.range s.par.nch) (withOutfreq f s)) pushBlock = _
    rw [mixChannels_ignoresOutfreq _ f s]
    exact andThen_mapNext pushBlock_ignoresOutfreq f _
  intro f s
  exact h.needHeld f (zeroAcc (evSchedule ((s.ctl.audioInterval : Int) - s.sig.lateIn) s.ctl.evAudio s))

theorem pullBody_ignoresOutfreq (n : U32) : IgnoresOutfreq (pullBody n) := by
  intro f s
  simp only [pullBody]
  rw [withOutfreq_par, withOutfreq_outq]
  split
  · rfl
  · rfl

/-! ## Lifecycle -/

theorem initBody_ignoresOutfreq (p : Profile) : IgnoresOutfreq (initBody p) := by
  have h : IgnoresOutfreq fun s => initFinish (forChannels channelClear s) := fun f s => by
    simp only [channelClear_all_withOutfreq]; rfl
  intro f s
  simp only [initBody]
  rw [initEvents_withOutfreq, withOutfreq_up]
  split
  · exact h.needHeld f (initEvents p s)
  · rw [channelReset_all_withOutfreq]; rfl

theorem loadBody_ignoresOutfreq : IgnoresOutfreq loadBody := by
  intro f s
  simp only [loadBody]
  rw [withOutfreq_par, withOutfreq_sig]
  split
  · rfl
  split
  · rfl
  · rfl

/-! ## Every command -/

theorem bodyOf_ignoresOutfreq {i : Instr} (hfreq : ∀ g, i ≠ .setfreq g) (hshut : i ≠ .shutdown) :
    IgnoresOutfreq (bodyOf i) := by
  cases i with
  | init p =>
    intro f s
    simp only [bodyOf]
    split
    · rfl
    · exact initBody_ignoresOutfreq _ f s
  | shutdown     => exact absurd rfl hshut
  | setfreq g    => exact absurd rfl (hfreq g)
  | save         => exact IgnoresOutfreq.needHeld fun _ _ => rfl
  | load         => exact loadBody_ignoresOutfreq
  | enq ch b     => exact (enqBody_ignoresOutfreq ch.toNat b).needHeld
  | chclr ch     => exact IgnoresOutfreq.needHeld fun _ _ => rfl
  | tick         => exact tickBody_ignoresOutfreq
  | pull n =>
    intro f s
    simp only [bodyOf]
    rw [withOutfreq_sig]
    split
    · rfl
    · exact (pullBody_ignoresOutfreq n).needHeld f s
  | clkchg       => exact fun _ _ => rfl
  | rdstat       => exact fun _ _ => rfl
  | setrsv ch v  => exact fun _ _ => rfl
  | setfmt ch v  => exact fun _ _ => rfl
  | setaddr ch a => exact fun _ _ => rfl
  | setcnt ch n  => exact fun _ _ => rfl
  | setvoll ch g => exact fun _ _ => rfl
  | setvolr ch g => exact fun _ _ => rfl
  | hostpoll     => exact fun _ _ => rfl

theorem exec_ignoresOutfreq {i : Instr} (hfreq : ∀ g, i ≠ .setfreq g) (hshut : i ≠ .shutdown) :
    IgnoresOutfreq (exec i) := by
  intro f s
  rw [exec_eq_checked, exec_eq_checked]
  exact (bodyOf_ignoresOutfreq hfreq hshut).checked i f s

/-- SHUTDOWN forgets the control registers whole (R212): the free values depend on the counter alone (log 4). -/
theorem bodyOf_shutdown_withOutfreq (f : U32) (s : State) :
    bodyOf .shutdown (withOutfreq f s) = bodyOf .shutdown s := by
  simp only [bodyOf]
  cases hh : s.held with
  | false => rw [needHeld_of_unspec _ hh, needHeld_of_unspec (s := withOutfreq f s) _ hh]; rfl
  | true =>
    rw [needHeld_of_held _ hh, needHeld_of_held (s := withOutfreq f s) _ hh, channelClear_all_withOutfreq]; rfl

/-- Settles O44. -/
theorem outfreqIsReadByNoCommand : Obligations.OutfreqIsReadByNoCommand := by
  intro i s f
  refine ⟨fun hfreq hshut => ?_, fun hr hi => ?_⟩
  · have h := exec_ignoresOutfreq hfreq hshut f s
    exact ⟨fun t ht => by rw [h, ht]; rfl, fun r ht => by rw [h, ht]; rfl⟩
  · have hr' : Ready i (withOutfreq f s) := hr
    rw [exec_of_ready hr, exec_of_ready hr']
    rcases hi with ⟨g, rfl⟩ | rfl
    · rfl
    · exact bodyOf_shutdown_withOutfreq f s

end Sys2Proof.Machine
end

section
/-! Proofs of the obligations of spec/20_memory.md: the memory read of ENQ stops at the first address that is not
admitted (R66), no command writes guest memory (R60), and PULL does not run beside a lifecycle command (R76). -/

namespace Sys2Proof.Machine

open Sys2Proof

/-! ## The first address that is not admitted -/

/-- Byte `j` is the first of the range an ENQ on channel `k` reads that the memory does not admit (R61, R65, R66). -/
structure FirstUnadmitted (m : Memory) (k : Channel) (j : Nat) : Prop where
  inRange : j < bytesRead k
  before  : admitted m k.sampleAddress j
  absent  : byteAt m (k.sampleAddress + BitVec.ofNat 32 j) = none

/-- The range and the bytes in it depend on the registers of the channel alone. -/
theorem FirstUnadmitted.of_sameRegisters {m : Memory} {k k' : Channel} {j : Nat} (h : FirstUnadmitted m k j)
    (hk : SameRegisters k k') : FirstUnadmitted m k' j := by
  rw [hk]
  exact ⟨h.inRange, h.before, h.absent⟩

/-- A range has only one first unadmitted byte, so the failing read names it. -/
theorem FirstUnadmitted.scaledSamples_eq {m : Memory} {k : Channel} {j : Nat} (h : FirstUnadmitted m k j) :
    scaledSamples m k = .error (k.sampleAddress + BitVec.ofNat 32 j) := by
  cases hs : scaledSamples m k with
  | ok vs =>
    obtain ⟨hall, -⟩ := scaledSamples_ok hs
    exact absurd h.absent (hall j h.inRange)
  | error e =>
    obtain ⟨he, i, -, rfl, hbefore⟩ := scaledSamples_error hs
    rcases Nat.lt_trichotomy i j with hij | rfl | hji
    · exact absurd he (h.before i hij)
    · rfl
    · exact absurd h.absent (hbefore j hji)

/-- With room, the end of ENQ is Fault(MEM) at that byte (R66, R247). -/
theorem enqData_of_firstUnadmitted {c j : Nat} {s : State} (ret : U32) (parked : Bool)
    (ha : (getCh s c).sampleAddress ≠ 0#32)
    (hroom : 2 * (getCh s c).sampleCount.toNat ≤ s.par.cqCap - (getCh s c).queue.count)
    (h : FirstUnadmitted s.mem (getCh s c) j) :
    enqData c ret parked s = .fault (.mem ((getCh s c).sampleAddress + BitVec.ofNat 32 j) s.calls) := by
  have hs := h.scaledSamples_eq
  rcases enqData_cases c ret parked s with ⟨h0, -⟩ | ⟨-, hfull, -⟩ | ⟨-, -, e, he, hf⟩ | ⟨-, -, q, hok, -⟩
  · exact absurd h0 ha
  · omega
  · rw [hs] at he; cases he; exact hf
  · rw [hs] at hok; cases hok

/-- The same after the park, which leaves the channel's registers and queue as they were and adds its call (R164). -/
theorem enqData_park_of_firstUnadmitted {c j : Nat} {s : State} (remaining : Int) (payload ret : U32) (parked : Bool)
    (hc : c < s.chs.length) (ha : (getCh s c).sampleAddress ≠ 0#32)
    (hroom : 2 * (getCh s c).sampleCount.toNat ≤ s.par.cqCap - (getCh s c).queue.count)
    (h : FirstUnadmitted s.mem (getCh s c) j) :
    enqData c ret parked (park c remaining payload s)
      = .fault (.mem ((getCh s c).sampleAddress + BitVec.ofNat 32 j)
          (s.calls ++ [.park s.sig.currentThread s.par.waitAudio (c + 1) payload false])) := by
  have hk : getCh (park c remaining payload s) c = { getCh s c with
      waiting := (getCh s c).waiting ++ [{ thread := s.sig.currentThread, remaining := remaining }] } := by
    rw [getCh_park, if_pos ⟨rfl, hc⟩]
  have hf := enqData_of_firstUnadmitted (s := park c remaining payload s) ret parked
    (by rw [hk]; exact ha) (by rw [hk]; exact hroom)
    (by rw [hk]; exact h.of_sameRegisters rfl)
  rw [hf, hk, park_calls]

/-- An ENQ with samples to copy starts with the sample count (R162). -/
theorem enqReturn_of_samples {P : Params} {c : Nat} {k : Channel} (h : k.sampleAddress ≠ 0#32) :
    enqReturn P c k = k.sampleCount := by
  rw [enqReturn, if_neg fun h' => h h'.1]

/-! ## The ways ENQ reaches its data path (R161, R164) -/

theorem enqBody_of_empty {c : Nat} {b : Bool} {s : State} (h : (getCh s c).queue.count = 0) :
    enqBody c b s = enqData c (enqReturn s.par c (getCh s c)) false s := by
  simp [enqBody, h]

theorem enqBody_of_dispatchDisabled {c : Nat} {s : State} (hn : 0 < (getCh s c).queue.count)
    (hd : s.sig.dispatchEnabled = false) : enqBody c true s = enqData c s.par.errCannotWait false s := by
  simp [enqBody, hn.ne', hd]

theorem enqBody_of_dispatchEnabled {c : Nat} {s : State} (hn : 0 < (getCh s c).queue.count)
    (hd : s.sig.dispatchEnabled = true) :
    enqBody c true s = enqData c (enqReturn s.par c (getCh s c)) true
      (park c (blockSamples s.ctl.qminf (getCh s c).queue.count) (enqReturn s.par c (getCh s c)) s) := by
  simp [enqBody, hn.ne', hd]

/-- Settles O29: whichever way ENQ reaches its data path, the read stops at the first unadmitted byte. -/
theorem enqOnUnadmittedAddressFaults : Obligations.EnqOnUnadmittedAddressFaults := by
  intro s ch b j hr hh c k a hc ha hroom hj hbefore habsent
  have hfirst : FirstUnadmitted s.mem (getCh s ch.toNat) j := ⟨hj, hbefore, habsent⟩
  have hexec : exec (.enq ch b) s = enqBody ch.toNat b s :=
    (exec_of_ready hr).trans (needHeld_of_held _ hh)
  rw [hexec]
  refine ⟨fun h0 => ?_, fun hn hb hd => ?_, fun hn hb hd => ?_⟩
  · rw [enqBody_of_empty h0]
    exact enqData_of_firstUnadmitted _ _ ha hroom hfirst
  · rw [hb, enqBody_of_dispatchDisabled hn hd]
    exact enqData_of_firstUnadmitted _ _ ha hroom hfirst
  · rw [hb, enqBody_of_dispatchEnabled hn hd, enqReturn_of_samples ha]
    exact enqData_park_of_firstUnadmitted _ _ _ _ hc ha hroom hfirst

/-! ## What no command writes -/

/-- What every command leaves alone: the parameters (R6), guest memory (R60) and the stimuli still to come. -/
def State.unwritten (s : State) : Params × Memory × List Stimulus := (s.par, s.mem, s.queue)

/-- A command that answers in a state `u` that agrees with `s` on them. -/
theorem unwritten_of_respond {st : Status} {v : U32} {s u t : State} (h : respond st v u = .next t)
    (hu : u.unwritten = s.unwritten) : t.unwritten = s.unwritten := by
  rw [respond_eq_next h]; exact hu

theorem loadBody_unwritten {s t : State} (h : loadBody s = .next t) : t.unwritten = s.unwritten := by
  rcases loadBody_cases s with ⟨-, e⟩ | ⟨-, -, e⟩ | ⟨-, -, e⟩ <;> rw [e] at h <;> cases h
  · rfl
  · rfl

/-- Every command's own rule. -/
theorem bodyOf_unwritten {i : Instr} {s t : State} (h : bodyOf i s = .next t) : t.unwritten = s.unwritten := by
  cases i with
  | init p =>
    simp only [bodyOf] at h
    split at h
    · exact unwritten_of_respond h rfl
    · rw [initBody_frame h]; rfl
  | shutdown =>
    simp only [bodyOf] at h
    exact unwritten_of_respond (needHeld_eq_next h).2
      (forChannels_frame (f := channelClear) State.unwritten (fun _ _ => rfl) s)
  | clkchg       => exact unwritten_of_respond h rfl
  | setfreq f    => exact unwritten_of_respond h rfl
  | save =>
    simp only [bodyOf] at h
    exact unwritten_of_respond (needHeld_eq_next h).2 rfl
  | load         => exact loadBody_unwritten h
  | rdstat       => exact unwritten_of_respond h rfl
  | setrsv ch v  => exact unwritten_of_respond h rfl
  | setfmt ch f  => exact unwritten_of_respond h rfl
  | setaddr ch a => exact unwritten_of_respond h rfl
  | setcnt ch n  => exact unwritten_of_respond h rfl
  | setvoll ch g => exact unwritten_of_respond h rfl
  | setvolr ch g => exact unwritten_of_respond h rfl
  | enq ch b =>
    obtain ⟨ht, -⟩ := enqBody_eq_next (needHeld_eq_next h).2
    rw [ht]; rfl
  | chclr ch =>
    simp only [bodyOf] at h
    exact unwritten_of_respond (needHeld_eq_next h).2 rfl
  | tick =>
    obtain ⟨ht, -⟩ := tickBody_frame h
    rw [ht]; rfl
  | hostpoll     => exact unwritten_of_respond h rfl
  | pull n =>
    simp only [bodyOf] at h
    split at h
    · cases h
    · obtain ⟨vs, q, v, -, rfl⟩ := pullBody_eq_next (needHeld_eq_next h).2
      rfl

/-- Every command, turned away or not. -/
theorem exec_unwritten {i : Instr} {s t : State} (h : exec i s = .next t) : t.unwritten = s.unwritten := by
  rcases exec_eq_next h with ⟨st, rfl, -⟩ | ⟨-, -, hb⟩
  · rfl
  · exact bodyOf_unwritten hb

/-- Settles O52. -/
theorem noCommandWritesGuestMemory : Obligations.NoCommandWritesGuestMemory := by
  intro i s t h
  obtain ⟨hpar, hmem, hqueue⟩ : t.par = s.par ∧ t.mem = s.mem ∧ t.queue = s.queue := by
    simpa [State.unwritten] using exec_unwritten h
  exact ⟨hpar, hqueue, fun a => by rw [hmem]⟩

/-! ## PULL beside a lifecycle command -/

/-- Settles O38: the race is the first thing PULL's own rule looks at (R76, log 8). -/
theorem pullDuringLifecycleFaults : Obligations.PullDuringLifecycleFaults := by
  intro s n l hr hl
  have hrace : s.sig.during.isSome = true := by rw [hl]; rfl
  rw [exec_of_ready hr, bodyOf, if_pos hrace]

end Sys2Proof.Machine
end

section
/-! Proofs of the obligations of spec/30_encoding.md on the command word: the decoder reads what the encoder writes and
nothing else (R90, R91, R94), so the words that decode to an operation are the encoder's words of it, and those are the
words of its match and mask (R101). -/

namespace Sys2Proof.Machine

open Sys2Proof

/-! ## What the encoder writes, the decoder reads -/

theorem plain_of_zero {f : Fields} (i : Instr) (hb : f.b = 0#1) (hc : f.ch = 0#8) : plain f i = .ok i := by
  simp [plain, hb, hc]

theorem plainNoOperand_of_zero {f : Fields} (i : Instr) (hi : f.imm = 0#32) (hb : f.b = 0#1) (hc : f.ch = 0#8) :
    plainNoOperand f i = .ok i := by
  simp [plainNoOperand, hi, plain_of_zero i hb hc]

theorem channelOp_of_zero {f : Fields} (i : Instr) (hb : f.b = 0#1) : channelOp f i = .ok i := by
  simp [channelOp, hb]

theorem bitOperand_of_bit {f : Fields} (i : Instr) (hi : f.imm = 0#32 ∨ f.imm = 1#32) (hb : f.b = 0#1) :
    bitOperand f i = .ok i := by
  have hz : f.imm.extractLsb' 1 31 = 0#31 := by rcases hi with hi | hi <;> rw [hi] <;> rfl
  simp [bitOperand, hz, channelOp_of_zero i hb]

theorem gainOperand_of_zero {f : Fields} (i : Instr) (hi : f.imm.extractLsb' 17 15 = 0#15) (hb : f.b = 0#1) :
    gainOperand f i = .ok i := by
  simp [gainOperand, hi, channelOp_of_zero i hb]

@[simp] theorem extract_setWidth_profile_high (p : BitVec 2) : (p.setWidth 32).extractLsb' 2 30 = 0#30 := by
  ext i hi; simp

@[simp] theorem extract_setWidth_profile_low (p : BitVec 2) : (p.setWidth 32).extractLsb' 0 2 = p := by
  apply BitVec.eq_of_toNat_eq
  have := p.isLt
  simp; omega

/-- R91, R94: the arm of the table that an operation's `OP` selects reads its operands back. -/
theorem decodeFields_encodeFields (i : Instr) : decodeFields (encodeFields i) = .ok i := by
  simp only [decodeFields, encodeFields]
  cases i with
  | init p => simp [opcode, channelOf, blockingBitOf, operandOf, plain_of_zero]
  | shutdown | clkchg | save | load | rdstat | tick | hostpoll =>
    simp [opcode, channelOf, blockingBitOf, operandOf, plainNoOperand_of_zero]
  | setfreq n | pull n => simp [opcode, channelOf, blockingBitOf, operandOf, plain_of_zero]
  | setrsv ch v => cases v <;> simp [opcode, channelOf, blockingBitOf, operandOf, bitOperand_of_bit]
  | setfmt ch f => cases f <;> simp [opcode, channelOf, blockingBitOf, operandOf, formatBit, bitOperand_of_bit]
  | setvoll ch g | setvolr ch g => simp [opcode, channelOf, blockingBitOf, operandOf, gainOperand_of_zero]
  | setaddr ch n | setcnt ch n | chclr ch => simp [opcode, channelOf, blockingBitOf, operandOf, channelOp_of_zero]
  | enq ch b => cases b <;> simp [opcode, channelOf, blockingBitOf, operandOf]

theorem decode_encode (i : Instr) : decode (encode i) = .ok i :=
  (decode_wordOf rfl rfl).trans (decodeFields_encodeFields i)

/-- A command's 64 bits, taken as a number of the opcode table, are the command. -/
theorem tableCommand_toNat (w : Command) : tableCommand 64 w.toNat = some w := by
  simp [tableCommand, Nat.mod_eq_of_lt w.isLt, w.isLt]

/-- Settles O1, by the round trip of each operation's fields. -/
theorem decodeOfEncodeIsIdentity : Obligations.DecodeOfEncodeIsIdentity := by
  intro i
  refine ⟨decode_encode i, ?_⟩
  rw [decodeTableWord, tableCommand_toNat]
  simp [decode_encode, Except.toOption]

/-! ## Only the encoder's word is read -/

theorem encodeFields_of_decode {w : Command} {i : Instr} (h : decode w = .ok i) : encodeFields i = fieldsOf w := by
  obtain ⟨hflags, hrsv, hf⟩ := decode_ok_reserved h
  obtain ⟨hop, hch, hb, himm⟩ := decodeFields_ok hf
  rw [encodeFields, ← hop, ← hch, ← hb, ← himm, ← hflags, ← hrsv]

theorem encode_of_decode {w : Command} {i : Instr} (h : decode w = .ok i) : encode i = w := by
  rw [encode, encodeFields_of_decode h, wordOf_fieldsOf]

/-- Settles O2. -/
theorem encodeOfDecodeIsIdentity : Obligations.EncodeOfDecodeIsIdentity := fun _ _ h => encode_of_decode h

/-! ## The match and mask of an operation -/

/-- How many bits of `IMM` the operand of an operation takes; those above must be zero (R94). -/
def operandWidth : Instr → Nat
  | .init _ => 2
  | .setrsv _ _ | .setfmt _ _ => 1
  | .setvoll _ _ | .setvolr _ _ => 17
  | .setfreq _ | .setaddr _ _ | .setcnt _ _ | .pull _ => 32
  | .shutdown | .clkchg | .save | .load | .rdstat | .enq _ _ | .chclr _ | .tick | .hostpoll => 0

/-- The bits of `CH` that must be zero: all of them where the operation has no channel (R90, R97 (c)). -/
def channelMask (i : Instr) : BitVec 8 := if (channelOf i).isSome then 0#8 else BitVec.allOnes 8

/-- `B` must be zero but on ENQ (R93). -/
def blockingMask : Instr → BitVec 1
  | .enq _ _ => 0#1
  | _        => BitVec.allOnes 1

/-- The fields of an operation's mask (R101). -/
def maskFields (i : Instr) : Fields where
  op    := BitVec.allOnes 8
  ch    := channelMask i
  flags := BitVec.allOnes 7
  b     := blockingMask i
  rsv   := BitVec.allOnes 8
  imm   := BitVec.allOnes 32 <<< operandWidth i

/-- The fields of an operation's match (R101). -/
def matchFields (i : Instr) : Fields where
  op    := opcode i
  ch    := 0#8
  flags := 0#7
  b     := 0#1
  rsv   := 0#8
  imm   := 0#32

/-- The row of R101's table for an operation. -/
def operationRow (i : Instr) : String × Command × Command :=
  (mnemonicOf i, wordOf (matchFields i), wordOf (maskFields i))

/-- One command of each operation, its operands zero, in the order of R101's table. -/
def operations : List Instr :=
  [.init 0#2, .shutdown, .clkchg, .setfreq 0#32, .save, .load, .rdstat, .setrsv 0#8 false, .setfmt 0#8 .stereo,
   .setaddr 0#8 0#32, .setcnt 0#8 0#32, .setvoll 0#8 0#17, .setvolr 0#8 0#17, .enq 0#8 false, .chclr 0#8, .tick,
   .hostpoll, .pull 0#32]

/-- R101's table is the encoder's: the match and mask the fields of each operation give. -/
theorem matchMaskTable_eq : matchMaskTable = operations.map operationRow := by decide +kernel

/-- A mnemonic stands in one row only. -/
theorem matchMaskTable_row_unique :
    ∀ r ∈ matchMaskTable, ∀ r' ∈ matchMaskTable, r.1 = r'.1 → r = r' := by decide +kernel

/-- The operation of a command with its operands taken from the fields of a word (R92 to R94). -/
def withOperands (f : Fields) : Instr → Instr
  | .init _      => .init (f.imm.setWidth 2)
  | .setfreq _   => .setfreq f.imm
  | .setrsv _ _  => .setrsv f.ch (f.imm == 1#32)
  | .setfmt _ _  => .setfmt f.ch (if f.imm = 1#32 then .mono else .stereo)
  | .setaddr _ _ => .setaddr f.ch f.imm
  | .setcnt _ _  => .setcnt f.ch f.imm
  | .setvoll _ _ => .setvoll f.ch (f.imm.setWidth 17)
  | .setvolr _ _ => .setvolr f.ch (f.imm.setWidth 17)
  | .enq _ _     => .enq f.ch (f.b == 1#1)
  | .chclr _     => .chclr f.ch
  | .pull _      => .pull f.imm
  | .shutdown    => .shutdown
  | .clkchg      => .clkchg
  | .save        => .save
  | .load        => .load
  | .rdstat      => .rdstat
  | .tick        => .tick
  | .hostpoll    => .hostpoll

/-- The row of a command does not depend on its operands. -/
theorem operationRow_withOperands (f : Fields) (i : Instr) : operationRow (withOperands f i) = operationRow i := by
  cases i <;> rfl

theorem withOperands_zero_mem (i : Instr) : withOperands (matchFields i) i ∈ operations := by
  cases i <;> simp [withOperands, matchFields, operations]

theorem operationRow_mem (i : Instr) : operationRow i ∈ matchMaskTable := by
  rw [matchMaskTable_eq, ← operationRow_withOperands (matchFields i) i]
  exact List.mem_map_of_mem (withOperands_zero_mem i)

/-- The bits from `k` up of a word are zero exactly when its value is below `2 ^ k`. -/
theorem and_allOnes_shiftLeft_eq_zero_iff {w k : Nat} (x : BitVec w) :
    x &&& (BitVec.allOnes w <<< k) = 0#w ↔ x.toNat < 2 ^ k := by
  constructor
  · intro h
    refine Nat.lt_pow_two_of_testBit _ fun i hi => ?_
    have hbit : (x &&& (BitVec.allOnes w <<< k)).getLsbD i = false := by rw [h]; exact BitVec.getLsbD_zero
    by_cases hw : i < w
    · change x.getLsbD i = false
      simpa [hw, Nat.not_lt.mpr hi, Nat.sub_lt_of_lt hw, -BitVec.getLsbD_eq_getElem] using hbit
    · exact BitVec.getLsbD_of_ge x i (by omega)
  · intro h
    refine BitVec.eq_of_getLsbD_eq fun i hi => ?_
    by_cases hk : i < k
    · simp [hk]
    · have hbit : x.getLsbD i = false :=
        Nat.testBit_lt_two_pow (h.trans_le (Nat.pow_le_pow_right (by omega) (by omega)))
      simp [hbit]

/-- A word meets an operation's match and mask exactly when its fields do, one by one. -/
theorem and_mask_eq_match_iff (f : Fields) (i : Instr) :
    wordOf f &&& wordOf (maskFields i) = wordOf (matchFields i) ↔
      f.op = opcode i ∧ f.ch &&& channelMask i = 0#8 ∧ f.flags = 0#7 ∧ f.b &&& blockingMask i = 0#1 ∧ f.rsv = 0#8
        ∧ f.imm.toNat < 2 ^ operandWidth i := by
  simp only [wordOf_and, wordOf_inj, maskFields, matchFields, Fields.mk.injEq, BitVec.and_allOnes,
    and_allOnes_shiftLeft_eq_zero_iff]

/-! ## The words of an operation are those of its match and mask -/

theorem channel_and_channelMask (i : Instr) : (channelOf i).getD 0#8 &&& channelMask i = 0#8 := by
  cases hc : channelOf i <;> simp [channelMask, hc]

theorem blockingBitOf_and_blockingMask (i : Instr) : blockingBitOf i &&& blockingMask i = 0#1 := by
  cases i with
  | enq ch b => exact BitVec.and_zero
  | _ => exact BitVec.zero_and

theorem operandOf_lt (i : Instr) : (operandOf i).toNat < 2 ^ operandWidth i := by
  cases i with
  | init p => exact (BitVec.toNat_setWidth_of_le (by decide)).trans_lt p.isLt
  | setvoll ch g | setvolr ch g => exact (BitVec.toNat_setWidth_of_le (by decide)).trans_lt g.isLt
  | setfreq n | setaddr ch n | setcnt ch n | pull n => exact n.isLt
  | setrsv ch v => cases v <;> simp [operandOf, operandWidth]
  | setfmt ch f => cases f <;> simp [operandOf, operandWidth, formatBit]
  | _ => exact Nat.one_pos

/-- Every word of an operation meets its match and mask. -/
theorem encode_and_mask (i : Instr) : encode i &&& wordOf (maskFields i) = wordOf (matchFields i) :=
  (and_mask_eq_match_iff _ i).mpr
    ⟨rfl, channel_and_channelMask i, rfl, blockingBitOf_and_blockingMask i, rfl, operandOf_lt i⟩

theorem channelOf_withOperands {f : Fields} {i : Instr} (h : f.ch &&& channelMask i = 0#8) :
    (channelOf (withOperands f i)).getD 0#8 = f.ch := by
  cases i with
  | setrsv | setfmt | setaddr | setcnt | setvoll | setvolr | enq | chclr => rfl
  | _ => exact (BitVec.and_allOnes.symm.trans h).symm

theorem blockingBitOf_withOperands {f : Fields} {i : Instr} (h : f.b &&& blockingMask i = 0#1) :
    blockingBitOf (withOperands f i) = f.b := by
  cases i with
  | enq => rcases bit_cases f.b with hb | hb <;> simp [withOperands, blockingBitOf, hb]
  | _ => exact (BitVec.and_allOnes.symm.trans h).symm

/-- A value that fits in `k` bits is kept by cutting it to `k` bits. -/
theorem setWidth_setWidth_of_lt {w k : Nat} {x : BitVec w} (h : x.toNat < 2 ^ k) : (x.setWidth k).setWidth w = x := by
  apply BitVec.eq_of_toNat_eq
  rw [BitVec.toNat_setWidth, BitVec.toNat_setWidth, Nat.mod_eq_of_lt h, Nat.mod_eq_of_lt x.isLt]

theorem eq_zero_or_one_of_lt {x : BitVec 32} (h : x.toNat < 2) : x = 0#32 ∨ x = 1#32 := by
  bv_omega

theorem operandOf_withOperands {f : Fields} {i : Instr} (h : f.imm.toNat < 2 ^ operandWidth i) :
    operandOf (withOperands f i) = f.imm := by
  cases i with
  | init | setvoll | setvolr => exact setWidth_setWidth_of_lt h
  | setfreq | setaddr | setcnt | pull => rfl
  | setrsv | setfmt => rcases eq_zero_or_one_of_lt h with hi | hi <;> simp [withOperands, operandOf, formatBit, hi]
  | _ => exact (BitVec.eq_of_toNat_eq (Nat.lt_one_iff.mp h)).symm

/-- Every word that meets an operation's match and mask is the encoder's, the operands being those of its fields. -/
theorem encode_withOperands {w : Command} {i : Instr}
    (h : w &&& wordOf (maskFields i) = wordOf (matchFields i)) : encode (withOperands (fieldsOf w) i) = w := by
  rw [← wordOf_fieldsOf w, and_mask_eq_match_iff] at h
  obtain ⟨hop, hch, hflags, hb, hrsv, himm⟩ := h
  have hcode : opcode (withOperands (fieldsOf w) i) = (fieldsOf w).op := by rw [hop]; cases i <;> rfl
  have hf : encodeFields (withOperands (fieldsOf w) i) = fieldsOf w := by
    rw [encodeFields, hcode, channelOf_withOperands hch, blockingBitOf_withOperands hb, operandOf_withOperands himm,
      ← hflags, ← hrsv]
  rw [encode, hf, wordOf_fieldsOf]

/-- R101, for the row of one operation. -/
theorem decodes_to_operation_iff (i : Instr) (w : Command) :
    (∃ j, decode w = .ok j ∧ mnemonicOf j = mnemonicOf i) ↔ w &&& wordOf (maskFields i) = wordOf (matchFields i) := by
  constructor
  · rintro ⟨j, hd, hm⟩
    have hrow : operationRow j = operationRow i :=
      matchMaskTable_row_unique _ (operationRow_mem j) _ (operationRow_mem i) hm
    have hmatch : wordOf (matchFields j) = wordOf (matchFields i) := congrArg (·.2.1) hrow
    have hmask : wordOf (maskFields j) = wordOf (maskFields i) := congrArg (·.2.2) hrow
    rw [← hmask, ← hmatch, ← encode_of_decode hd]
    exact encode_and_mask j
  · intro h
    refine ⟨withOperands (fieldsOf w) i, ?_, congrArg (·.1) (operationRow_withOperands _ i)⟩
    rw [← decode_encode, encode_withOperands h]

/-- Settles O3: each row of the table is `operationRow` of an operation. -/
theorem decodeIsMatchAndMask : Obligations.DecodeIsMatchAndMask := by
  refine ⟨fun row hrow w => ?_, fun w i _ => ⟨operationRow i, operationRow_mem i, rfl⟩, by decide +kernel⟩
  rw [matchMaskTable_eq] at hrow
  obtain ⟨i, -, rfl⟩ := List.mem_map.mp hrow
  exact decodes_to_operation_iff i w

end Sys2Proof.Machine
end

section
/-! Proofs of the obligations of spec/30_encoding.md on presentations and responses: which step runs a word's command
(R91, R95), what turns a command away (R97, R98, R100), and that every command answers (R96). -/

namespace Sys2Proof.Machine

open Sys2Proof

/-! ## Words and commands turned away -/

/-- R97 (a), (c): a presented word that decodes to nothing is answered ST_ILLEGAL. -/
theorem step_command_illegal {s : State} {p : Signals} {rest : List Stimulus} {e : DecodeError}
    (hq : s.queue = .command p :: rest) (hd : decode p.word = .error e) :
    step s = .next (answer .illegal false 0#32 (presented p rest s)) := by
  simp only [step, hq, presentedBy, hd]
  rfl

/-- Settles O6. -/
theorem stepAnswersIllegalWord : Obligations.StepAnswersIllegalWord :=
  ⟨fun _ _ _ _ hq hd => step_command_illegal hq hd, by decide +kernel, .reservedFlags, by decide +kernel⟩

/-- Settles O9. -/
theorem illegalCommandChangesNothing : Obligations.IllegalCommandChangesNothing := by
  refine ⟨fun i s h => exec_of_not_accepted h, fun s p rest hq h => ?_⟩
  cases hd : decode p.word with
  | error e => exact step_command_illegal hq hd
  | ok i => rw [step_command hq hd, exec_of_not_accepted (h i hd)]; rfl

theorem acceptedDown_of_ne_init {i : Instr} (h : ∀ p, i ≠ .init p) : acceptedDown i = false := by
  cases i with
  | init p => exact absurd rfl (h p)
  | _ => rfl

/-- Settles O10. -/
theorem downCommandChangesNothing : Obligations.DownCommandChangesNothing := by
  intro i s ha hinit hup
  rw [exec_eq_checked, checked_of_down _ ((legal_iff i s).mpr ha) (acceptedDown_of_ne_init hinit) hup]
  rfl

/-! ## A word presented on its own port -/

theorem presentationOf_of_decode {w : Command} {i : Instr} (s : State) (h : decode w = .ok i) :
    presentationOf s w = { s.sig with word := w, port := portOf i } := by
  simp [presentationOf, portForWord, h]

theorem withFetchWord_toNat_queue (s : State) (w : Command) :
    (s.withFetchWord 64 w.toNat).queue = .command (presentationOf s w) :: s.queue := by
  rw [State.withFetchWord, Nat.mod_eq_of_lt w.isLt, BitVec.ofNat_toNat, BitVec.setWidth_eq]

/-- Settles O7. -/
theorem fetchWordRunsNext : Obligations.FetchWordRunsNext := by
  intro s w i hd
  have hp := presentationOf_of_decode s hd
  have hq := withFetchWord_toNat_queue s w
  refine ⟨presentationOf s w, rfl, by rw [hp], hp, hq, ?_⟩
  exact step_command hq hd

/-! ## Every command answers -/

/-- What R96 asks of the response a command leaves. -/
def Answers (i : Instr) (t : State) : Prop :=
  ∃ r, t.resp = some r ∧ (r.status ≠ .ok → r.value = 0#32)
    ∧ (r.parked = true → r.status = .ok ∧ ∃ ch, i = .enq ch true)

theorem Answers.of_ok {i : Instr} {t : State} {v : U32} (h : t.resp = okResponse v) : Answers i t :=
  ⟨_, h, fun hne => absurd rfl hne, fun hp => by cases hp⟩

theorem Answers.of_turnedAway {i : Instr} {t : State} {st : Status} (h : t.resp = turnedAway st) : Answers i t :=
  ⟨_, h, fun _ => rfl, fun hp => by cases hp⟩

theorem Answers.of_respond_ok {i : Instr} {v : U32} {s t : State} (h : respond .ok v s = .next t) : Answers i t := by
  rw [respond_eq_next h]; exact .of_ok rfl

theorem loadBody_answers {s t : State} (h : loadBody s = .next t) : Answers .load t := by
  rcases loadBody_cases s with ⟨-, e⟩ | ⟨-, -, e⟩ | ⟨-, -, e⟩ <;> rw [e] at h <;> cases h
  · exact .of_turnedAway rfl
  · exact .of_ok rfl

/-- ENQ's rule sets `parked` where it blocks, and answers ST_OK whichever way it goes (R163 to R167). -/
theorem enqBody_answers {ch : BitVec 8} {b : Bool} {s t : State} (h : enqBody ch.toNat b s = .next t) :
    Answers (.enq ch b) t := by
  obtain ⟨-, -, -, p, v, hresp, hb⟩ := enqBody_eq_next h
  exact ⟨_, hresp, fun hne => absurd rfl hne, fun hp => ⟨rfl, ch, by rw [hb hp]⟩⟩

/-- Every command's own rule. -/
theorem bodyOf_answers {i : Instr} {s t : State} (h : bodyOf i s = .next t) : Answers i t := by
  cases i with
  | init p =>
    simp only [bodyOf] at h
    split at h
    · rw [respond_eq_next h]; exact .of_turnedAway rfl
    · rw [initBody_frame h]; exact .of_ok rfl
  | clkchg | setfreq | rdstat | setrsv | setfmt | setaddr | setcnt | setvoll | setvolr | hostpoll =>
    exact .of_respond_ok h
  | shutdown | save | chclr =>
    simp only [bodyOf] at h
    exact .of_respond_ok (needHeld_eq_next h).2
  | load => exact loadBody_answers h
  | enq ch b => exact enqBody_answers (needHeld_eq_next h).2
  | tick =>
    obtain ⟨-, -, -, hresp⟩ := tickBody_frame h
    exact .of_ok hresp
  | pull n =>
    simp only [bodyOf] at h
    split at h
    · cases h
    · obtain ⟨vs, q, v, -, rfl⟩ := pullBody_eq_next (needHeld_eq_next h).2
      exact .of_ok rfl

/-- Settles O56: a command that is turned away answers, and so does every rule that runs. -/
theorem everyCommandResponds : Obligations.EveryCommandResponds := by
  intro i s t h
  rcases exec_eq_next h with ⟨st, rfl, -⟩ | ⟨-, -, hb⟩
  · exact Answers.of_turnedAway (st := st) rfl
  · exact bodyOf_answers hb

end Sys2Proof.Machine
end

section
/-! Proofs of the obligations of spec/40_ring_buffer.md: the laws of the ring primitives slot by slot (R122, R123),
along a sequence of ring operations (R127), and along a run of the machine (R120). -/

namespace Sys2Proof.Machine

open Sys2Proof

/-! ## The slots of a push and a pop -/

/-- R122: element `i` of a push goes to `storage[(tail + i) mod C]`. -/
theorem pushN_storage_getElem? {cap : Nat} {q q' : Ring} {vs : List S16} (hw : ringWf cap q = true)
    (h : pushN cap q vs = .ok q') {i : Nat} (hi : i < vs.length) : q'.storage[(q.tail + i) % cap]? = vs[i]? := by
  obtain ⟨hst, -, -, ht, -⟩ := (ringWf_iff cap q).mp hw
  obtain ⟨hroom, -, -, -, hstorage⟩ := pushN_cursors h
  have hdist : ((q.tail + i) % cap + cap - q.tail) % cap = i := by
    rw [Nat.add_sub_assoc ht.le, Nat.mod_add_mod, show q.tail + i + (cap - q.tail) = i + cap by omega,
      Nat.add_mod_right, Nat.mod_eq_of_lt (by omega)]
  rw [hstorage, twoSpans_getElem? hst ht (by omega) _ (Nat.mod_lt _ (by omega)), hdist, if_pos hi]

/-- R123: element `i` of a pop comes from `storage[(head + i) mod C]`. -/
theorem popN_getElem? {cap : Nat} {q q' : Ring} {n : Nat} {vs : List S16} (hw : ringWf cap q = true)
    (h : popN cap q n = .ok (vs, q')) {i : Nat} (hi : i < n) : vs[i]? = q.storage[(q.head + i) % cap]? := by
  obtain ⟨hst, -, hh, -, -⟩ := (ringWf_iff cap q).mp hw
  have hcount : n ≤ q.count := (popN_cursors h).1
  have hslot : (q.head + i) % cap < q.storage.length := hst ▸ Nat.mod_lt _ (by omega)
  rw [(popN_contents hw h).1, List.getElem?_take, if_pos hi, ringContents_getElem? cap q (by omega),
    List.getD_eq_getElem?_getD, List.getElem?_eq_getElem hslot, Option.getD_some]

/-- Settles O12. -/
theorem ringPrimitivesMoveElements : Obligations.RingPrimitivesMoveElements := by
  intro cap q hw
  refine ⟨fun vs hn => ?_, fun n hn => ?_, fun vs => (pushN_error_iff cap q vs).mpr,
    fun n => (popN_error_iff cap q n).mpr⟩
  · obtain ⟨q', h⟩ := (pushN_ok_iff cap q vs).mpr hn
    obtain ⟨-, hhead, htail, hcount, -⟩ := pushN_cursors h
    exact ⟨q', h, hhead, htail, hcount, pushN_wf hw h, fun i => pushN_storage_getElem? hw h⟩
  · obtain ⟨⟨vs, q'⟩, h⟩ := (popN_ok_iff cap q n).mpr hn
    obtain ⟨-, -, rfl⟩ := popN_cursors h
    exact ⟨vs, _, h, rfl, rfl, rfl, rfl, popN_wf hw h, popN_length hw h, fun i => popN_getElem? hw h⟩

/-! ## Sequences of ring operations -/

/-- Where a sequence that begins with a push does not fault, neither does the push nor what follows it. -/
theorem runRing_push_eq_some {cap : Nat} {vs : List S16} {ops : List RingOp} {q q' : Ring} {pushed popped : List S16}
    (h : runRing cap (.push vs :: ops) q = some (q', pushed, popped)) :
    ∃ u rest, pushN cap q vs = .ok u ∧ runRing cap ops u = some (q', rest, popped) ∧ pushed = vs ++ rest := by
  simp only [runRing] at h
  split at h
  · cases h
  · next u hu =>
    obtain ⟨⟨r, rest, out⟩, hr, he⟩ := Option.map_eq_some_iff.mp h
    cases he
    exact ⟨u, rest, hu, hr, rfl⟩

/-- Where a sequence that begins with a pop does not fault, neither does the pop nor what follows it. -/
theorem runRing_pop_eq_some {cap n : Nat} {ops : List RingOp} {q q' : Ring} {pushed popped : List S16}
    (h : runRing cap (.pop n :: ops) q = some (q', pushed, popped)) :
    ∃ vs u rest, popN cap q n = .ok (vs, u) ∧ runRing cap ops u = some (q', pushed, rest)
      ∧ popped = vs ++ rest := by
  simp only [runRing] at h
  split at h
  · cases h
  · next vs u hu =>
    obtain ⟨⟨r, into, rest⟩, hr, he⟩ := Option.map_eq_some_iff.mp h
    cases he
    exact ⟨vs, u, rest, hu, hr, rfl⟩

/-- R127 from any ring: what was in it and what was pushed is what was popped and what is left, in this order. -/
theorem runRing_fifo {cap : Nat} {ops : List RingOp} {q q' : Ring} {pushed popped : List S16}
    (hw : ringWf cap q = true) (h : runRing cap ops q = some (q', pushed, popped)) :
    ringWf cap q' = true ∧ ringContents cap q ++ pushed = popped ++ ringContents cap q' := by
  induction ops generalizing q pushed popped with
  | nil => cases h; exact ⟨hw, List.append_nil _⟩
  | cons op ops ih =>
    cases op with
    | push vs =>
      obtain ⟨u, rest, hu, hr, rfl⟩ := runRing_push_eq_some h
      obtain ⟨hw', hfifo⟩ := ih (pushN_wf hw hu) hr
      rw [pushN_contents hw hu, List.append_assoc] at hfifo
      exact ⟨hw', hfifo⟩
    | pop n =>
      obtain ⟨vs, u, rest, hu, hr, rfl⟩ := runRing_pop_eq_some h
      obtain ⟨hw', hfifo⟩ := ih (popN_wf hw hu) hr
      obtain ⟨hvs, hleft⟩ := popN_contents hw hu
      have hsplit : ringContents cap q = vs ++ ringContents cap u := by rw [hvs, hleft, List.take_append_drop]
      exact ⟨hw', by rw [hsplit, List.append_assoc, hfifo, List.append_assoc]⟩

/-- Settles O11, `runRing_fifo` from a ring with nothing in it. -/
theorem ringIsFifo : Obligations.RingIsFifo := by
  intro cap ops q q' pushed popped hw hempty h
  obtain ⟨hw', hfifo⟩ := runRing_fifo hw h
  have hnone : ringContents cap q = [] := List.eq_nil_of_length_eq_zero ((ringContents_length cap q).trans hempty)
  rw [hnone, List.nil_append] at hfifo
  subst hfifo
  refine ⟨List.prefix_append _ _, ?_, List.drop_left.symm, hw'⟩
  rw [List.length_append, ringContents_length, Nat.add_comm]

/-! ## Runs of the machine -/

/-- What every step keeps holds of every state a run without faults reaches (R297). -/
theorem RunsTo.induct {I : State → Prop} (hstep : ∀ s t, I s → step s = .next t → I t) {n : Nat} {s t : State}
    (hs : I s) (h : RunsTo n s t) : I t := by
  induction n generalizing s with
  | zero => cases h; exact hs
  | succ n ih =>
    simp only [RunsTo, Host.Core.run] at h
    split at h
    · next u hu => exact ih (hstep s u hs hu) h
    · cases h
    · cases h

/-- No collaborator's move writes the parameters (R6). -/
@[simp] theorem environmentMove_par (m : Stimulus) (s : State) : (environmentMove m s).par = s.par := by
  cases m <;> rfl

/-- No step writes the parameters (R6). -/
theorem step_par {s t : State} (h : step s = .next t) : t.par = s.par := by
  rcases step_eq_next h with rfl | ⟨m, rest, u, -, rfl, ht⟩
  · rfl
  rcases ht with rfl | ⟨p, -, ⟨i, -, hx⟩ | rfl⟩
  · exact environmentMove_par _ _
  · have hpar : t.par = (present p (environmentMove m { s with queue := rest })).par :=
      congrArg Prod.fst (exec_unwritten hx)
    rw [hpar, present_par, environmentMove_par]
  · rw [answer_par, present_par, environmentMove_par]

/-- A run keeps the invariant and the parameters. -/
theorem runsTo_inv {n : Nat} {s t : State} (hI : s.Inv) (h : RunsTo n s t) : t.Inv ∧ t.par = s.par :=
  RunsTo.induct (I := fun u => u.Inv ∧ u.par = s.par)
    (fun u v hu huv => ⟨stepKeepsInvariant u v hu.1 huv, (step_par huv).trans hu.2⟩) ⟨hI, rfl⟩ h

/-- R120, R26: a sound ring of whole frames holds an even count within its capacity. -/
theorem count_le_and_even_of_wf {cap : Nat} {q : Ring} (hw : ringWf cap q = true) (he : ringEven q = true) :
    q.count ≤ cap ∧ q.count % 2 = 0 := by
  obtain ⟨-, hcount, -⟩ := (ringWf_iff cap q).mp hw
  obtain ⟨-, -, heven⟩ := (ringEven_iff q).mp he
  exact ⟨hcount, heven⟩

/-- R28, R30: ACC exists exactly while the block is up. -/
theorem State.Inv.acc_isSome {s : State} (hI : s.Inv) : s.acc.isSome = s.up := by
  cases hup : s.up with
  | false => rw [hI.accDown hup]; rfl
  | true  => obtain ⟨a, ha, -⟩ := hI.accUp hup; rw [ha]; rfl

/-- Settles O60: the invariant holds along the run, which keeps the capacities of `P`. -/
theorem runsFromPowerOnKeepRingsSound : Obligations.RunsFromPowerOnKeepRingsSound := by
  intro P stimuli n t hP hrun
  obtain ⟨hI, hpar⟩ := runsTo_inv (inv_queue (inv_powerOnWith hP) stimuli) hrun
  replace hpar : t.par = P := hpar
  refine ⟨fun hheld => ?_, hI.acc_isSome⟩
  obtain ⟨hwf, heven⟩ := hI.heldOut hheld
  obtain ⟨hcap, hframes⟩ := count_le_and_even_of_wf hwf heven
  refine ⟨hpar ▸ hcap, hframes, fun k hk => ?_⟩
  obtain ⟨hkwf, hkeven, -⟩ := channelWf_iff.mp (hI.heldChannel hheld k hk)
  exact hpar ▸ count_le_and_even_of_wf hkwf hkeven

end Sys2Proof.Machine
end

section
/-! Proofs of the obligations of spec/41_channel_config.md: the words that it and the files after it write out, the six
register writes (R140 to R146) and CHCLR's force-wake (R147, R148). -/

namespace Sys2Proof.Machine

open Sys2Proof

/-! ## Words written out -/

/-- The encoder's word of a command is read back as it (R90, R91). -/
theorem decode_of_encode_eq {w : Command} {i : Instr} (h : encode i = w) : decode w = .ok i := h ▸ decode_encode i

/-- Settles O4: each word is the encoder's word of its command. -/
theorem writtenOutWordsDecode : Obligations.WrittenOutWordsDecode :=
  ⟨decode_of_encode_eq rfl, decode_of_encode_eq rfl, decode_of_encode_eq rfl, decode_of_encode_eq rfl,
    decode_of_encode_eq rfl, decode_of_encode_eq rfl, decode_of_encode_eq rfl, decode_of_encode_eq rfl,
    decode_of_encode_eq rfl⟩

/-! ## The six register writes -/

/-- The command `i` writes one register of channel `ch`; `f` is what the write makes of the channel's record (R140 to
R146). -/
inductive RegisterWrite : Instr → BitVec 8 → (Channel → Channel) → Prop where
  | setrsv  (ch : BitVec 8) (v : Bool)    : RegisterWrite (.setrsv ch v) ch fun k => { k with reserved := v }
  | setfmt  (ch : BitVec 8) (fmt : Format) : RegisterWrite (.setfmt ch fmt) ch fun k => { k with format := fmt }
  | setaddr (ch : BitVec 8) (a : Addr)    : RegisterWrite (.setaddr ch a) ch fun k => { k with sampleAddress := a }
  | setcnt  (ch : BitVec 8) (n : U32)     : RegisterWrite (.setcnt ch n) ch fun k => { k with sampleCount := n }
  | setvoll (ch : BitVec 8) (g : Gain)    : RegisterWrite (.setvoll ch g) ch fun k => { k with leftVolume := g }
  | setvolr (ch : BitVec 8) (g : Gain)    : RegisterWrite (.setvolr ch g) ch fun k => { k with rightVolume := g }

namespace RegisterWrite

variable {i : Instr} {ch : BitVec 8} {f : Channel → Channel}

/-- The rule of all six: assign the channel's record, answer OK. -/
theorem bodyOf_eq (h : RegisterWrite i ch f) (s : State) :
    bodyOf i s = .next (answer .ok false 0#32 (setCh s ch.toNat (f (getCh s ch.toNat)))) := by
  cases h <;> rfl

theorem channelOf_eq (h : RegisterWrite i ch f) : channelOf i = some ch := by
  cases h <;> rfl

theorem portOf_eq (h : RegisterWrite i ch f) : portOf i = .g := by
  cases h <;> rfl

/-- No register of a write is the queue or the wait list. -/
theorem queue_waiting_eq (h : RegisterWrite i ch f) (k : Channel) :
    (f k).queue = k.queue ∧ (f k).waiting = k.waiting := by
  cases h <;> exact ⟨rfl, rfl⟩

theorem ready (h : RegisterWrite i ch f) {s : State} (hw : i.wellFormed = true) (hup : s.up = true)
    (hport : s.sig.port = .g) (hch : ch.toNat ≤ s.par.chMax) : Ready i s :=
  ⟨(legal_iff i s).mp (legal_of_channel hw (hport.trans h.portOf_eq.symm) h.channelOf_eq hch), hup⟩

/-- R140: an accepted write leaves the response and its channel's record, all else as it was. -/
theorem exec_eq (h : RegisterWrite i ch f) {s : State} (hr : Ready i s) :
    exec i s = .next { s with
      resp := okResponse 0#32,
      chs := s.chs.set ch.toNat (f (getCh s ch.toNat)) } :=
  (exec_of_ready hr).trans (h.bodyOf_eq s)

end RegisterWrite

/-- Settles O17: `RegisterWrite.exec_eq` for each of the six, the gains being legal by their bound. -/
theorem registerWritesSetOneRegister : Obligations.RegisterWritesSetOneRegister := by
  intro s ch hup hport hch
  have run {i : Instr} {f : Channel → Channel} (h : RegisterWrite i ch f) (hw : i.wellFormed = true) :=
    h.exec_eq (h.ready hw hup hport hch)
  exact ⟨fun v => run (.setrsv ch v) rfl, fun fmt => run (.setfmt ch fmt) rfl, fun a => run (.setaddr ch a) rfl,
    fun n => run (.setcnt ch n) rfl, fun g hg => run (.setvoll ch g) (decide_eq_true hg),
    fun g hg => run (.setvolr ch g) (decide_eq_true hg)⟩

/-- A part of a channel's record on which the old and the new record agree survives the assignment, whether or not the
channel exists. -/
theorem getCh_setCh_part {β : Type} (part : Channel → β) {s : State} {c : Nat} {k : Channel}
    (h : part k = part (getCh s c)) : part (getCh (setCh s c k) c) = part (getCh s c) := by
  rw [getCh_setCh]
  split
  · exact h
  · rfl

/-- What a register write leaves alone when its rule runs: all but the response and one channel's record, and of that
record the queue and the wait list. -/
theorem RegisterWrite.frame {i : Instr} {ch : BitVec 8} {f : Channel → Channel} (h : RegisterWrite i ch f)
    {s t : State} (ht : bodyOf i s = .next t) :
    t = { s with chs := t.chs, resp := t.resp } ∧ t.chs.length = s.chs.length
      ∧ (∀ c, c ≠ ch.toNat → getCh t c = getCh s c)
      ∧ (getCh t ch.toNat).queue = (getCh s ch.toNat).queue
      ∧ (getCh t ch.toNat).waiting = (getCh s ch.toNat).waiting := by
  rw [h.bodyOf_eq] at ht
  cases ht
  obtain ⟨hqueue, hwaiting⟩ := h.queue_waiting_eq (getCh s ch.toNat)
  exact ⟨rfl, List.length_set, fun c hc => getCh_setCh_ne s _ hc.symm, getCh_setCh_part Channel.queue hqueue,
    getCh_setCh_part Channel.waiting hwaiting⟩

/-- Settles O18: a write that is turned away changes the response alone, one that runs has `RegisterWrite.frame`. -/
theorem registerWritesFrame : Obligations.RegisterWritesFrame := by
  intro i ch s t h hwrite
  obtain ⟨-, -, hbytes⟩ := noCommandWritesGuestMemory i s t h
  obtain ⟨f, hf⟩ : ∃ f, RegisterWrite i ch f := by
    rcases hwrite with ⟨v, rfl⟩ | ⟨fmt, rfl⟩ | ⟨a, rfl⟩ | ⟨n, rfl⟩ | ⟨g, rfl⟩ | ⟨g, rfl⟩
    exacts [⟨_, .setrsv ch v⟩, ⟨_, .setfmt ch fmt⟩, ⟨_, .setaddr ch a⟩, ⟨_, .setcnt ch n⟩, ⟨_, .setvoll ch g⟩,
      ⟨_, .setvolr ch g⟩]
  rcases exec_eq_next h with ⟨st, rfl, -⟩ | ⟨-, -, hb⟩
  · exact ⟨rfl, rfl, fun _ _ => rfl, rfl, rfl, hbytes⟩
  · obtain ⟨hframe, hlen, hother, hqueue, hwaiting⟩ := hf.frame hb
    exact ⟨hframe, hlen, hother, hqueue, hwaiting, hbytes⟩

/-! ## CHCLR -/

/-- The trailing reschedule of a pass is no resume (R181, R255). -/
theorem count_resume_wakeCalls (rs : List Call) (u : Nat) (v : U32) :
    (wakeCalls rs).count (.resume u v) = rs.count (.resume u v) := by
  cases rs <;> simp [wakeCalls, List.count_cons]

theorem resume_mem_wakeCalls {rs : List Call} {u : Nat} {v : U32} :
    .resume u v ∈ wakeCalls rs ↔ .resume u v ∈ rs := by
  cases rs <;> simp [wakeCalls]

theorem wakeCalls_of_ne_nil {rs : List Call} (h : rs ≠ []) : wakeCalls rs = rs ++ [.reschedule] := by
  simp [wakeCalls, h]

/-- The loop itself only resumes (R181). -/
theorem reschedule_notMem_wakeList (P : Params) (c : Nat) (r : U32) (st : WakeStep) (es : List WaitEntry)
    (W : Scheduler) : .reschedule ∉ (wakeList P c r st es W).2.2 := by
  intro h
  obtain ⟨e, -, v, hx⟩ := wakeList_calls P c r st es W _ h
  cases hx

/-- With `step = +inf` every entry's threshold is reached, so the due threads are the waiters (R148, R181). -/
theorem due_infinity_iff_waits (s : State) (c u : Nat) :
    Due s.par c .infinity (getCh s c).waiting s.sched u ↔ Waits s c u := by
  simp [Due, Waits, ParkedHere, WakeStep.reached, and_comm]

/-- The loop of WakeThreads as a channel clear runs it (R148). -/
def clearWake (s : State) (c : Nat) : List WaitEntry × Scheduler × List Call :=
  wakeList s.par c s.par.errNotReserved .infinity (getCh s c).waiting s.sched

/-- R148, R181: a waiter is resumed once, with the clear's code, and waits no longer; nobody else is touched. -/
theorem clearWake_spec {s : State} (c u : Nat) (hs : cellsSorted s.sched.waits) :
    (Waits s c u → cellsGet (clearWake s c).2.1.waits u = none
        ∧ cellsGet (clearWake s c).2.1.delivered u = some (clearCode s u)
        ∧ (clearWake s c).2.2.count (.resume u (clearCode s u)) = 1)
    ∧ (¬ Waits s c u → cellsGet (clearWake s c).2.1.waits u = cellsGet s.sched.waits u
        ∧ cellsGet (clearWake s c).2.1.delivered u = cellsGet s.sched.delivered u
        ∧ ∀ v, .resume u v ∉ (clearWake s c).2.2) := by
  rw [← due_infinity_iff_waits]
  exact wakeList_spec _ _ _ _ _ _ hs u

/-- A clear makes no call exactly when nobody waits. -/
theorem clearWake_calls_nil_iff {s : State} (c : Nat) (hs : cellsSorted s.sched.waits) :
    (clearWake s c).2.2 = [] ↔ ∀ u, ¬ Waits s c u := by
  simp only [← due_infinity_iff_waits]
  exact wakeList_calls_nil_iff _ _ _ _ _ _ hs

/-- R147, R148: the whole state ChannelClear leaves. -/
theorem channelClear_eq (c : Nat) (s : State) :
    channelClear c s = { s with
      sched := (clearWake s c).2.1,
      calls := s.calls ++ wakeCalls (clearWake s c).2.2,
      chs := s.chs.set c (resetChannel (getCh s c)) } := by
  rw [← channelClear_chs]; rfl

theorem exec_chclr {s : State} {ch : BitVec 8} (hr : Ready (.chclr ch) s) (hh : s.held = true) :
    exec (.chclr ch) s = .next (answer .ok false 0#32 (channelClear ch.toNat s)) := by
  rw [exec_of_ready hr, bodyOf, needHeld_of_held _ hh]; rfl

/-- Settles O19: the state is `channelClear_eq`'s, who is resumed and with what is `clearWake_spec`. -/
theorem channelClearForceWakes : Obligations.ChannelClearForceWakes := by
  intro s ch hr hh hs
  refine ⟨(clearWake s ch.toNat).2.1, wakeCalls (clearWake s ch.toNat).2.2, ?_, fun u => ⟨fun hu => ?_, fun hu => ?_⟩,
    fun u => ⟨fun hu => ?_, fun hu v hv => ?_⟩, fun hnone => ?_, fun ⟨u, hu⟩ => ?_⟩
  · rw [exec_chclr hr hh, channelClear_eq]; rfl
  · obtain ⟨hwaits, hdelivered, -⟩ := (clearWake_spec ch.toNat u hs).1 hu
    exact ⟨hwaits, hdelivered⟩
  · obtain ⟨hwaits, hdelivered, -⟩ := (clearWake_spec ch.toNat u hs).2 hu
    exact ⟨hwaits, hdelivered⟩
  · obtain ⟨-, -, honce⟩ := (clearWake_spec ch.toNat u hs).1 hu
    rw [count_resume_wakeCalls, honce]
  · obtain ⟨-, -, hnever⟩ := (clearWake_spec ch.toNat u hs).2 hu
    exact hnever v (resume_mem_wakeCalls.mp hv)
  · rw [(clearWake_calls_nil_iff ch.toNat hs).mpr hnone]; rfl
  · have hcalls : (clearWake s ch.toNat).2.2 ≠ [] := fun h => (clearWake_calls_nil_iff ch.toNat hs).mp h u hu
    exact ⟨_, wakeCalls_of_ne_nil hcalls, reschedule_notMem_wakeList _ _ _ _ _ _⟩

end Sys2Proof.Machine
end

section
/-! Proofs of the obligations of spec/42_enqueue.md: the volume adjustment (R160), and ENQ's answer, the samples it
appends, the park of a blocking call, its overflow and its frame (R161 to R169). -/

namespace Sys2Proof.Machine

open Sys2Proof

/-! ## adjustVolume -/

/-- Settles O14: the model's own clamp and shift, written out (R9). -/
theorem adjustVolumeClamps : Obligations.AdjustVolumeClamps := by
  intro x vol
  rw [adjustVolume_toInt, adjustInt, clamp16, asr]
  rfl

/-- R160: the bounds of the product over the gain registers' range. -/
theorem sample_mul_gain_bounds (x : S16) {vol : Int} (h0 : 0 ≤ vol) (h1 : vol ≤ 65536) :
    -2147483648 ≤ x.toInt * vol ∧ x.toInt * vol ≤ 2147418112 := by
  obtain ⟨hlo, hhi⟩ := s16_bounds x
  constructor <;> nlinarith

/-- Within those bounds the clamp does not act. -/
theorem adjustVolume_toInt_of_gain (x : S16) {vol : Int} (h0 : 0 ≤ vol) (h1 : vol ≤ 65536) :
    (adjustVolume x vol).toInt = x.toInt * vol / 65536 := by
  obtain ⟨hlo, hhi⟩ := sample_mul_gain_bounds x h0 h1
  rw [adjustVolumeClamps]
  omega

/-- R170: unity gain is lossless. -/
@[simp] theorem adjustVolume_unity (x : S16) : adjustVolume x 65536 = x :=
  BitVec.eq_of_toInt_eq <| by
    rw [adjustVolume_toInt_of_gain x (by decide) (by decide), Int.mul_ediv_cancel _ (by decide)]

@[simp] theorem adjustVolume_zero (x : S16) : adjustVolume x 0 = 0#16 :=
  BitVec.eq_of_toInt_eq <| by
    rw [adjustVolume_toInt_of_gain x (by decide) (by decide), Int.mul_zero]; rfl

/-- Settles O13: unity and zero are two of the gains for which the result is the floor. -/
theorem adjustVolumeOnTheGainRange : Obligations.AdjustVolumeOnTheGainRange := fun x =>
  ⟨adjustVolume_unity x, adjustVolume_zero x, fun _ h0 h1 =>
    ⟨adjustVolume_toInt_of_gain x h0 h1, sample_mul_gain_bounds x h0 h1⟩⟩

/-! ## The elements of R166 by position -/

/-- Pairs laid end to end: element `2 * i` and element `2 * i + 1` for each `i`. -/
theorem range_flatMap_pair {α : Type} (f : Nat → α) (n : Nat) :
    ((List.range n).flatMap fun i => [f (2 * i), f (2 * i + 1)]) = (List.range (2 * n)).map f := by
  induction n with
  | zero => rfl
  | succ n ih =>
    rw [List.range_succ, List.flatMap_append, ih, show 2 * (n + 1) = 2 * n + 1 + 1 by omega, List.range_succ,
      List.range_succ]
    simp

/-- R169: stereo frames at unity gain are the guest's samples themselves. -/
theorem specSamples_stereo_unity {m : Memory} {k : Channel} (hf : k.format = .stereo)
    (hl : k.leftVolume = 65536#17) (hr : k.rightVolume = 65536#17) :
    specSamples m k = (List.range (2 * k.sampleCount.toNat)).map fun j =>
      sampleAt m (k.sampleAddress + BitVec.ofNat 32 (2 * j)) := by
  have hunity : gainOf 65536#17 = 65536 := rfl
  rw [← range_flatMap_pair]
  simp only [specSamples, hf, hl, hr, hunity, adjustVolume_unity]
  refine List.flatMap_congr fun i _ => ?_
  rw [show 2 * (2 * i) = 4 * i by omega, show 2 * (2 * i + 1) = 4 * i + 2 by omega]

/-- R166: with equal gains element `j` of a mono request is the adjusted sample `j / 2`. -/
theorem specSamples_mono_equal {m : Memory} {k : Channel} (hf : k.format = .mono)
    (hg : k.leftVolume = k.rightVolume) :
    specSamples m k = (List.range (2 * k.sampleCount.toNat)).map fun j =>
      adjustVolume (sampleAt m (k.sampleAddress + BitVec.ofNat 32 (2 * (j / 2)))) (gainOf k.leftVolume) := by
  rw [← range_flatMap_pair]
  simp only [specSamples, hf, ← hg]
  refine List.flatMap_congr fun i _ => ?_
  rw [show 2 * i / 2 = i by omega, show (2 * i + 1) / 2 = i by omega]

/-! ## An ENQ that completes -/

/-- R166: an ENQ that completes through its data path appended the 2N elements of R166. -/
theorem exec_enq_appends {s t : State} {ch : BitVec 8} {b : Bool} (hr : Ready (.enq ch b) s)
    (h : exec (.enq ch b) s = .next t) (hc : ch.toNat < s.chs.length)
    (hw : ringWf s.par.cqCap (getCh s ch.toNat).queue = true) (ha : (getCh s ch.toNat).sampleAddress ≠ 0#32)
    (hb : 0 < (getCh s ch.toNat).queue.count → b = true) :
    ringContents s.par.cqCap (getCh t ch.toNat).queue
      = ringContents s.par.cqCap (getCh s ch.toNat).queue ++ specSamples s.mem (getCh s ch.toNat) := by
  rw [exec_of_ready hr] at h
  obtain ⟨-, ⟨k, hchs, -, hqueue⟩, -⟩ := enqBody_eq_next (needHeld_eq_next h).2
  have hk : getCh t ch.toNat = k :=
    (getCh_congr (t := setCh s ch.toNat k) hchs _).trans (getCh_setCh_self k hc)
  rw [hk]
  rcases hqueue with ⟨-, h0 | ⟨hn, hfalse⟩ | hout⟩ | hpush
  · exact absurd h0 ha
  · rw [hb hn] at hfalse; cases hfalse
  · exact absurd hc hout
  · exact pushN_contents hw hpush

/-- Settles O15, by `specSamples_stereo_unity`. -/
theorem unityStereoIsACopy : Obligations.UnityStereoIsACopy := by
  intro s t ch b hr h k hc hw ha hb hf hl hrv
  rw [exec_enq_appends hr h hc hw ha hb, specSamples_stereo_unity hf hl hrv]

/-- Settles O16, by `specSamples_mono_equal`: the elements `2 * i` and `2 * i + 1` are both sample `i`. -/
theorem monoExpandsToEqualPairs : Obligations.MonoExpandsToEqualPairs := by
  intro s t ch b hr h k hc hw ha hb hf hg
  refine ⟨specSamples s.mem k, exec_enq_appends hr h hc hw ha hb, specSamples_length _ _, fun i hi => ?_⟩
  have hodd : 2 * i + 1 < 2 * k.sampleCount.toNat := by omega
  have heven : 2 * i < 2 * k.sampleCount.toNat := by omega
  have hhalf : (2 * i + 1) / 2 = i := by omega
  simp [specSamples_mono_equal hf hg, List.getElem?_range hodd, List.getElem?_range heven, hhalf]

/-- Settles O30: an ENQ that is turned away changes the response alone, one that runs has `enqBody_eq_next`. -/
theorem enqFrame : Obligations.EnqFrame := by
  intro s t ch b h
  obtain ⟨-, -, hbytes⟩ := noCommandWritesGuestMemory _ s t h
  rcases exec_eq_next h with ⟨st, rfl, -⟩ | ⟨-, -, hbody⟩
  · exact ⟨rfl, rfl, fun _ _ => rfl, rfl, fun _ _ => rfl, rfl, hbytes⟩
  obtain ⟨hframe, ⟨k, hchs, hregs, -⟩, hsched, -⟩ := enqBody_eq_next (needHeld_eq_next hbody).2
  have hget (c : Nat) : getCh t c = getCh (setCh s ch.toNat k) c := getCh_congr hchs c
  refine ⟨hframe, by rw [hchs, List.length_set], fun c hc => ?_, ?_, fun u hu => ?_, ?_, hbytes⟩
  · rw [hget, getCh_setCh_ne s k hc.symm]
  · rw [hget, getCh_setCh]
    split
    · exact hregs
    · rfl
  · rcases hsched with e | ⟨r, e⟩ <;> rw [e]
    rw [cellsGet_put, if_neg hu]
  · rcases hsched with e | ⟨r, e⟩ <;> rw [e]

/-! ## What ENQ answers and appends, case by case -/

theorem exec_enq {s : State} {ch : BitVec 8} {b : Bool} (hr : Ready (.enq ch b) s) (hh : s.held = true) :
    exec (.enq ch b) s = enqBody ch.toNat b s :=
  (exec_of_ready hr).trans (needHeld_of_held _ hh)

/-- R162, with the quirk's two channels named. -/
theorem enqReturn_eq (P : Params) (c : Nat) (k : Channel) :
    enqReturn P c k
      = if k.sampleAddress = 0#32 ∧ (c = P.chSrc ∨ c = P.chOutput2) then 0#32 else k.sampleCount := by
  simp [enqReturn, silenceZero]

/-- What ENQ appends where it goes on to its data path (R165, R166): nothing for a silence-only call. -/
def enqSamples (m : Memory) (k : Channel) : List S16 :=
  if k.sampleAddress = 0#32 then [] else specSamples m k

theorem enqSamples_of_samples {m : Memory} {k : Channel} (h : k.sampleAddress ≠ 0#32) :
    enqSamples m k = specSamples m k := if_neg h

theorem enqSamples_length (m : Memory) (k : Channel) :
    (enqSamples m k).length = if k.sampleAddress = 0#32 then 0 else 2 * k.sampleCount.toNat := by
  unfold enqSamples
  split
  · rfl
  · exact specSamples_length m k

/-- ENQ's data path can go on (R66, R166): where there is something to copy, there is room and every byte is
admitted. -/
def CanAppend (cap : Nat) (m : Memory) (k : Channel) : Prop :=
  k.sampleAddress ≠ 0#32 →
    2 * k.sampleCount.toNat ≤ cap - k.queue.count ∧ admitted m k.sampleAddress (bytesRead k)

/-- Pushing nothing leaves the ring as it is (R122). -/
theorem pushN_nil {cap : Nat} {q : Ring} (hw : ringWf cap q = true) : pushN cap q [] = .ok q := by
  obtain ⟨-, -, -, htail, -⟩ := (ringWf_iff cap q).mp hw
  simp [pushN, writeSpan, Nat.mod_eq_of_lt htail]

/-- Writing back the record that stands changes nothing. -/
theorem setCh_getCh (s : State) (c : Nat) : setCh s c (getCh s c) = s := by
  have hchs : s.chs.set c (getCh s c) = s.chs := by
    by_cases hc : c < s.chs.length
    · rw [getCh_eq_getElem hc, List.set_getElem_self]
    · exact List.set_eq_of_length_le (by omega)
  rw [setCh, hchs]

theorem enqData_of_silence {c : Nat} {s : State} (ret : U32) (parked : Bool)
    (ha : (getCh s c).sampleAddress = 0#32) : enqData c ret parked s = .next (answer .ok parked ret s) :=
  if_pos ha

/-- R166: the room test comes first. -/
theorem enqData_of_noRoom {c : Nat} {s : State} (ret : U32) (parked : Bool)
    (ha : (getCh s c).sampleAddress ≠ 0#32)
    (hfull : s.par.cqCap - (getCh s c).queue.count < 2 * (getCh s c).sampleCount.toNat) :
    enqData c ret parked s = .fault (.cqOverflow s.calls) :=
  (if_neg ha).trans (if_pos hfull)

/-- R165 to R167: the end of ENQ, silence-only or not, pushes `enqSamples` and answers. -/
theorem enqData_of_canAppend {c : Nat} {s : State} (ret : U32) (parked : Bool)
    (hw : ringWf s.par.cqCap (getCh s c).queue = true) (hgo : CanAppend s.par.cqCap s.mem (getCh s c)) :
    ∃ q, pushN s.par.cqCap (getCh s c).queue (enqSamples s.mem (getCh s c)) = .ok q
      ∧ enqData c ret parked s = .next (answer .ok parked ret (setCh s c { getCh s c with queue := q })) := by
  rcases enqData_cases c ret parked s with ⟨ha, e⟩ | ⟨ha, hfull, -⟩ | ⟨ha, -, e, herr, -⟩ | ⟨ha, -, q, -, hq, e⟩
  · refine ⟨(getCh s c).queue, ?_, ?_⟩
    · rw [enqSamples, if_pos ha, pushN_nil hw]
    · rw [e, setCh_getCh]
  · obtain ⟨hroom, -⟩ := hgo ha
    omega
  · obtain ⟨-, hadm⟩ := hgo ha
    rw [scaledSamples_of_admitted hadm] at herr
    cases herr
  · exact ⟨q, by rw [enqSamples_of_samples ha, hq], e⟩

/-- The parked channel's record: one more wait entry (R164). -/
theorem getCh_park_self {c : Nat} {s : State} (r : Int) (v : U32) (hc : c < s.chs.length) :
    getCh (park c r v s) c = { getCh s c with
      waiting := (getCh s c).waiting ++ [{ thread := s.sig.currentThread, remaining := r }] } := by
  rw [getCh_park, if_pos ⟨rfl, hc⟩]

theorem setCh_park (c : Nat) (r : Int) (v : U32) (s : State) (k : Channel) :
    setCh (park c r v s) c k = { park c r v s with chs := s.chs.set c k } := by
  rw [setCh, park_chs, List.set_set]

/-- Settles O23: ENQ answers before it parks anyone or reads memory. -/
theorem nonBlockingEnqOnBusyChannel : Obligations.NonBlockingEnqOnBusyChannel := by
  intro s ch hr hh hn
  rw [exec_enq hr hh, enqBody, if_neg hn.ne', if_pos rfl]
  rfl

/-- Settles O24: the data path ends at once, with the value of `enqReturn_eq`. -/
theorem silenceOnlyEnqOnEmptyQueue : Obligations.SilenceOnlyEnqOnEmptyQueue := by
  intro s ch b hr hh hempty ha
  rw [exec_enq hr hh, enqBody_of_empty hempty, enqData_of_silence _ _ ha, enqReturn_eq]
  simp only [ha, true_and]
  rfl

/-- Settles O25: `enqData_of_canAppend` on the state itself, whose queue is empty. -/
theorem enqOnEmptyQueueAppendsSamples : Obligations.EnqOnEmptyQueueAppendsSamples := by
  intro s ch b hr hh k hw hempty ha hroom hadm
  have hgo : CanAppend s.par.cqCap s.mem k := fun _ => ⟨by rw [hempty]; exact hroom, hadm⟩
  obtain ⟨q, hpush, hdata⟩ := enqData_of_canAppend k.sampleCount false hw hgo
  rw [enqSamples_of_samples ha] at hpush
  have hnone : ringContents s.par.cqCap k.queue = [] :=
    List.eq_nil_of_length_eq_zero ((ringContents_length _ _).trans hempty)
  refine ⟨q, ?_, hpush, ?_⟩
  · rw [exec_enq hr hh, enqBody_of_empty hempty, enqReturn_of_samples ha, hdata]
    rfl
  · rw [pushN_contents hw hpush, hnone, List.nil_append]

/-- Settles O27: nobody is parked, so `enqData_of_canAppend` speaks of the state itself. -/
theorem blockingEnqWithDispatchDisabled : Obligations.BlockingEnqWithDispatchDisabled := by
  intro s ch hr hh hd c k vs hc hn hw hgo
  obtain ⟨q, hpush, hdata⟩ := enqData_of_canAppend s.par.errCannotWait false hw hgo
  refine ⟨q, ?_, pushN_contents hw hpush⟩
  rw [exec_enq hr hh, enqBody_of_dispatchDisabled hn hd, hdata]
  rfl

/-- Settles O26: the park leaves what the data path reads as it was, so `enqData_of_canAppend` holds after it. -/
theorem blockingEnqParksAndAppends : Obligations.BlockingEnqParksAndAppends := by
  intro s ch hr hh hd c k ret vs hc hn hw hgo
  have hret : enqReturn s.par c k = ret := enqReturn_eq s.par c k
  have hk := getCh_park_self (blockSamples s.ctl.qminf k.queue.count) ret hc
  obtain ⟨q, hpush, hdata⟩ := enqData_of_canAppend
    (s := park c (blockSamples s.ctl.qminf k.queue.count) ret s) ret true (by rw [hk]; exact hw) (by rw [hk]; exact hgo)
  rw [hk] at hpush hdata
  replace hpush : pushN s.par.cqCap k.queue (enqSamples s.mem k) = .ok q := hpush
  refine ⟨q, ?_, pushN_contents hw hpush, ?_⟩
  · rw [exec_enq hr hh, enqBody_of_dispatchEnabled hn hd, hret, hdata, setCh_park]
    rfl
  · obtain ⟨-, -, -, hcount, -⟩ := pushN_cursors hpush
    rw [hcount, enqSamples_length]

/-- Settles O28: the room test fails whichever way ENQ reaches its data path. -/
theorem enqBeyondRoomFaults : Obligations.EnqBeyondRoomFaults := by
  intro s ch b hr hh c k hc ha hfull
  rw [exec_enq hr hh]
  refine ⟨fun h0 => ?_, fun hn hb hd => ?_, fun hn hb hd => ?_⟩
  · rw [enqBody_of_empty h0, enqData_of_noRoom _ _ ha hfull]
  · rw [hb, enqBody_of_dispatchDisabled hn hd, enqData_of_noRoom _ _ ha hfull]
  · have hk := getCh_park_self (blockSamples s.ctl.qminf k.queue.count) k.sampleCount hc
    rw [hb, enqBody_of_dispatchEnabled hn hd, enqReturn_of_samples ha,
      enqData_of_noRoom _ _ (by rw [hk]; exact ha) (by rw [hk]; exact hfull), park_calls]

end Sys2Proof.Machine
end

section
/-! Proofs of the obligations of spec/43_mix_tick.md on WakeThreads (R180, R181): what one pass does to a wait list,
and the drain of a parked thread over several passes. -/

namespace Sys2Proof.Machine

open Sys2Proof

/-! ## One entry of a pass -/

/-- A due entry is resumed and the rest is visited with the thread gone from the wait (R181 (a), (b)). -/
theorem wakeList_cons_due {P : Params} {c : Nat} {r : U32} {st : WakeStep} {e : WaitEntry} {es : List WaitEntry}
    {W : Scheduler} (hhere : waitId W e.thread P.waitAudio = c + 1) (hdue : st.reached e.remaining = true) :
    wakeList P c r st (e :: es) W =
      let rest := wakeList P c r st es (resumeThread W e.thread (resumeValue P r W e.thread))
      (rest.1, rest.2.1, .resume e.thread (resumeValue P r W e.thread) :: rest.2.2) := by
  simp only [wakeList, if_pos hhere, if_pos hdue]

/-- An entry parked here whose threshold is not reached stays with the step subtracted (R181). -/
theorem wakeList_cons_stays {P : Params} {c : Nat} {r : U32} {st : WakeStep} {e : WaitEntry} {es : List WaitEntry}
    {W : Scheduler} (hhere : waitId W e.thread P.waitAudio = c + 1) (hdue : st.reached e.remaining = false) :
    wakeList P c r st (e :: es) W =
      let rest := wakeList P c r st es W
      ({ e with remaining := st.left e.remaining } :: rest.1, rest.2.1, rest.2.2) := by
  simp only [wakeList, if_pos hhere, hdue, Bool.false_eq_true, if_false]

/-- An entry whose thread is not parked here is dropped (R181 (c)). -/
theorem wakeList_cons_elsewhere {P : Params} {c : Nat} {r : U32} {st : WakeStep} {e : WaitEntry}
    {es : List WaitEntry} {W : Scheduler} (hhere : waitId W e.thread P.waitAudio ≠ c + 1) :
    wakeList P c r st (e :: es) W = wakeList P c r st es W := by
  simp only [wakeList, if_neg hhere]

theorem waitId_of_record {W : Scheduler} {t : Nat} {r : WaitRecord} (h : cellsGet W.waits t = some r) :
    waitId W t r.category = r.key := by
  simp [waitId, h]

theorem waitValue_of_record {W : Scheduler} {t : Nat} {r : WaitRecord} (h : cellsGet W.waits t = some r) :
    waitValue W t = r.payload := by
  simp [waitValue, h]

/-- A drain delivers the thread's own payload (R181, `result == 0`). -/
@[simp] theorem resumeValue_zero (P : Params) (W : Scheduler) (t : Nat) : resumeValue P 0#32 W t = waitValue W t := by
  simp [resumeValue]

@[simp] theorem reached_frames_iff (n : Nat) (r : Int) : (WakeStep.frames n).reached r = true ↔ r ≤ n := by
  simp [WakeStep.reached]

theorem not_reached_frames {n : Nat} {r : Int} (h : (n : Int) < r) : (WakeStep.frames n).reached r = false := by
  simp [WakeStep.reached, h]

/-! ## A list without repeated threads -/

/-- The entry is for a thread parked on the wait of channel `c` (R181 (a)). -/
def entryHere (P : Params) (c : Nat) (W : Scheduler) (e : WaitEntry) : Bool :=
  waitId W e.thread P.waitAudio == c + 1

/-- Resuming one thread leaves the parks and payloads of entries for others. -/
theorem entryHere_resumeThread {W : Scheduler} (hs : cellsSorted W.waits) (P : Params) (c : Nat) {t : Nat} (v : U32)
    {e : WaitEntry} (h : e.thread ≠ t) : entryHere P c (resumeThread W t v) e = entryHere P c W e := by
  unfold entryHere
  rw [waitId_resumeThread hs, if_neg h]

/-- R181 on a list without repeated threads: no entry's resume bears on another entry, so the pass is a filter. -/
theorem wakeList_of_nodup (P : Params) (c : Nat) (r : U32) (st : WakeStep) (es : List WaitEntry) (W : Scheduler)
    (hs : cellsSorted W.waits) (hnodup : (es.map WaitEntry.thread).Nodup) :
    (wakeList P c r st es W).1
        = (es.filter fun e => entryHere P c W e && !st.reached e.remaining).map
            (fun e => { e with remaining := st.left e.remaining })
    ∧ (wakeList P c r st es W).2.2
        = (es.filter fun e => entryHere P c W e && st.reached e.remaining).map
            fun e => .resume e.thread (resumeValue P r W e.thread) := by
  induction es generalizing W with
  | nil => exact ⟨rfl, rfl⟩
  | cons e es ih =>
    obtain ⟨hfresh, hrest⟩ := List.nodup_cons.mp hnodup
    by_cases hhere : waitId W e.thread P.waitAudio = c + 1
    · have hb : entryHere P c W e = true := by simp [entryHere, hhere]
      cases hdue : st.reached e.remaining with
      | true =>
        have hother : ∀ d ∈ es, d.thread ≠ e.thread := fun d hd heq => hfresh (heq ▸ List.mem_map_of_mem hd)
        obtain ⟨hstay, hcalls⟩ := ih (resumeThread W e.thread (resumeValue P r W e.thread))
          (cellsSorted_erase hs _) hrest
        rw [List.filter_congr fun d hd => by rw [entryHere_resumeThread hs P c _ (hother d hd)]] at hstay hcalls
        rw [List.map_congr_left fun d hd => by
          rw [resumeValue_resumeThread hs P r _ (hother d (List.mem_of_mem_filter hd))]] at hcalls
        rw [wakeList_cons_due hhere hdue]
        exact ⟨by simp [hstay, hb, hdue], by simp [hcalls, hb, hdue]⟩
      | false =>
        obtain ⟨hstay, hcalls⟩ := ih W hs hrest
        rw [wakeList_cons_stays hhere hdue]
        exact ⟨by simp [hstay, hb, hdue], by simp [hcalls, hb, hdue]⟩
    · have hb : entryHere P c W e = false := by simp [entryHere, hhere]
      rw [wakeList_cons_elsewhere hhere]
      simpa [hb] using ih W hs hrest

/-- The due threads are those of the entries parked here whose threshold is reached. -/
theorem due_iff_mem_filter (P : Params) (c : Nat) (st : WakeStep) (es : List WaitEntry) (W : Scheduler) (u : Nat) :
    Due P c st es W u ↔
      u ∈ (es.filter fun e => entryHere P c W e && st.reached e.remaining).map WaitEntry.thread := by
  simp only [Due, entryHere, List.mem_map, List.mem_filter, Bool.and_eq_true, beq_iff_eq]
  constructor
  · rintro ⟨hhere, e, he, rfl, hdue⟩; exact ⟨e, ⟨he, hhere, hdue⟩, rfl⟩
  · rintro ⟨e, ⟨he, hhere, hdue⟩, rfl⟩; exact ⟨hhere, e, he, rfl, hdue⟩

/-- Settles O21: the list and the calls are `wakeList_of_nodup`'s, the waits are `wakeList_spec`'s. -/
theorem wakePassSortsEntries : Obligations.WakePassSortsEntries := by
  intro s c n hc hs hnodup w here due resumed t
  obtain ⟨hstay, hcalls⟩ := wakeList_of_nodup s.par c 0#32 (.frames n) w s.sched hs hnodup
  refine ⟨?_, ?_, fun u => ?_, fun d hd => ?_, rfl⟩
  · rw [getCh_wakeThreads, if_pos ⟨rfl, hc⟩]; exact hstay
  · have hresumes : (wakeList s.par c 0#32 (.frames n) w s.sched).2.2
        = resumed.map fun e => .resume e.thread (waitValue s.sched e.thread) := by
      simp only [hcalls, resumeValue_zero]; rfl
    rw [wakeThreads_calls, hresumes]
    cases resumed <;> simp [wakeCalls]
  · have hdue := due_iff_mem_filter s.par c (.frames n) w s.sched u
    obtain ⟨hyes, hno⟩ := wakeList_spec s.par c 0#32 (.frames n) w s.sched hs u
    by_cases hu : u ∈ resumed.map WaitEntry.thread
    · rw [if_pos hu]; exact (hyes (hdue.mpr hu)).1
    · rw [if_neg hu]; exact (hno (mt hdue.mp hu)).1
  · rw [getCh_wakeThreads, if_neg fun h => hd h.1.symm]

/-- Settles O22: after its resume the thread's wait id is 0, so its second entry is not parked here. -/
theorem secondEntryOfAThreadIsDropped : Obligations.SecondEntryOfAThreadIsDropped := by
  intro s c t n R R' v hc hs hR hlist hrec u
  have hhere : waitId s.sched t s.par.waitAudio = c + 1 := waitId_of_record hrec
  have hgone : waitId (resumeThread s.sched t v) t s.par.waitAudio ≠ c + 1 := by
    rw [waitId_resumeThread hs, if_pos rfl]; omega
  have hpass : wakeList s.par c 0#32 (.frames n) (getCh s c).waiting s.sched
      = ([], resumeThread s.sched t v, [.resume t v]) := by
    rw [hlist, wakeList_cons_due hhere ((reached_frames_iff n R).mpr hR), resumeValue_zero, waitValue_of_record hrec]
    simp only
    rw [wakeList_cons_elsewhere hgone]
    rfl
  refine ⟨?_, ?_, ?_⟩
  · rw [getCh_wakeThreads, if_pos ⟨rfl, hc⟩, hpass]
  · rw [wakeThreads_calls, hpass]; rfl
  · rw [wakeThreads_sched, hpass, resumeThread_waits hs, if_pos rfl]

/-! ## The drain of one thread -/

/-- `u` differs from `s` in nothing a drain of thread `t` at channel `c` reads, but that `left` frames remain. -/
structure Draining (s : State) (c t : Nat) (left : Int) (u : State) : Prop where
  par     : u.par = s.par
  length  : u.chs.length = s.chs.length
  sched   : u.sched = s.sched
  calls   : u.calls = s.calls
  waiting : (getCh u c).waiting = [{ thread := t, remaining := left }]

section
variable {s u : State} {c t n : Nat} {left : Int} {v : U32}

/-- Before its threshold the entry stays and nothing is called. -/
theorem Draining.pass (h : Draining s c t left u) (hc : c < s.chs.length)
    (hhere : waitId s.sched t s.par.waitAudio = c + 1) (hn : (n : Int) < left) :
    Draining s c t (left - n) (wakeThreads c 0#32 (.frames n) u) := by
  have hpass : wakeList u.par c 0#32 (.frames n) (getCh u c).waiting u.sched
      = ([{ thread := t, remaining := left - n }], s.sched, []) := by
    rw [h.waiting, h.par, h.sched, wakeList_cons_stays hhere (not_reached_frames hn)]
    rfl
  constructor
  · rw [wakeThreads_par, h.par]
  · rw [wakeThreads_chs, List.length_set, h.length]
  · rw [wakeThreads_sched, hpass]
  · rw [wakeThreads_calls, hpass, h.calls]; exact List.append_nil _
  · rw [getCh_wakeThreads, if_pos ⟨rfl, h.length ▸ hc⟩, hpass]

/-- The pass whose step reaches what is left empties the list and resumes the thread (R181). -/
theorem Draining.wakeList_last (h : Draining s c t left u)
    (hrec : cellsGet s.sched.waits t = some { category := s.par.waitAudio, key := c + 1, payload := v })
    (hn : left ≤ n) :
    wakeList u.par c 0#32 (.frames n) (getCh u c).waiting u.sched
      = ([], resumeThread s.sched t v, [.resume t v]) := by
  rw [h.waiting, h.par, h.sched, wakeList_cons_due (waitId_of_record hrec) ((reached_frames_iff n left).mpr hn),
    resumeValue_zero, waitValue_of_record hrec]
  rfl

/-- Passes whose cumulative step stays below `left` leave the difference. -/
theorem Draining.iterate (h : Draining s c t left s) (hc : c < s.chs.length)
    (hhere : waitId s.sched t s.par.waitAudio = c + 1) (j : Nat)
    (hbelow : ∀ k : Nat, 0 < k → k ≤ j → (k * n : Int) < left) :
    Draining s c t (left - j * n) ((wakeThreads c 0#32 (.frames n))^[j] s) := by
  induction j with
  | zero => simpa using h
  | succ j ih =>
    rw [Function.iterate_succ_apply']
    have hlast : ((j + 1 : Nat) * n : Int) < left := hbelow (j + 1) (by omega) (by omega)
    have hstep := (ih fun k hk hkj => hbelow k hk (by omega)).pass hc hhere (n := n) (by push_cast at hlast; linarith)
    rwa [show left - (j + 1 : Nat) * n = left - j * n - n by push_cast; ring]

end

/-- Settles O20, by induction on the passes (`Draining.iterate`). -/
theorem drainWakesExactlyAtThreshold : Obligations.DrainWakesExactlyAtThreshold := by
  intro s c t n R v j hc hlist hrec hs _ hbelow pass
  have hdrain := Draining.iterate ⟨rfl, rfl, rfl, rfl, hlist⟩ hc (waitId_of_record hrec) j hbelow
  refine ⟨hdrain.waiting, hdrain.sched, hdrain.calls, fun hreach => ?_⟩
  have hlast := hdrain.wakeList_last hrec (n := n) (by linarith)
  rw [Function.iterate_succ_apply']
  refine ⟨?_, ?_, ?_, ?_⟩
  · rw [getCh_wakeThreads, if_pos ⟨rfl, hdrain.length ▸ hc⟩, hlast]
  · rw [wakeThreads_calls, hlast, hdrain.calls]; rfl
  · rw [wakeThreads_sched, hlast, resumeThread_waits hs, if_pos rfl]
  · rw [wakeThreads_sched, hlast, resumeThread_delivered, if_pos rfl]

end Sys2Proof.Machine
end

section
/-! Proofs of the obligations of spec/43_mix_tick.md on TICK and HOSTPOLL (R182 to R189). -/

namespace Sys2Proof.Machine

open Sys2Proof

/-! ## The start of a tick -/

/-- The state the channels of a tick start from: the event rescheduled, ACC zeroed (R182, R183). -/
def tickStart (s : State) : State :=
  zeroAcc (evSchedule ((s.ctl.audioInterval : Int) - s.sig.lateIn) s.ctl.evAudio s)

@[simp] theorem tickStart_calls (s : State) : (tickStart s).calls =
    s.calls ++ [.schedule ((s.ctl.audioInterval : Int) - s.sig.lateIn) s.ctl.evAudio 0] := rfl
@[simp] theorem tickStart_ev (s : State) : (tickStart s).ev = { s.ev with pending := s.ev.pending ++
    [{ delay := (s.ctl.audioInterval : Int) - s.sig.lateIn, id := s.ctl.evAudio, userdata := 0 }] } := rfl
@[simp] theorem tickStart_acc (s : State) : (tickStart s).acc = some (List.replicate (2 * s.ctl.hbs) 0#32) := rfl

theorem exec_tick {s : State} (hr : Ready .tick s) (hh : s.held = true) :
    exec .tick s = andThen (mixChannels (List.range s.par.nch) (tickStart s)) pushBlock := by
  rw [exec_of_ready hr]
  exact needHeld_of_held (s := tickStart s) (fun s => andThen (mixChannels (List.range s.par.nch) s) pushBlock) hh

/-- A tick that answers a next state: its channels went through, then its block was pushed or dropped. -/
theorem exec_tick_eq_next {s t : State} (hr : Ready .tick s) (h : exec .tick s = .next t) :
    ∃ u, mixChannels (List.range s.par.nch) (tickStart s) = .next u ∧ pushBlock u = .next t := by
  rw [exec_of_ready hr] at h
  exact (tickBody_eq_next h).2

/-! ## The mix: the sum of the channels visited so far -/

/-- What channel `c` adds to slot `i` (R184, R187): the i-th oldest of the elements popped, if it is reserved. -/
def mixTerm (s : State) (i c : Nat) : Int :=
  if (getCh s c).reserved = true ∧ i < poppedCount s c then
    ((ringContents s.par.cqCap (getCh s c).queue).getD i 0#16).toInt
  else 0

/-- Slot `i` after the first `n` channels. -/
def mixSumUpTo (s : State) (n i : Nat) : Int := ((List.range n).map (mixTerm s i)).sum

theorem mixSumUpTo_nch (s : State) (i : Nat) : mixSumUpTo s s.par.nch i = mixSum s i := rfl

theorem mixSumUpTo_succ (s : State) (n i : Nat) : mixSumUpTo s (n + 1) i = mixSumUpTo s n i + mixTerm s i n := by
  simp [mixSumUpTo, List.range_succ]

theorem mixTerm_bounds (s : State) (i c : Nat) : -32768 ≤ mixTerm s i c ∧ mixTerm s i c ≤ 32767 := by
  unfold mixTerm
  split
  · exact s16_bounds _
  · decide

/-- R28: each channel adds at most one sample to a slot. -/
theorem mixSumUpTo_bounds (s : State) (n i : Nat) :
    -32768 * (n : Int) ≤ mixSumUpTo s n i ∧ mixSumUpTo s n i ≤ 32768 * (n : Int) := by
  induction n with
  | zero => simp [mixSumUpTo]
  | succ n ih =>
    have := mixTerm_bounds s i n
    rw [mixSumUpTo_succ]
    push_cast
    omega

theorem mixTerm_of_not_reserved {s : State} {c : Nat} (h : (getCh s c).reserved = false) (i : Nat) :
    mixTerm s i c = 0 := by
  simp [mixTerm, h]

/-- The elements a tick pops from channel `c` (R184). -/
def poppedBlock (s : State) (c : Nat) : List S16 :=
  (ringContents s.par.cqCap (getCh s c).queue).take (poppedCount s c)

/-- What a reserved channel adds, read off the elements popped from it. -/
theorem mixTerm_of_reserved {s : State} {c : Nat} (h : (getCh s c).reserved = true) (i : Nat) :
    mixTerm s i c = ((poppedBlock s c).getD i 0#16).toInt := by
  unfold mixTerm poppedBlock
  rw [List.getD_eq_getElem?_getD, List.getD_eq_getElem?_getD, List.getElem?_take]
  by_cases hi : i < poppedCount s c
  · rw [if_pos ⟨h, hi⟩, if_pos hi]
  · rw [if_neg fun h' => hi h'.2, if_neg hi]; rfl

/-- A slot holding `x` takes one more sample without leaving 32 bits. -/
def RoomForSample (x : Int) : Prop := -(2 ^ 31 - 2 ^ 15) ≤ x ∧ x ≤ 2 ^ 31 - 2 ^ 15

/-- R28 with at most 256 channels (R6): every slot takes the sample of every channel. -/
theorem mixSumUpTo_roomForSample (s : State) {n : Nat} (hn : n ≤ 255) (i : Nat) :
    RoomForSample (mixSumUpTo s n i) := by
  have := mixSumUpTo_bounds s n i
  unfold RoomForSample
  omega

/-- A sum that stays in 32 bits is exact (R184). -/
theorem toInt_add_signExtend (a : S32) (v : S16) (h : RoomForSample a.toInt) :
    (a + v.signExtend 32).toInt = a.toInt + v.toInt := by
  have := s16_bounds v
  unfold RoomForSample at h
  rw [BitVec.toInt_add, BitVec.toInt_signExtend_of_le (by decide), Int.bmod_eq_of_le] <;> simp <;> omega

/-- One slot gains its element, if there is one. -/
theorem addInto_getElem?_toInt (vs : List S16) {as : List S32} {i : Nat} {a : S32} (ha : as[i]? = some a)
    (hroom : RoomForSample a.toInt) :
    (addInto vs as)[i]?.map BitVec.toInt = some (a.toInt + (vs.getD i 0#16).toInt) := by
  rw [addInto_getElem?, ha, List.getD_eq_getElem?_getD]
  cases vs[i]? with
  | none => simp
  | some v => simp [toInt_add_signExtend a v hroom]

/-- Slot by slot the accumulator gains the elements, as long as no slot can leave 32 bits (R184, R28). -/
theorem map_toInt_addInto {vs : List S16} {as : List S32} {m : Nat} {f : Nat → Int}
    (has : as.map BitVec.toInt = (List.range m).map f) (hf : ∀ i, RoomForSample (f i)) :
    (addInto vs as).map BitVec.toInt = (List.range m).map fun i => f i + (vs.getD i 0#16).toInt := by
  have hlen : as.length = m := by simpa using congrArg List.length has
  refine List.ext_getElem? fun i => ?_
  by_cases hi : i < m
  · have hslot : as[i]?.map BitVec.toInt = some (f i) := by
      rw [← List.getElem?_map, has, List.getElem?_map, List.getElem?_range hi]; rfl
    obtain ⟨a, ha, hai⟩ := Option.map_eq_some_iff.mp hslot
    rw [List.getElem?_map, addInto_getElem?_toInt vs ha (hai ▸ hf i), hai, List.getElem?_map, List.getElem?_range hi]
    rfl
  · simp [hi, hlen]

/-! ## The mix, channel by channel -/

/-- No elements, no change. -/
@[simp] theorem addInto_nil : addInto [] = id := funext fun as => by cases as <;> rfl

/-- What a tick does to the queue of channel `c` (R184): `Drained`, for one channel. -/
def DrainedAt (s t : State) (c : Nat) : Prop :=
  ((getCh s c).reserved = true → ringContents s.par.cqCap (getCh t c).queue
      = (ringContents s.par.cqCap (getCh s c).queue).drop (poppedCount s c))
  ∧ ((getCh s c).reserved = false → getCh t c = getCh s c)

/-- What channel `c` adds and loses depends on its record, the parameters and HBS only. -/
theorem mixTerm_congr {s u : State} {c : Nat} (hpar : u.par = s.par) (hctl : u.ctl = s.ctl)
    (hk : getCh u c = getCh s c) (i : Nat) : mixTerm u i c = mixTerm s i c := by
  rw [mixTerm, mixTerm, poppedCount, poppedCount, hpar, hctl, hk]

theorem drainedAt_congr {s u t : State} {c : Nat} (hpar : u.par = s.par) (hctl : u.ctl = s.ctl)
    (hk : getCh u c = getCh s c) : DrainedAt u t c ↔ DrainedAt s t c := by
  simp only [DrainedAt, poppedCount, hpar, hctl, hk]

/-- R184 on a reserved channel: `m_c` elements leave its queue and go into ACC. -/
theorem mixChannel_pops {c : Nat} {s t : State} (hc : c < s.chs.length) (hr : (getCh s c).reserved = true)
    (hw : ringWf s.par.cqCap (getCh s c).queue = true) (h : mixChannel c s = .next t) :
    ringContents s.par.cqCap (getCh t c).queue = (ringContents s.par.cqCap (getCh s c).queue).drop (poppedCount s c)
    ∧ t.acc = s.acc.map (addInto (poppedBlock s c)) := by
  have hqueue : (getCh (wakeThreads c 0#32 (.frames s.ctl.hbs) s) c).queue = (getCh s c).queue := by
    rw [getCh_wakeThreads, if_pos ⟨rfl, hc⟩]
  unfold poppedBlock
  rcases mixChannel_cases c s with ⟨hr', -⟩ | ⟨-, hempty, e⟩ | ⟨-, vs, q, hpop, e⟩
  · rw [hr] at hr'; cases hr'
  · rw [hqueue] at hempty
    rw [e] at h; cases h
    have hnone : ringContents s.par.cqCap (getCh s c).queue = [] :=
      List.eq_nil_of_length_eq_zero (by rw [ringContents_length, hempty])
    simp [hqueue, hnone]
  · rw [hqueue] at hpop
    rw [e] at h; cases h
    obtain ⟨hvs, hq⟩ := popN_contents hw hpop
    rw [getCh_addToAcc, getCh_setCh_self _ (by simpa using hc)]
    exact ⟨hq, by rw [addToAcc_acc, hvs]; rfl⟩

/-- R184 on any channel: ACC gains its terms, exactly while 32 bits suffice, and its queue is drained. -/
theorem mixChannel_mixes {c m : Nat} {s t : State} {a : List S32} {f : Nat → Int} (hc : c < s.chs.length)
    (hw : ringWf s.par.cqCap (getCh s c).queue = true) (ha : s.acc = some a)
    (haf : a.map BitVec.toInt = (List.range m).map f) (hf : ∀ i, RoomForSample (f i))
    (h : mixChannel c s = .next t) :
    (∃ b, t.acc = some b ∧ b.map BitVec.toInt = (List.range m).map fun i => f i + mixTerm s i c)
    ∧ DrainedAt s t c := by
  cases hr : (getCh s c).reserved with
  | true =>
    obtain ⟨hq, hacc⟩ := mixChannel_pops hc hr hw h
    rw [ha] at hacc
    refine ⟨⟨_, hacc, ?_⟩, ⟨fun _ => hq, fun hr' => absurd (hr.symm.trans hr') (by decide)⟩⟩
    simp only [map_toInt_addInto haf hf, mixTerm_of_reserved hr]
  | false =>
    obtain rfl : t = s := by rw [mixChannel, if_pos hr] at h; cases h; rfl
    refine ⟨⟨a, ha, ?_⟩, ⟨fun hr' => absurd (hr.symm.trans hr') (by decide), fun _ => rfl⟩⟩
    simp only [haf, mixTerm_of_not_reserved hr, Int.add_zero]

/-- Where the mix of a tick from `s` stands after its first `n` channels (R184, R185). -/
structure MixedUpTo (s : State) (n : Nat) (t : State) : Prop where
  frame   : t = { s with chs := t.chs, sched := t.sched, calls := t.calls, ev := t.ev, acc := t.acc }
  length  : t.chs.length = s.chs.length
  rest    : ∀ c, n ≤ c → getCh t c = getCh s c
  acc     : ∃ a, t.acc = some a ∧ a.map BitVec.toInt = (List.range (2 * s.ctl.hbs)).map (mixSumUpTo s n)
  drained : ∀ c, c < n → DrainedAt s t c

/-- Zeroed slots are the empty sums (R183). -/
theorem mixedUpTo_tickStart (s : State) : MixedUpTo s 0 (tickStart s) where
  frame := rfl
  length := rfl
  rest _ _ := rfl
  acc := ⟨_, tickStart_acc s, List.ext_getElem (by simp) fun i _ _ => by simp [mixSumUpTo]⟩
  drained _ h := absurd h (Nat.not_lt_zero _)

/-- One more channel. -/
theorem MixedUpTo.step {s u v : State} {c : Nat} (h : MixedUpTo s c u) (hc : c < s.chs.length)
    (hw : ringWf s.par.cqCap (getCh s c).queue = true) (hsmall : c ≤ 255) (hm : mixChannel c u = .next v) :
    MixedUpTo s (c + 1) v := by
  obtain ⟨hframe, hlength, hother, -, -⟩ := mixChannel_eq_next hm
  have hpar : u.par = s.par := by rw [h.frame]
  have hctl : u.ctl = s.ctl := by rw [h.frame]
  have hk : getCh u c = getCh s c := h.rest c (Nat.le_refl c)
  obtain ⟨a, ha, hsum⟩ := h.acc
  obtain ⟨hacc, hdrained⟩ := mixChannel_mixes (h.length ▸ hc) (by rw [hpar, hk]; exact hw) ha hsum
    (mixSumUpTo_roomForSample s hsmall) hm
  simp only [mixTerm_congr hpar hctl hk] at hacc
  rw [drainedAt_congr hpar hctl hk] at hdrained
  refine ⟨by rw [hframe, h.frame], hlength.trans h.length, fun d hd => ?_, ?_, fun d hd => ?_⟩
  · rw [hother d (by omega)]; exact h.rest d (by omega)
  · rw [show mixSumUpTo s (c + 1) = _ from funext (mixSumUpTo_succ s c)]; exact hacc
  · by_cases hdc : d = c
    · rw [hdc]; exact hdrained
    · unfold DrainedAt; rw [hother d hdc]; exact h.drained d (by omega)

theorem Params.chMax_le {P : Params} (h : P.wf = true) : P.chMax ≤ 255 := by
  simp only [Params.wf, Bool.and_eq_true, decide_eq_true_eq] at h
  omega

/-- R184: the channels of a tick go through, mix and drain; what is left is the push of the block. -/
theorem exec_tick_mixes {s : State} (hr : Ready .tick s) (hh : s.held = true) (hI : s.Inv) :
    ∃ u, MixedUpTo s s.par.nch u ∧ exec .tick s = pushBlock u := by
  obtain ⟨u, hmix⟩ := mixChannels_total (List.range s.par.nch) (tickStart s)
  refine ⟨u, mixChannels_range_induct (mixedUpTo_tickStart s) (fun c v w hc hv hm => ?_) hmix, ?_⟩
  · have hlen : c < s.chs.length := hI.channels ▸ hc
    obtain ⟨hwf, -⟩ := channelWf_iff.mp (hI.heldChannel hh _ (getCh_mem hlen))
    exact hv.step hlen hwf ((Nat.le_of_lt_succ hc).trans (Params.chMax_le hI.params)) hm
  · rw [exec_tick hr hh, hmix, andThen_next]

/-- The clamped accumulator is the block of R187. -/
theorem map_clampSlot_eq_mixedBlock {s : State} {a : List S32}
    (h : a.map BitVec.toInt = (List.range (2 * s.ctl.hbs)).map (mixSum s)) : a.map clampSlot = mixedBlock s := by
  have := congrArg (List.map fun v => BitVec.ofInt 16 (clamp16 v)) h
  rwa [List.map_map, List.map_map] at this

/-- R186 at the end of the mix: the block of R187 is pushed where there is room, else dropped with OUT_OVF set. -/
theorem MixedUpTo.pushBlock_cases {s u : State} (h : MixedUpTo s s.par.nch u) :
    (2 * s.ctl.hbs ≤ s.par.oqCap - s.outq.count ∧ ∃ q, pushN s.par.oqCap s.outq (mixedBlock s) = .ok q
      ∧ pushBlock u = .next (answer .ok false 0#32 { u with outq := q }))
    ∨ (s.par.oqCap - s.outq.count < 2 * s.ctl.hbs
      ∧ pushBlock u = .next (answer .ok false 0#32 (setOutOvf u))) := by
  obtain ⟨a, ha, hsum⟩ := h.acc
  have hctl : u.ctl = s.ctl := by rw [h.frame]
  have hpar : u.par = s.par := by rw [h.frame]
  have hout : u.outq = s.outq := by rw [h.frame]
  have hlen : a.length = 2 * u.ctl.hbs := by simpa [hctl] using congrArg List.length hsum
  rw [← map_clampSlot_eq_mixedBlock hsum, ← hctl, ← hpar, ← hout]
  exact Machine.pushBlock_cases ha hlen

/-- Settles O31: the mix ends in `MixedUpTo`, and its block is pushed onto OUTQ. -/
theorem tickAppendsMixedBlock : Obligations.TickAppendsMixedBlock := by
  intro s hr hh hI hroom
  obtain ⟨u, hu, hexec⟩ := exec_tick_mixes hr hh hI
  have hovf : u.outOvf = s.outOvf := by rw [hu.frame]
  obtain ⟨hwf, -⟩ := hI.heldOut hh
  rcases hu.pushBlock_cases with ⟨-, q, hq, hpush⟩ | ⟨hfull, -⟩
  · exact ⟨_, hexec.trans hpush, rfl, pushN_contents hwf hq, hu.acc, hu.drained, hovf⟩
  · omega

/-- Settles O32: the mix and the drain are those of O31, the block is dropped. -/
theorem tickWithoutRoomDropsBlock : Obligations.TickWithoutRoomDropsBlock := by
  intro s hr hh hI hfull
  obtain ⟨u, hu, hexec⟩ := exec_tick_mixes hr hh hI
  have hout : u.outq = s.outq := by rw [hu.frame]
  rcases hu.pushBlock_cases with ⟨hroom, -⟩ | ⟨-, hpush⟩
  · omega
  · exact ⟨_, hexec.trans hpush, rfl, hout, rfl, hu.drained⟩

/-! ## The wakes of a tick -/

/-- The calls of a pass: its resumes, and the reschedule if there was one (R181, R255). -/
theorem mem_wakeCalls {rs : List Call} {x : Call} :
    x ∈ wakeCalls rs ↔ x ∈ rs ∨ x = .reschedule ∧ rs ≠ [] := by
  cases rs <;> simp [wakeCalls, or_assoc]

/-- The calls of one channel's wake resume threads due on it, each with its payload, or ask for the reschedule. -/
theorem mem_tickWakeCalls {s : State} {c : Nat} {x : Call} (hs : cellsSorted s.sched.waits)
    (h : x ∈ tickWakeCalls s c) : x = .reschedule ∨ ∃ u, DueOn s c u ∧ x = .resume u (waitValue s.sched u) := by
  unfold tickWakeCalls at h
  split at h
  · next hr =>
    rw [mem_wakeCalls] at h
    rcases h with h | ⟨rfl, -⟩
    · obtain ⟨u, hu, rfl⟩ := mem_wakeList_calls hs h
      exact .inr ⟨u, (dueOn_iff s c u).mpr ⟨hr, hu⟩, by rw [resumeValue_zero]⟩
    · exact .inl rfl
  · cases h

/-- A thread due on a channel is resumed there once. -/
theorem count_tickWakeCalls_of_dueOn {s : State} {c u : Nat} (hs : cellsSorted s.sched.waits) (h : DueOn s c u) :
    (tickWakeCalls s c).count (.resume u (waitValue s.sched u)) = 1 := by
  obtain ⟨hr, hdue⟩ := (dueOn_iff s c u).mp h
  obtain ⟨-, -, honce⟩ := (wakeList_spec s.par c 0#32 (.frames s.ctl.hbs) (getCh s c).waiting s.sched hs u).1 hdue
  rw [tickWakeCalls, if_pos hr, count_resume_wakeCalls, ← resumeValue_zero s.par, honce]

/-- A thread is parked on one channel only (R250). -/
theorem DueOn.channel_unique {s : State} {c d u : Nat} (hc : DueOn s c u) (hd : DueOn s d u) : c = d := by
  obtain ⟨-, hparked, -⟩ := hc
  obtain ⟨-, hparked', -⟩ := hd
  exact Nat.succ.inj (hparked.symm.trans hparked')

/-- So it is resumed once by the whole tick. -/
theorem count_callsOfTickWakes {s : State} {u : Nat} (hs : cellsSorted s.sched.waits) (h : DueAtTick s u) :
    (callsOfTickWakes s).count (.resume u (waitValue s.sched u)) = 1 := by
  obtain ⟨c, hc, hdue⟩ := h
  have hother : ∀ d, d ≠ c → d ∈ List.range s.par.nch →
      (tickWakeCalls s d).count (.resume u (waitValue s.sched u)) = 0 := by
    intro d hdc _
    refine List.count_eq_zero_of_not_mem fun hmem => ?_
    rcases mem_tickWakeCalls hs hmem with hx | ⟨w, hw, hx⟩
    · cases hx
    · cases hx; exact hdc (hw.channel_unique hdue)
  calc (callsOfTickWakes s).count (.resume u (waitValue s.sched u))
      = ((List.range s.par.nch).map fun d => (tickWakeCalls s d).count (.resume u (waitValue s.sched u))).sum :=
        List.count_flatMap
    _ = (List.range s.par.nch).count c • (tickWakeCalls s c).count (.resume u (waitValue s.sched u)) :=
        List.sum_map_eq_nsmul_single c _ hother
    _ = 1 := by
        rw [count_tickWakeCalls_of_dueOn hs hdue, List.count_eq_one_of_mem List.nodup_range (List.mem_range.mpr hc)]
        rfl

/-- Settles O33: `TickUpTo` after the last channel, from the state in which the tick is rescheduled. -/
theorem tickReschedulesThenWakes : Obligations.TickReschedulesThenWakes := by
  intro s t hr hI h
  obtain ⟨u, hmix, hpush⟩ := exec_tick_eq_next hr h
  have hu : TickUpTo (tickStart s) s.par.nch u :=
    tickUpTo_all (s := tickStart s) (Nat.le_of_eq hI.channels.symm) hI.waits hI.delivered hmix
  obtain ⟨hframe, -, -, -⟩ := pushBlock_eq_next hpush
  have hcalls : t.calls = u.calls := by rw [hframe]
  have hsched : t.sched = u.sched := by rw [hframe]
  have hev : t.ev = u.ev := by rw [hframe]
  have hchs : t.chs = u.chs := by rw [hframe]
  rw [hcalls, hsched, hev]
  refine ⟨?_, fun x hx => ?_, fun w hw => count_callsOfTickWakes hI.waits hw, ?_, ?_, hu.ev, fun c hc hres => ?_⟩
  · rw [hu.calls, tickStart_calls, List.append_assoc]; rfl
  · obtain ⟨c, hc, hx⟩ := List.mem_flatMap.mp hx
    rcases mem_tickWakeCalls hI.waits hx with hx | ⟨w, hw, hx⟩
    · exact .inl hx
    · exact .inr ⟨w, ⟨c, List.mem_range.mp hc, hw⟩, hx⟩
  · rintro w ⟨c, hc, hw⟩; exact hu.due c w hc hw
  · exact fun w hw => hu.other w fun c hc hdue => hw ⟨c, hc, hdue⟩
  · rw [getCh_congr hchs]; exact hu.waiting c hc hres

/-! ## The frame of a tick -/

/-- The channels keep their registers, and of the event scheduler only the one occurrence is new (R182, R184). -/
theorem tickBody_channels {s t : State} (h : tickBody s = .next t) :
    t.chs.length = s.chs.length ∧ (∀ c, SameRegisters (getCh s c) (getCh t c)) ∧ t.ev = (tickStart s).ev := by
  obtain ⟨-, u, hmix, hpush⟩ := tickBody_eq_next h
  obtain ⟨hframe, hlength, hregs, -⟩ := mixChannels_eq_next hmix
  obtain ⟨hpframe, -, -, -⟩ := pushBlock_eq_next hpush
  have hchs : t.chs = u.chs := by rw [hpframe]
  refine ⟨by rw [hchs]; exact hlength, fun c => by rw [getCh_congr hchs]; exact hregs c, ?_⟩
  rw [hpframe, hframe]; rfl

/-- Settles O34: a command turned away changes nothing but the response; else the frame is the body's. -/
theorem tickFrame : Obligations.TickFrame := by
  intro s t h
  rcases exec_eq_next h with ⟨st, rfl, -⟩ | ⟨-, -, hbody⟩
  · exact ⟨rfl, rfl, fun _ => rfl, rfl, rfl, rfl, id, fun _ => rfl⟩
  · obtain ⟨hframe, hhead, hsticky, -⟩ := tickBody_frame hbody
    obtain ⟨hlength, hregs, hev⟩ := tickBody_channels hbody
    have hmem : t.mem = s.mem := by rw [hframe]
    exact ⟨hframe, hlength, hregs, hhead, by rw [hev]; rfl, by rw [hev]; rfl, hsticky, fun a => by rw [hmem]⟩

/-! ## HOSTPOLL -/

/-- Settles O35: the whole state is the body's, behind the checks. -/
theorem hostpollReschedulesAndPolls : Obligations.HostpollReschedulesAndPolls :=
  ⟨fun _ hr => exec_of_ready hr, decode_of_encode_eq (by decide)⟩

end Sys2Proof.Machine
end

section
/-! Proofs of the obligations of spec/44_host_pull.md on PULL (R200 to R203). -/

namespace Sys2Proof.Machine

open Sys2Proof

/-! ## What a PULL moves -/

/-- Accepted on a block that is up and free of lifecycle commands, PULL is its own rule (R76, R201). -/
theorem exec_pull {n : U32} {s : State} (hr : Ready (.pull n) s) (hh : s.held = true) (hidle : s.sig.during = none) :
    exec (.pull n) s = pullBody n s := by
  have hquiet : ¬ s.sig.during.isSome = true := by simp [hidle]
  rw [exec_of_ready hr, bodyOf, if_neg hquiet, needHeld_of_held _ hh]

/-- The frames written are at most the frames asked for, so their number fits the response's value (R201). -/
theorem toNat_framesWritten (count : Nat) (n : U32) :
    (BitVec.ofNat 32 (min count (2 * n.toNat) / 2)).toNat = min count (2 * n.toNat) / 2 := by
  have hfits : min count (2 * n.toNat) / 2 < 2 ^ 32 := by
    have := n.isLt
    omega
  rw [BitVec.toNat_ofNat, Nat.mod_eq_of_lt hfits]

/-- Settles O36: the elements PULL writes are the ones it pops, and a pop reads and removes the oldest (R123). -/
theorem pullMovesOldestFrames : Obligations.PullMovesOldestFrames := by
  intro s n hr hh hidle hwf _ m vs
  refine ⟨_, toNat_framesWritten s.outq.count n, ?_⟩
  obtain ⟨ws, q, hpop, hbody⟩ := pullBody_eq n s
  obtain ⟨-, -, hq⟩ := popN_cursors hpop
  obtain ⟨hws, hleft⟩ := popN_contents hwf hpop
  have hlen : ws.length = m := popN_length hwf hpop
  subst hq
  refine ⟨?_, hleft⟩
  rw [exec_pull hr hh hidle, hbody, hostWrites, hlen, hws]
  rfl

/-! ## The frame of a PULL -/

/-- PULL's rule pops OUTQ, makes one write to the host and answers, and does nothing else (R201, R203). -/
theorem pullBody_frame {n : U32} {s t : State} (h : pullBody n s = .next t) :
    t = { s with outq := { s.outq with head := t.outq.head, count := t.outq.count },
                 sig := { s.sig with hostBuf := t.sig.hostBuf }, calls := t.calls, resp := t.resp }
    ∧ ∃ vs, t.calls = s.calls ++ [.hostWrite vs] := by
  obtain ⟨vs, q, v, hpop, rfl⟩ := pullBody_eq_next h
  obtain ⟨-, -, rfl⟩ := popN_cursors hpop
  exact ⟨rfl, vs, rfl⟩

/-- Settles O37: a PULL turned away changes only the response; one beside a lifecycle command has no next state
(R76); else the frame is the rule's. -/
theorem pullFrame : Obligations.PullFrame := by
  intro s t n h
  rcases exec_eq_next h with ⟨st, rfl, -⟩ | ⟨-, -, hbody⟩
  · exact ⟨rfl, .inl rfl, fun _ => rfl⟩
  · simp only [bodyOf] at hbody
    split at hbody
    · cases hbody
    · obtain ⟨hframe, hcalls⟩ := pullBody_frame (needHeld_eq_next hbody).2
      have hmem : t.mem = s.mem := by rw [hframe]
      exact ⟨hframe, .inr hcalls, fun a => by rw [hmem]⟩

end Sys2Proof.Machine
end

section
/-! Proofs of the obligations of spec/45_lifecycle.md: the commands that set or read registers (R213, R214, R224), SAVE
and LOAD (R215 to R221), INIT and SHUTDOWN with their force-wake (R210 to R212), and the commands in unspecified state
(R219). -/

namespace Sys2Proof.Machine

open Sys2Proof

/-! ## CLKCHG, SETFREQ, RDSTAT -/

/-- Settles O42: the whole state is the body's, behind the checks. -/
theorem clockChangeRecomputesIntervals : Obligations.ClockChangeRecomputesIntervals :=
  ⟨fun _ hr => exec_of_ready hr, decode_of_encode_eq rfl⟩

/-- Settles O43, as O42. -/
theorem setFreqStoresOutfreq : Obligations.SetFreqStoresOutfreq :=
  ⟨fun _ _ hr => exec_of_ready hr, decode_of_encode_eq rfl⟩

/-- Settles O45, as O42. -/
theorem rdstatReadsStatus : Obligations.RdstatReadsStatus :=
  ⟨fun _ hr => exec_of_ready hr, decode_of_encode_eq rfl⟩

/-! ## SAVE and LOAD -/

/-- R216: SAVE of values that are held answers the snapshot. -/
theorem exec_save {s : State} (hr : Ready .save s) (hh : s.held = true) :
    exec .save s = .next (answer .ok false 0#32 { s with snapOut := some (snapshotOf s) }) := by
  rw [exec_of_ready hr, bodyOf, needHeld_of_held _ hh]; rfl

/-- R216, R219: a SAVE that answers found values to save. -/
theorem exec_save_eq_next {s t : State} (hr : Ready .save s) (h : exec .save s = .next t) :
    s.held = true ∧ t = answer .ok false 0#32 { s with snapOut := some (snapshotOf s) } := by
  rw [exec_of_ready hr, bodyOf] at h
  obtain ⟨hh, hanswer⟩ := needHeld_eq_next h
  exact ⟨hh, respond_eq_next hanswer⟩

/-- Settles O46: `exec_save`, the snapshot written out. -/
theorem saveSnapshotsPersistedState : Obligations.SaveSnapshotsPersistedState :=
  ⟨fun _ hr hh => exec_save hr hh, decode_of_encode_eq rfl⟩

/-- R218: with this block's constants LOAD goes on to ask whether SAVE could have produced the record. -/
theorem loadBody_of_compatible {s : State} (hc : s.sig.snapIn.compatible s.par = true) :
    loadBody s = if s.sig.snapIn.wf s.par = false then .fault (.badSnapshot s.calls)
      else respond .ok 0#32 (registerEvents
        { s with chs := s.sig.snapIn.channels, outq := s.sig.snapIn.outq, held := true }) :=
  if_neg (by simp [hc])

/-- Settles O47: both events are registered after the channels and OUTQ were put in place. -/
theorem loadRestoresPersistedState : Obligations.LoadRestoresPersistedState := by
  intro s hr hc hw
  have hpossible : ¬ s.sig.snapIn.wf s.par = false := by simp [hw]
  rw [exec_of_ready hr, bodyOf, loadBody_of_compatible hc, if_neg hpossible]
  rfl

/-- Settles O48: LOAD's second question is answered no. -/
theorem loadOfImpossibleRecordFaults : Obligations.LoadOfImpossibleRecordFaults := by
  intro s hr hc hw
  rw [exec_of_ready hr, bodyOf, loadBody_of_compatible hc, if_pos hw]

/-- Settles O49: what is not persisted is not in `forgetPersisted`'s update. -/
theorem incompatibleLoadLeavesUnspecified : Obligations.IncompatibleLoadLeavesUnspecified := fun s hr hc =>
  ⟨answer .incompat false 0#32 (forgetPersisted s), (exec_of_ready hr).trans (if_pos hc), rfl, rfl, rfl⟩

theorem snapshotOf_compatible (s : State) : (snapshotOf s).compatible s.par = true := by
  simp [Snapshot.compatible, snapshotOf]

/-- Under the invariant SAVE produces a record that LOAD takes (R216, R218). -/
theorem snapshotOf_wf {s : State} (hI : s.Inv) (hh : s.held = true) : (snapshotOf s).wf s.par = true :=
  Snapshot.wf_iff.mpr ⟨hI.channels, hI.heldChannel hh, hI.heldOut hh⟩

/-- A command without a channel, on its port while the block is up. -/
theorem ready_of_plain {i : Instr} {s : State} (hw : i.wellFormed = true) (hport : s.sig.port = portOf i)
    (hc : channelOf i = none) (hup : s.up = true) : Ready i s :=
  ⟨(legal_iff i s).mp (legal_of_plain hw hport hc), hup⟩

/-- Settles O51: the record is the snapshot of the state, so what LOAD puts in place is what stood there. -/
theorem saveThenLoadRoundTrips : Obligations.SaveThenLoadRoundTrips := by
  intro s t p rest x hI hup hport hsave hx hpport hpx
  obtain ⟨hh, rfl⟩ := exec_save_eq_next (ready_of_plain rfl hport rfl hup) hsave
  obtain rfl : snapshotOf s = x := Option.some.inj hx
  have hr : Ready .load (presented p rest (answer .ok false 0#32 { s with snapOut := some (snapshotOf s) })) :=
    ready_of_plain rfl hpport rfl hup
  refine ⟨_, loadRestoresPersistedState _ hr ?_ ?_, rfl, ?_, ?_, rfl, hup, rfl, rfl, rfl, rfl, rfl, rfl⟩
  · exact hpx ▸ snapshotOf_compatible s
  · exact hpx ▸ snapshotOf_wf hI hh
  · exact congrArg Snapshot.channels hpx
  · exact congrArg Snapshot.outq hpx

/-! ## Clearing every channel -/

/-- What holds for no channel, and with each channel done holds for one more, holds for all of them. -/
theorem forChannels_range_induct {f : Nat → State → State} {P : Nat → State → Prop} {s : State} (h0 : P 0 s)
    (hf : ∀ c t, c < s.par.nch → P c t → P (c + 1) (f c t)) : P s.par.nch (forChannels f s) := by
  have upTo : ∀ n, n ≤ s.par.nch → P n ((List.range n).foldl (fun s c => f c s) s) := by
    intro n
    induction n with
    | zero => exact fun _ => h0
    | succ n ih =>
      intro hn
      rw [List.range_succ, List.foldl_append]
      exact hf n _ hn (ih (by omega))
  exact upTo _ (Nat.le_refl _)

/-- The scheduler answers for a thread from its wait record alone (R253, R254). -/
theorem waitId_congr {W W' : Scheduler} {u : Nat} (h : cellsGet W.waits u = cellsGet W'.waits u) (cat : Nat) :
    waitId W u cat = waitId W' u cat := by
  unfold waitId; rw [h]

theorem waitValue_congr {W W' : Scheduler} {u : Nat} (h : cellsGet W.waits u = cellsGet W'.waits u) :
    waitValue W u = waitValue W' u := by
  unfold waitValue; rw [h]

/-- A thread waits on one channel only (R250). -/
theorem Waits.channel_unique {s : State} {c d u : Nat} (hc : Waits s c u) (hd : Waits s d u) : c = d := by
  obtain ⟨-, hparked⟩ := hc
  obtain ⟨-, hparked'⟩ := hd
  exact Nat.succ.inj (hparked.symm.trans hparked')

/-- A call of a channel clear: a resume with the clear's code, or a reschedule (R148, R181, R255). -/
def ClearCall (s : State) (x : Call) : Prop := x = .reschedule ∨ ∃ u, x = .resume u (clearCode s u)

/-- The calls of the clear of channel `c` (R148, R181). -/
theorem mem_clearWake_calls {s : State} {c : Nat} {x : Call} (hs : cellsSorted s.sched.waits)
    (h : x ∈ wakeCalls (clearWake s c).2.2) : x = .reschedule ∨ ∃ u, Waits s c u ∧ x = .resume u (clearCode s u) := by
  rcases mem_wakeCalls.mp h with h | ⟨rfl, -⟩
  · obtain ⟨u, hdue, rfl⟩ := mem_wakeList_calls hs h
    exact .inr ⟨u, (due_infinity_iff_waits s c u).mp hdue, rfl⟩
  · exact .inl rfl

/-- The state `t` when the channels below `n` of `s` are cleared: their waiters are woken, the other channels are as
they were. -/
structure ClearedUpTo (s : State) (n : Nat) (t : State) : Prop where
  par    : t.par = s.par
  later  : ∀ c, n ≤ c → getCh t c = getCh s c
  sorted : cellsSorted t.sched.waits ∧ cellsSorted t.sched.delivered
  calls  : ∃ made, t.calls = s.calls ++ made ∧ ∀ x ∈ made, ClearCall s x
  woken  : ForceWoken (fun u => ∃ c, c < n ∧ Waits s c u) s t

namespace ClearedUpTo

variable {s t : State} {c u : Nat}

/-- Who waits on channel `c` does not wait below it, so the clears so far left the thread's wait record alone. -/
theorem record_of_waits (h : ClearedUpTo s c t) (hu : Waits s c u) :
    cellsGet t.sched.waits u = cellsGet s.sched.waits u :=
  ((h.woken u).2 fun ⟨_, hd, hw⟩ => hd.ne (hw.channel_unique hu)).1

/-- The clears so far neither add nor take away a waiter of the next channel. -/
theorem waits_iff (h : ClearedUpTo s c t) (u : Nat) : Waits t c u ↔ Waits s c u := by
  have hentry : (∃ e ∈ (getCh t c).waiting, e.thread = u) ↔ ∃ e ∈ (getCh s c).waiting, e.thread = u := by
    rw [h.later c (Nat.le_refl c)]
  refine and_congr hentry ?_
  unfold ParkedHere
  rw [h.par]
  by_cases hearlier : ∃ d, d < c ∧ Waits s d u
  · have hgone : cellsGet t.sched.waits u = none := ((h.woken u).1 hearlier).1
    obtain ⟨d, hd, -, hparked⟩ := hearlier
    have hzero : waitId t.sched u s.par.waitAudio = 0 := by simp [waitId, hgone]
    rw [hzero, show waitId s.sched u s.par.waitAudio = d + 1 from hparked]
    omega
  · rw [waitId_congr ((h.woken u).2 hearlier).1]

/-- What a waiter of the next channel will receive is what it would have received at the start. -/
theorem clearCode_eq (h : ClearedUpTo s c t) (hu : Waits s c u) : clearCode t u = clearCode s u := by
  unfold clearCode
  rw [h.par, waitValue_congr (h.record_of_waits hu)]

/-- The waiters of the next channel are woken as well. -/
theorem woken_step (h : ClearedUpTo s c t) :
    ForceWoken (fun u => ∃ d, d < c + 1 ∧ Waits s d u) s (channelClear c t) := by
  intro u
  obtain ⟨hwoken, huntouched⟩ := h.woken u
  obtain ⟨hwaiter, hother⟩ := clearWake_spec c u h.sorted.1
  rw [h.waits_iff] at hwaiter hother
  by_cases hu : Waits s c u
  · obtain ⟨hwaits, hdelivered, -⟩ := hwaiter hu
    rw [h.clearCode_eq hu] at hdelivered
    exact ⟨fun _ => ⟨hwaits, hdelivered⟩, fun hnone => absurd ⟨c, Nat.lt_succ_self c, hu⟩ hnone⟩
  · obtain ⟨hwaits, hdelivered, -⟩ := hother hu
    have hiff : (∃ d, d < c + 1 ∧ Waits s d u) ↔ ∃ d, d < c ∧ Waits s d u :=
      Nat.exists_lt_succ_right.trans (or_iff_left hu)
    rw [channelClear_eq]
    simp only [hiff, hwaits, hdelivered]
    exact ⟨hwoken, huntouched⟩

/-- The clear of the next channel. -/
theorem step (h : ClearedUpTo s c t) : ClearedUpTo s (c + 1) (channelClear c t) where
  par := h.par
  later d hd := by
    rw [channelClear_eq]
    exact (getCh_setCh_ne t _ (by omega)).trans (h.later d (by omega))
  sorted := wakeList_sorted _ _ _ _ _ _ h.sorted.1 h.sorted.2
  calls := by
    obtain ⟨made, hmade, hall⟩ := h.calls
    refine ⟨made ++ wakeCalls (clearWake t c).2.2, ?_, fun x hx => ?_⟩
    · rw [channelClear_eq, ← List.append_assoc, ← hmade]
    · rcases List.mem_append.mp hx with hx | hx
      · exact hall x hx
      · rcases mem_clearWake_calls h.sorted.1 hx with rfl | ⟨u, hu, rfl⟩
        · exact .inl rfl
        · exact .inr ⟨u, by rw [h.clearCode_eq ((h.waits_iff u).mp hu)]⟩
  woken := h.woken_step

end ClearedUpTo

/-- R148 over all channels, as INIT and SHUTDOWN run it (R210, R212): every record is reset, every waiter woken. -/
theorem channelClear_all_eq {s : State} (hl : s.chs.length = s.par.nch) (hw : cellsSorted s.sched.waits)
    (hd : cellsSorted s.sched.delivered) : ∃ (σ : Scheduler) (made : List Call),
    forChannels channelClear s = { s with chs := s.chs.map resetChannel, sched := σ, calls := s.calls ++ made }
      ∧ (∀ x ∈ made, ClearCall s x)
      ∧ ForceWoken (fun u => ∃ c, c < s.par.nch ∧ Waits s c u) s { s with sched := σ } := by
  have hnone : ClearedUpTo s 0 s := {
    par := rfl
    later := fun _ _ => rfl
    sorted := ⟨hw, hd⟩
    calls := ⟨[], (List.append_nil _).symm, fun _ h => by cases h⟩
    woken := fun _ => ⟨fun ⟨_, hc, _⟩ => absurd hc (Nat.not_lt_zero _), fun _ => ⟨rfl, rfl⟩⟩ }
  have hall : ClearedUpTo s s.par.nch (forChannels channelClear s) :=
    forChannels_range_induct (P := ClearedUpTo s) hnone fun _ _ _ h => h.step
  obtain ⟨made, hmade, hcalls⟩ := hall.calls
  refine ⟨(forChannels channelClear s).sched, made, ?_, hcalls, hall.woken⟩
  rw [← hmade, ← channelClear_all_chs hl]
  exact channelClear_all_frame s

/-! ## INIT -/

/-- INIT is accepted up or down; its rule runs on the profile its operand names (R98, R210). -/
theorem exec_init {s : State} {p : BitVec 2} {prof : Profile} (ha : Accepted (.init p) s)
    (hp : profileOf p = some prof) : exec (.init p) s = initBody prof s := by
  rw [exec_eq_checked, checked_of_accepted _ ((legal_iff _ _).mpr ha) rfl]
  simp only [bodyOf, hp]

/-- The first half of INIT (R210): the control registers, the events and the calls, nothing else. -/
theorem initEvents_eq (prof : Profile) (s : State) :
    initEvents prof s = { s with
      ctl := controlAfterInit s prof,
      ev := eventsAfterInit s prof,
      calls := s.calls ++ callsOfInit s prof } := by
  apply State.eq_of_fields <;> simp [controlAfterInit, eventsAfterInit, callsOfInit, interval]

/-- INIT from down resets the channels (R210, R222). -/
theorem initBody_of_down {s : State} (prof : Profile) (hdown : s.up = false) :
    initBody prof s = initFinish (forChannels channelReset (initEvents prof s)) :=
  if_neg (by simp [hdown])

/-- INIT from up clears them, which reads their wait lists (R210, R219). -/
theorem initBody_of_up {s : State} (prof : Profile) (hup : s.up = true) :
    initBody prof s = needHeld (fun s => initFinish (forChannels channelClear s)) (initEvents prof s) :=
  if_pos (by simp [hup])

/-- The end of INIT (R210), the contents of the new ACC being free. -/
theorem initFinish_eq (s : State) : ∃ acc : List S32, acc.length = 2 * s.ctl.hbs ∧
    initFinish s = .next { s with
      up := true,
      held := true,
      outOvf := false,
      acc := some acc,
      freeCtr := s.freeCtr + 1,
      outq := ringClear s.outq,
      resp := okResponse 0#32 } := by
  obtain ⟨acc, hacc, hlen⟩ := allocAcc_length s
  refine ⟨acc, hlen, ?_⟩
  rw [← hacc]; rfl

/-- Settles O39: the events and the reset channels, then the end of INIT. -/
theorem initFromDown : Obligations.InitFromDown := by
  intro s p prof ha hp hdown hl
  have hlen : (initEvents prof s).chs.length = (initEvents prof s).par.nch := by simpa using hl
  obtain ⟨acc, hacc, hfinish⟩ := initFinish_eq (forChannels channelReset (initEvents prof s))
  rw [channelReset_all hlen, initEvents_eq] at hacc hfinish
  refine ⟨acc, hacc, ?_⟩
  rw [exec_init ha hp, initBody_of_down prof hdown, channelReset_all hlen, initEvents_eq, hfinish]
  rfl

/-- Settles O40: the events, the cleared channels with their waiters woken, then the end of INIT. -/
theorem initWhileUpForceWakes : Obligations.InitWhileUpForceWakes := by
  intro s p prof ha hp hup hh hI
  have hheld : (initEvents prof s).held = true := by simpa using hh
  obtain ⟨σ, made, hclear, hcalls, hwoken⟩ := channelClear_all_eq (s := initEvents prof s)
    (by simpa using hI.channels) (by simpa using hI.waits) (by simpa using hI.delivered)
  obtain ⟨acc, hacc, hfinish⟩ := initFinish_eq (forChannels channelClear (initEvents prof s))
  have hexec : exec (.init p) s = initFinish (forChannels channelClear (initEvents prof s)) := by
    rw [exec_init ha hp, initBody_of_up prof hup, needHeld_of_held _ hheld]
  rw [initEvents_eq] at hclear hcalls hwoken
  rw [initEvents_eq, hclear] at hacc hfinish hexec
  exact ⟨acc, σ, made, hacc, hexec.trans hfinish, hcalls, hwoken⟩

/-! ## SHUTDOWN -/

/-- Settles O41: the cleared channels, then everything but what the force-wake left is let go. -/
theorem shutdownForceWakesAndReleases : Obligations.ShutdownForceWakesAndReleases := by
  intro s hr hh hI
  obtain ⟨σ, made, hclear, hcalls, hwoken⟩ := channelClear_all_eq hI.channels hI.waits hI.delivered
  have hexec : exec .shutdown s
      = .next (answer .ok false 0#32 { forgetAll (forChannels channelClear s) with up := false }) := by
    rw [exec_of_ready hr, bodyOf, needHeld_of_held _ hh]; rfl
  rw [hclear] at hexec
  exact ⟨_, hexec, rfl, rfl, rfl, rfl, rfl, rfl, rfl, rfl, rfl, ⟨made, rfl, hcalls⟩, hwoken⟩

/-! ## Channels and OUTQ without values -/

/-- R219, R245: a command that reads a channel or OUTQ does not get past the test for values. -/
theorem bodyOf_reader_of_unspec {i : Instr} {s : State} (hr : Ready i s) (hh : s.held = false)
    (hidle : s.sig.during = none)
    (hi : (∃ ch b, i = .enq ch b) ∨ i = .tick ∨ (∃ n, i = .pull n) ∨ i = .save ∨ (∃ ch, i = .chclr ch)
      ∨ (∃ p, i = .init p) ∨ i = .shutdown) :
    ∃ made, bodyOf i s = .fault (.stateUnspec made) := by
  rcases hi with ⟨ch, b, rfl⟩ | rfl | ⟨n, rfl⟩ | rfl | ⟨ch, rfl⟩ | ⟨p, rfl⟩ | rfl
  · exact ⟨s.calls, by rw [bodyOf, needHeld_of_unspec _ hh]⟩
  · exact ⟨(tickStart s).calls, by rw [bodyOf, tickBody]; exact needHeld_of_unspec _ hh⟩
  · exact ⟨s.calls, by rw [bodyOf, if_neg (by simp [hidle]), needHeld_of_unspec _ hh]⟩
  · exact ⟨s.calls, by rw [bodyOf, needHeld_of_unspec _ hh]⟩
  · exact ⟨s.calls, by rw [bodyOf, needHeld_of_unspec _ hh]⟩
  · obtain ⟨⟨-, hwf, -⟩, hup⟩ := hr
    obtain ⟨prof, hp⟩ := profileOf_isSome hwf
    refine ⟨(initEvents prof s).calls, ?_⟩
    simp only [bodyOf, hp]
    rw [initBody_of_up prof hup, needHeld_of_unspec _ ((initEvents_held prof s).trans hh)]
  · exact ⟨s.calls, by rw [bodyOf, needHeld_of_unspec _ hh]⟩

/-- R219: the other commands but LOAD answer OK whatever the channels and OUTQ hold. -/
theorem bodyOf_nonReader (i : Instr) (s : State)
    (hi : (∃ ch v, i = .setrsv ch v) ∨ (∃ ch f, i = .setfmt ch f) ∨ (∃ ch a, i = .setaddr ch a)
      ∨ (∃ ch n, i = .setcnt ch n) ∨ (∃ ch g, i = .setvoll ch g) ∨ (∃ ch g, i = .setvolr ch g)
      ∨ (∃ f, i = .setfreq f) ∨ i = .rdstat ∨ i = .clkchg ∨ i = .hostpoll) :
    ∃ v u, bodyOf i s = .next (answer .ok false v u) := by
  rcases hi with ⟨ch, v, rfl⟩ | ⟨ch, f, rfl⟩ | ⟨ch, a, rfl⟩ | ⟨ch, n, rfl⟩ | ⟨ch, g, rfl⟩ | ⟨ch, g, rfl⟩ | ⟨f, rfl⟩
    | rfl | rfl | rfl
  all_goals exact ⟨_, _, rfl⟩

/-- Settles O50: what the rules do, behind the checks. -/
theorem unspecifiedStateFaultsOnRead : Obligations.UnspecifiedStateFaultsOnRead := by
  intro i s hr hh hidle
  rw [exec_of_ready hr]
  refine ⟨bodyOf_reader_of_unspec hr hh hidle, fun hi => ?_⟩
  obtain ⟨v, u, hbody⟩ := bodyOf_nonReader i s hi
  exact ⟨_, _, hbody, rfl, rfl⟩

end Sys2Proof.Machine
end

section
/-! Proofs of the obligations of spec/60_exceptions.md: the collaborators' moves between two commands (R256, R69, R280),
and the faults each command can raise (R245), command by command. -/

namespace Sys2Proof.Machine

open Sys2Proof

/-! ## The moves between commands -/

/-- Log 5: with nothing presented, nothing happens. -/
theorem step_of_queue_nil {s : State} (hq : s.queue = []) : step s = .next s := by
  simp only [step, hq]

/-- R256: the scheduler itself makes no wait of category WAIT_AUDIO (log 10). -/
theorem repark_of_waitAudio {P : Params} {r : WaitRecord} (t : Nat) (W : Scheduler) (h : r.category = P.waitAudio) :
    repark P t r W = W := if_pos h

theorem repark_of_other {P : Params} {r : WaitRecord} (t : Nat) (W : Scheduler) (h : r.category ≠ P.waitAudio) :
    repark P t r W = { W with waits := cellsPut W.waits t r } := if_neg h

/-- A step that takes a re-park: the scheduler's answer to it, and nothing else. -/
theorem step_threadReparked {s : State} {t : Nat} {r : WaitRecord} {rest : List Stimulus}
    (hq : s.queue = .threadReparked t r :: rest) :
    step s = .next { s with queue := rest, sched := repark s.par t r s.sched } :=
  step_of_presents_none hq rfl

/-- Settles O8: none of the moves presents a command, so each step is the move alone (`step_of_presents_none`), and the
laws of the cells say what it does thread by thread and address by address. -/
theorem movesBetweenCommands : Obligations.MovesBetweenCommands := by
  intro s rest
  refine ⟨step_of_queue_nil, fun t hq hs => ?left, fun t r hq => ⟨fun hr => ?audio, fun hr => ?other⟩,
    fun a b hq => ?store, fun a hq hm => ?unmap, fun hq => ?powerOn⟩
  case left => exact ⟨cellsErase s.sched.waits t, step_of_presents_none hq rfl, cellsGet_erase hs t⟩
  case audio => rw [step_threadReparked hq, repark_of_waitAudio t s.sched hr]
  case other =>
    refine ⟨cellsPut s.sched.waits t r, ?_, fun u => cellsGet_put s.sched.waits t u r⟩
    rw [step_threadReparked hq, repark_of_other t s.sched hr]
  case store => exact ⟨storeByte s.mem a b, step_of_presents_none hq rfl, fun a' => byteAt_store s.mem a a' b⟩
  case unmap => exact ⟨unmapByte s.mem a, step_of_presents_none hq rfl, byteAt_unmap hm a⟩
  case powerOn => exact ⟨_, _, _, _, step_of_presents_none hq rfl⟩

/-! ## The faults of each rule -/

/-- The fault of a rule that reads a channel or OUTQ, where they hold no value (R219). -/
def UnspecFault (s : State) (r : Fault) : Prop := (∃ made, r = .stateUnspec made) ∧ s.held = false

theorem respond_ne_fault {st : Status} {v : U32} {s : State} {r : Fault} : respond st v s ≠ .fault r := nofun

/-- A rule that never faults once the values are there. -/
theorem unspecFault_of_needHeld {body : State → Out} {s : State} {r : Fault} (hbody : body s ≠ .fault r)
    (h : needHeld body s = .fault r) : UnspecFault s r := by
  rcases needHeld_eq_fault h with ⟨hh, hr⟩ | ⟨-, hb⟩
  · exact ⟨⟨s.calls, hr⟩, hh⟩
  · exact absurd hb hbody

/-- A rule that needs the values and then answers. -/
theorem unspecFault_of_needHeld_respond {st : Status} {v : U32} {f : State → State} {s : State} {r : Fault}
    (h : needHeld (fun s => respond st v (f s)) s = .fault r) : UnspecFault s r :=
  unspecFault_of_needHeld (body := fun s => respond st v (f s)) respond_ne_fault h

/-- The end of ENQ faults for want of room or of an admitted address, never at the push (R66, R166). -/
theorem enqData_eq_fault {c : Nat} {ret : U32} {parked : Bool} {s : State} {r : Fault}
    (h : enqData c ret parked s = .fault r) : (∃ made, r = .cqOverflow made) ∨ ∃ a made, r = .mem a made := by
  rcases enqData_cases c ret parked s with ⟨-, e⟩ | ⟨-, -, e⟩ | ⟨-, -, a, -, e⟩ | ⟨-, -, q, -, -, e⟩
    <;> rw [e] at h <;> cases h
  · exact .inl ⟨_, rfl⟩
  · exact .inr ⟨a, _, rfl⟩

/-- ENQ faults on its data path only, whichever way it got there (R161). -/
theorem enqBody_eq_fault {c : Nat} {b : Bool} {s : State} {r : Fault} (h : enqBody c b s = .fault r) :
    (∃ made, r = .cqOverflow made) ∨ ∃ a made, r = .mem a made := by
  rcases enqBody_cases c b s with ⟨-, e⟩ | ⟨-, -, e⟩ | ⟨-, -, -, e⟩ | ⟨-, -, -, e⟩ <;> rw [e] at h
  · exact enqData_eq_fault h
  · exact absurd h respond_ne_fault
  · exact enqData_eq_fault h
  · exact enqData_eq_fault h

/-- The block of a tick is pushed only where it fits: the channels keep ACC at the `2 * HBS` slots the tick zeroed
(R122, R186). -/
theorem mixAndPush_ne_fault (cs : List Nat) (s : State) (r : Fault) :
    andThen (mixChannels cs (tickStart s)) pushBlock ≠ .fault r := by
  obtain ⟨u, hu⟩ := mixChannels_total cs (tickStart s)
  obtain ⟨hframe, -, -, hslots⟩ := mixChannels_eq_next hu
  obtain ⟨a, ha, hlen⟩ := hslots _ (tickStart_acc s)
  have hctl : u.ctl = s.ctl := by rw [hframe]; rfl
  rw [List.length_replicate, ← hctl] at hlen
  rw [hu, andThen_next]
  rcases pushBlock_cases ha hlen with ⟨-, q, -, e⟩ | ⟨-, e⟩ <;> rw [e] <;> nofun

theorem tickBody_eq_fault {s : State} {r : Fault} (h : tickBody s = .fault r) : UnspecFault s r :=
  unspecFault_of_needHeld (s := tickStart s) (mixAndPush_ne_fault (List.range s.par.nch) s r) h

/-- PULL pops no more than OUTQ holds (R123, R201). -/
theorem pullBody_ne_fault (n : U32) (s : State) (r : Fault) : pullBody n s ≠ .fault r := by
  obtain ⟨vs, q, -, e⟩ := pullBody_eq n s
  rw [e]; nofun

theorem initBody_eq_fault {p : Profile} {s : State} {r : Fault} (h : initBody p s = .fault r) : UnspecFault s r := by
  rcases initBody_cases p s with ⟨-, e⟩ | ⟨-, -, e⟩ | ⟨-, hh, e⟩ <;> rw [e] at h <;> cases h
  exact ⟨⟨_, rfl⟩, hh⟩

theorem loadBody_eq_fault {s : State} {r : Fault} (h : loadBody s = .fault r) : ∃ made, r = .badSnapshot made := by
  rcases loadBody_cases s with ⟨-, e⟩ | ⟨-, -, e⟩ | ⟨-, -, e⟩ <;> rw [e] at h <;> cases h
  exact ⟨_, rfl⟩

/-! ## The faults of each command -/

/-- R245's list, as the obligation writes it out. -/
def ListedFault (i : Instr) (s : State) (r : Fault) : Prop :=
  ((∃ made, r = .cqOverflow made) ∧ ∃ ch b, i = .enq ch b)
  ∨ ((∃ a made, r = .mem a made) ∧ ∃ ch b, i = .enq ch b)
  ∨ ((∃ made, r = .race made) ∧ (∃ n, i = .pull n) ∧ s.sig.during ≠ none)
  ∨ ((∃ made, r = .badSnapshot made) ∧ i = .load)
  ∨ UnspecFault s r

theorem UnspecFault.listed {i : Instr} {s : State} {r : Fault} (h : UnspecFault s r) : ListedFault i s r :=
  .inr (.inr (.inr (.inr h)))

/-- Every command's own rule. -/
theorem bodyOf_eq_fault {i : Instr} {s : State} {r : Fault} (h : bodyOf i s = .fault r) : ListedFault i s r := by
  cases i with
  | init p =>
    simp only [bodyOf] at h
    split at h
    · exact absurd h respond_ne_fault
    · exact (initBody_eq_fault h).listed
  | shutdown =>
    simp only [bodyOf] at h
    exact (unspecFault_of_needHeld_respond h).listed
  | clkchg       => exact absurd h respond_ne_fault
  | setfreq f    => exact absurd h respond_ne_fault
  | save =>
    simp only [bodyOf] at h
    exact (unspecFault_of_needHeld_respond h).listed
  | load         => exact .inr (.inr (.inr (.inl ⟨loadBody_eq_fault h, rfl⟩)))
  | rdstat       => exact absurd h respond_ne_fault
  | setrsv ch v  => exact absurd h respond_ne_fault
  | setfmt ch f  => exact absurd h respond_ne_fault
  | setaddr ch a => exact absurd h respond_ne_fault
  | setcnt ch n  => exact absurd h respond_ne_fault
  | setvoll ch g => exact absurd h respond_ne_fault
  | setvolr ch g => exact absurd h respond_ne_fault
  | enq ch b =>
    rcases needHeld_eq_fault h with ⟨hh, hr⟩ | ⟨-, hb⟩
    · exact UnspecFault.listed ⟨⟨s.calls, hr⟩, hh⟩
    · rcases enqBody_eq_fault hb with hover | hmem
      · exact .inl ⟨hover, ch, b, rfl⟩
      · exact .inr (.inl ⟨hmem, ch, b, rfl⟩)
  | chclr ch     => exact (unspecFault_of_needHeld_respond h).listed
  | tick         => exact (tickBody_eq_fault h).listed
  | hostpoll     => exact absurd h respond_ne_fault
  | pull n =>
    simp only [bodyOf] at h
    split at h
    · next hrace =>
      cases h
      exact .inr (.inr (.inl ⟨⟨_, rfl⟩, ⟨n, rfl⟩, Option.isSome_iff_ne_none.mp hrace⟩))
    · exact (unspecFault_of_needHeld (pullBody_ne_fault n s r) h).listed

/-- Settles O57: the checks fault nowhere, so a fault is the command's own rule's. -/
theorem faultsOnlyWhereListed : Obligations.FaultsOnlyWhereListed := by
  intro i s r h
  obtain ⟨-, -, hbody⟩ := exec_eq_fault h
  exact bodyOf_eq_fault hbody

end Sys2Proof.Machine
end
